-- ==== Sys2Proof/Word.lean ====
section
/-! DEFINITION. The value types of the block (spec/00_scope.md R9, R10, R12). All values are unsigned and of
fixed width; bit 0 is the least significant bit. -/

namespace Sys2Proof

/-- A channel byte, or a byte offered to the peripheral: 8 bits (R9 `CH_BITS`, R42). -/
abbrev Byte := BitVec 8

/-- A carrier symbol: 3 bits (R9 `SYM_BITS`, R61). -/
abbrev Symbol := BitVec 3

/-- A symbol triplet, and the width of the accumulator `ACC`: 24 bits (R9 `ACC_BITS`, R21). -/
abbrev Triplet := BitVec 24

/-- The payload of the peripheral's transfer error. R10 leaves the type `E` open (decision D13); the block
never inspects, builds or compares a payload, so a payload is a tag and no more.
DESIGN CHOICE (notes/assumptions/2.md): the tags are the natural numbers. -/
abbrev ErrTag := Nat

end Sys2Proof
end

