-- ==== Sys2Proof/Config.lean ====
section
/-! DEFINITION. What an instance of the block is built with (spec/00_scope.md R9, R10): the two protocol
variants, the four channel names, the configuration record that no step changes, the fixed constants, and the free
values.
How the constants and the variant are READ by the machine stands in Machine/Operands.lean. -/

namespace Sys2Proof

/-- The protocol variant (R10 `VARIANT`). No other value exists (decision D25), so another variant cannot
be written. -/
inductive Variant where
  | grb3
  | grbw4
  deriving DecidableEq, Repr

/-- The channel names (R10, R13): red, green, blue, white. -/
inductive Channel where
  | r
  | g
  | b
  | w
  deriving DecidableEq, Repr

/-- The build-time configuration `Cfg` (R10): fixed for an instance, changed by no step and by no reset (R27,
R32). `CH_COUNT`, `ORDER` and `SPI_HZ` follow from the variant; `E` is `ErrTag`. -/
structure Cfg where
  variant  : Variant
  /-- The peripheral's idle line level is high, so a flush is sent before the pixel data. -/
  idleHigh : Bool
  /-- The peripheral exposes try-receive, so the drain reads are performed (decision D9). -/
  hasRx    : Bool
  deriving DecidableEq, Repr

/-- R10's default of `IDLE_HIGH`: "absent by default" (decision D10). -/
def Config.idleHighDefault : Bool := false

/-- R9 `FLUSH_LEN`: zero bytes per flush, the same for both variants (R103, decision D18). -/
def Config.flushLen : Nat := 20

/-- R9 `FLUSH_BYTE`: the byte a flush transmits (R65, conflict C3). -/
def Config.flushByte : Byte := 0x00

/-- R9 `TRIPLET_BYTES`: output bytes per channel byte. -/
def Config.tripletBytes : Nat := 3

/-- R10 `SPI_HZ`: the peripheral clock the variant requires. A platform obligation (R168), read by no rule. -/
def Config.spiHz : Variant → Nat
  | .grb3  => 3000000
  | .grbw4 => 4000000

/-- FREE VALUE (notes/assumptions/11.md): what `ACC` reads as after the reset of this number and before its first
write. The spec gives it no value (R32, U14), so nothing here is known of it. -/
opaque Config.unwrittenAcc : Nat → Triplet

/-- FREE VALUE (notes/assumptions/11.md): what a channel of `PIX` reads as after the reset of this number and before
its first write. The spec gives it no value (R32, U14), so nothing here is known of it. -/
opaque Config.unwrittenPix : Nat → Channel → Byte

end Sys2Proof
end

