-- ==== Sys2Proof/Syntax.lean ====
section
/-! DEFINITION. The operations of the block as terms: one constructor of `Instr` per row of
spec/opcode_table.json (spec/00_scope.md R17, spec/30_encoding.md R67), and the channel tuples they carry. -/

namespace Sys2Proof

/-- A 3-channel color in tuple order red, green, blue (R18 "Color value", R22). -/
structure Rgb where
  r : Byte
  g : Byte
  b : Byte
  deriving DecidableEq, Repr

/-- A 4-channel color in tuple order red, green, blue, white (R18, R22). -/
structure Rgbw where
  r : Byte
  g : Byte
  b : Byte
  w : Byte
  deriving DecidableEq, Repr

/-- A channel tuple as `COLOR_IN` carries it and `PIX` holds it (R22, R41): the tuple of either variant. -/
inductive Color where
  | rgb  (c : Rgb)
  | rgbw (c : Rgbw)
  deriving DecidableEq, Repr

/-- The rows of spec/opcode_table.json. The two symbols are the carrier patterns of R61; the other nine are
the operations of R17. -/
inductive Instr where
  /-- `SYM0`, the carrier symbol of a logical 0 (R61). -/
  | sym0
  /-- `SYM1`, the carrier symbol of a logical 1 (R61). -/
  | sym1
  /-- `T b`, the symbol triplet of a channel byte (R80). -/
  | t (b : Byte)
  /-- `ENCODE b`, transmit one channel byte (R85). -/
  | encode (b : Byte)
  /-- `SEND v`, the blocking send of one byte (R83). -/
  | send (v : Byte)
  /-- `DRAIN`, the non-blocking drain read (R84). -/
  | drain
  /-- `FLUSH`, the idle-low period (R100). -/
  | flush
  /-- `PIXEL.GRB (r,g,b)`, transmit one 3-channel pixel (R110). -/
  | pixelGrb (r g b : Byte)
  /-- `PIXEL.GRBW (r,g,b,w)`, transmit one 4-channel pixel (R111). -/
  | pixelGrbw (r g b w : Byte)
  /-- `WRITE.GRB colors`, the public operation of a `GRB3` instance (R112). -/
  | writeGrb (colors : List Rgb)
  /-- `WRITE.GRBW colors`, the public operation of a `GRBW4` instance (R113). -/
  | writeGrbw (colors : List Rgbw)
  deriving DecidableEq, Repr

end Sys2Proof
end

