-- ==== Sys2Proof/WellFormed.lean ====
section
/-! DEFINITION. Which operations and which configurations are this hardware's. Every channel byte and every
tuple of channel bytes is legal (spec/30_encoding.md R68), so an operation is ill-formed only for an instance
that does not have it (spec/42_strip_writer.md R110 to R113); a configuration is ill-formed when its channel
count, order or clock is not one of the two variants' (spec/00_scope.md R10). -/

namespace Sys2Proof

/-- The variant that has the operation; `none` where both have it (R103, R110 to R113). -/
def Instr.variant? : Instr → Option Variant
  | .sym0 => none
  | .sym1 => none
  | .t _ => none
  | .encode _ => none
  | .send _ => none
  | .drain => none
  | .flush => none
  | .pixelGrb _ _ _ => some .grb3
  | .pixelGrbw _ _ _ _ => some .grbw4
  | .writeGrb _ => some .grb3
  | .writeGrbw _ => some .grbw4

/-- The instance built with `cfg` has the operation `i`: "Exists only when VARIANT = GRB3" (R110) and its
likes. -/
def WellFormed (cfg : Cfg) (i : Instr) : Bool :=
  match i.variant? with
  | none => true
  | some v => cfg.variant == v

/-- A configuration as an integrator might write it down, before it is checked against R10's table. -/
structure RawCfg where
  chCount  : Nat
  order    : List Channel
  spiHz    : Nat
  idleHigh : Bool
  hasRx    : Bool
  deriving DecidableEq, Repr

/-- R10, R68: "a configuration with any other channel count or order is refused (it is not an instance of
this hardware)". `none` is that refusal. The clock is checked with them, since `SPI_HZ` follows the variant. -/
def RawCfg.build? (c : RawCfg) : Option Cfg :=
  if c.chCount = 3 ∧ c.order = [.g, .r, .b] ∧ c.spiHz = Config.spiHz .grb3 then
    some ⟨.grb3, c.idleHigh, c.hasRx⟩
  else if c.chCount = 4 ∧ c.order = [.g, .r, .b, .w] ∧ c.spiHz = Config.spiHz .grbw4 then
    some ⟨.grbw4, c.idleHigh, c.hasRx⟩
  else none

end Sys2Proof
end

