-- ==== Sys2Proof/Decode.lean ====
section
/-! DEFINITION. The wire encodings (spec/30_encoding.md R60 to R69): an encoder from operations to wire bytes
and a total decoder from wire bytes back to operations, each written from the spec's bit layout.

The block decodes nothing itself (R67: "No operation is selected by a bit pattern"). What is decoded here is
what R8 calls an operation's encoding, the wire bytes it produces, read the way R63 says a receiver of the byte
stream reads them. The format is known to the reader, as it is to a receiver; the bytes alone do not tell it.
`T` and `ENCODE` have one and the same pattern (R67), so a triplet is read as `ENCODE`, the operation that puts
it on the wire. -/

namespace Sys2Proof

/-- The formats of R60, with `BYTE` and `none` of R67. A frame is read knowing the instance's variant and
`IDLE_HIGH`, which appear nowhere in it (R66, R70). -/
inductive Format where
  | sym
  | triplet
  | byte
  | empty
  | flushf
  | pixel3
  | pixel4
  | frame (v : Variant) (idleHigh : Bool)
  deriving DecidableEq, Repr

/-- Why bytes are no encoding of a format. -/
inductive DecodeError where
  /-- The number of bytes is not one the format has (R60, R66). -/
  | wrongLength
  /-- Not one of the two carrier symbols (R61, R69). -/
  | notASymbol
  /-- Not a legal triplet: `v & 0xB6DB6D` is not `0x924924` (R62, R69). -/
  | notATriplet
  /-- A byte of a flush that is not `0x00` (R65). -/
  | notAFlush
  deriving DecidableEq, Repr

/-! ### Encoding -/

/-- R61: `SYM(d) = 0b100 | (d << 1)`. -/
def symbolBits (d : Bool) : Symbol :=
  0b100#3 ||| ((BitVec.ofBool d).zeroExtend 3 <<< 1)

/-- R62: where data bit `i` of a channel byte stands in its triplet, bit `3i+1`. -/
def dataBit (b : Byte) (i : Nat) : Triplet :=
  if b.getLsbD i then 1#24 <<< (3 * i + 1) else 0#24

/-- R62: the triplet of a channel byte, the always-one bits `0x924924` with the eight data bits placed. -/
def tripletBits (b : Byte) : Triplet :=
  0x924924#24 ||| dataBit b 7 ||| dataBit b 6 ||| dataBit b 5 ||| dataBit b 4
    ||| dataBit b 3 ||| dataBit b 2 ||| dataBit b 1 ||| dataBit b 0

/-- R46: the three bytes of a triplet in wire order, most significant first. -/
def tripletToBytes (v : Triplet) : List Byte :=
  [v.extractLsb' 16 8, v.extractLsb' 8 8, v.extractLsb' 0 8]

/-- Format `TRIPLET` (R62). -/
def encodeTriplet (b : Byte) : List Byte := tripletToBytes (tripletBits b)

/-- Format `FLUSHF` (R65): 20 bytes `0x00`. -/
def encodeFlush : List Byte := List.replicate 20 0x00#8

/-- Format `PIXEL3` (R64): green, red, blue. -/
def encodePixel3 (r g b : Byte) : List Byte := encodeTriplet g ++ encodeTriplet r ++ encodeTriplet b

/-- Format `PIXEL4` (R64): green, red, blue, white. -/
def encodePixel4 (r g b w : Byte) : List Byte := encodePixel3 r g b ++ encodeTriplet w

/-- Format `FRAME` (R66) around its pixels: the pre-flush if the instance idles high, and the final flush. -/
def encodeFrame (idleHigh : Bool) (pixels : List Byte) : List Byte :=
  (if idleHigh then encodeFlush else []) ++ pixels ++ encodeFlush

/-- The pixel data of a `GRB3` frame, in the order the colors are yielded (R49, R66). -/
def encodePixels3 (cs : List Rgb) : List Byte := cs.flatMap fun c => encodePixel3 c.r c.g c.b

/-- The pixel data of a `GRBW4` frame (R49, R66). -/
def encodePixels4 (cs : List Rgbw) : List Byte := cs.flatMap fun c => encodePixel4 c.r c.g c.b c.w

/-- The format of an operation's encoding for an instance (R60, R67). -/
def Instr.format (cfg : Cfg) : Instr → Format
  | .sym0 => .sym
  | .sym1 => .sym
  | .t _ => .triplet
  | .encode _ => .triplet
  | .send _ => .byte
  | .drain => .empty
  | .flush => .flushf
  | .pixelGrb _ _ _ => .pixel3
  | .pixelGrbw _ _ _ _ => .pixel4
  | .writeGrb _ => .frame .grb3 cfg.idleHigh
  | .writeGrbw _ => .frame .grbw4 cfg.idleHigh

/-- The wire bytes of an operation when every send succeeds (R67), in the order they leave. A symbol, which
is no whole byte, stands in the low three bits of one byte (DESIGN CHOICE, notes/assumptions/10.md). -/
def encode (cfg : Cfg) : Instr → List Byte
  | .sym0 => [(symbolBits false).zeroExtend 8]
  | .sym1 => [(symbolBits true).zeroExtend 8]
  | .t b => encodeTriplet b
  | .encode b => encodeTriplet b
  | .send v => [v]
  | .drain => []
  | .flush => encodeFlush
  | .pixelGrb r g b => encodePixel3 r g b
  | .pixelGrbw r g b w => encodePixel4 r g b w
  | .writeGrb cs => encodeFrame cfg.idleHigh (encodePixels3 cs)
  | .writeGrbw cs => encodeFrame cfg.idleHigh (encodePixels4 cs)

/-! ### Decoding -/

/-- R62: "a 24-bit value v is a legal triplet exactly when v & 0xB6DB6D = 0x924924". -/
def legalTriplet (v : Triplet) : Bool := v &&& 0xB6DB6D#24 == 0x924924#24

/-- R63: the channel byte of a legal triplet, `b[i] = v[3i+1]`. -/
def recoverByte (v : Triplet) : Byte :=
  BitVec.ofBool (v.getLsbD 22) ++ BitVec.ofBool (v.getLsbD 19) ++ BitVec.ofBool (v.getLsbD 16)
    ++ BitVec.ofBool (v.getLsbD 13) ++ BitVec.ofBool (v.getLsbD 10) ++ BitVec.ofBool (v.getLsbD 7)
    ++ BitVec.ofBool (v.getLsbD 4) ++ BitVec.ofBool (v.getLsbD 1)

/-- Read one triplet off the front of a byte stream, and what follows it. -/
def takeTriplet : List Byte → Except DecodeError (Byte × List Byte)
  | b0 :: b1 :: b2 :: rest =>
    let v : Triplet := b0 ++ b1 ++ b2
    if legalTriplet v then .ok (recoverByte v, rest) else .error .notATriplet
  | _ => .error .wrongLength

/-- Read `n` bytes `0x00` off the front of a byte stream. -/
def takeZeros : Nat → List Byte → Except DecodeError (List Byte)
  | 0, rest => .ok rest
  | _ + 1, [] => .error .wrongLength
  | n + 1, b :: rest => if b = 0x00#8 then takeZeros n rest else .error .notAFlush

/-- Read one 3-channel pixel: green, red, blue on the wire, red, green, blue in the tuple (R63, R64). -/
def takePixel3 (bs : List Byte) : Except DecodeError (Rgb × List Byte) := do
  let (g, bs) ← takeTriplet bs
  let (r, bs) ← takeTriplet bs
  let (b, bs) ← takeTriplet bs
  .ok (⟨r, g, b⟩, bs)

/-- Read one 4-channel pixel: green, red, blue, white on the wire (R63, R64). -/
def takePixel4 (bs : List Byte) : Except DecodeError (Rgbw × List Byte) := do
  let (c, bs) ← takePixel3 bs
  let (w, bs) ← takeTriplet bs
  .ok (⟨c.r, c.g, c.b, w⟩, bs)

/-- Read `n` items off the front of a byte stream with the reader of one. -/
def takeMany {α : Type} (take : List Byte → Except DecodeError (α × List Byte)) :
    Nat → List Byte → Except DecodeError (List α × List Byte)
  | 0, bs => .ok ([], bs)
  | n + 1, bs => do
    let (a, bs) ← take bs
    let (rest, bs) ← takeMany take n bs
    .ok (a :: rest, bs)

/-- Nothing may follow a format's last byte. -/
def expectEnd (bs : List Byte) : Except DecodeError Unit :=
  if bs = [] then .ok () else .error .wrongLength

/-- Read a frame (R66): the pre-flush if the instance idles high, then as many pixels as the length leaves
room for (a frame has no length field, R66), then the final flush, and nothing after it. -/
def takeFrame {α : Type} (take : List Byte → Except DecodeError (α × List Byte)) (pixelBytes : Nat)
    (idleHigh : Bool) (bs : List Byte) : Except DecodeError (List α) := do
  let bs ← if idleHigh then takeZeros 20 bs else .ok bs
  let (cs, bs) ← takeMany take ((bs.length - 20) / pixelBytes) bs
  let bs ← takeZeros 20 bs
  expectEnd bs
  .ok cs

/-- The operation whose encoding in the format the bytes are; total, and a refusal by name elsewhere. -/
def decode : Format → List Byte → Except DecodeError Instr
  | .sym, [b] =>
    if b = 0b100#8 then .ok .sym0 else if b = 0b110#8 then .ok .sym1 else .error .notASymbol
  | .sym, _ => .error .wrongLength
  | .triplet, bs => do
    let (b, rest) ← takeTriplet bs
    expectEnd rest
    .ok (.encode b)
  | .byte, [v] => .ok (.send v)
  | .byte, _ => .error .wrongLength
  | .empty, bs => do
    expectEnd bs
    .ok .drain
  | .flushf, bs => do
    let rest ← takeZeros 20 bs
    expectEnd rest
    .ok .flush
  | .pixel3, bs => do
    let (c, rest) ← takePixel3 bs
    expectEnd rest
    .ok (.pixelGrb c.r c.g c.b)
  | .pixel4, bs => do
    let (c, rest) ← takePixel4 bs
    expectEnd rest
    .ok (.pixelGrbw c.r c.g c.b c.w)
  | .frame .grb3 idleHigh, bs => do
    let cs ← takeFrame takePixel3 9 idleHigh bs
    .ok (.writeGrb cs)
  | .frame .grbw4 idleHigh, bs => do
    let cs ← takeFrame takePixel4 12 idleHigh bs
    .ok (.writeGrbw cs)

/-- What the decoder answers for the encoding of an operation: the operation, but `ENCODE b` for `T b`, whose
pattern is the same (R67). -/
def Instr.canonical : Instr → Instr
  | .t b => .encode b
  | i => i

/-! ### Words numbered as spec/opcode_table.json numbers them -/

/-- The bytes of a number of `n` bytes, most significant first: the wire order of R46. -/
def bytesOfWord : Nat → Nat → List Byte
  | 0, _ => []
  | n + 1, w => BitVec.ofNat 8 (w / 256 ^ n) :: bytesOfWord n w

/-- The formats of the rows of R67's table whose width this is, in bits: a fixed width has the one format the table
gives it, and any other number of whole bytes can be a frame only, of whichever variant and `IDLE_HIGH` it is one
(DESIGN CHOICE for their order, notes/assumptions/10.md). No row has a width that is no number of whole bytes, but
for a symbol's. -/
def formatsOfWidth (nbits : Nat) : List Format :=
  if nbits = 0 then [.empty]
  else if nbits = 3 then [.sym]
  else if nbits = 8 then [.byte]
  else if nbits = 24 then [.triplet]
  else if nbits = 72 then [.pixel3]
  else if nbits = 96 then [.pixel4]
  else if nbits = 160 then [.flushf]
  else if nbits % 8 = 0 then [.frame .grb3 false, .frame .grbw4 false, .frame .grb3 true, .frame .grbw4 true]
  else []

/-- The first of the formats in which the bytes are an encoding, with what they encode. -/
def firstDecoding (bs : List Byte) : List Format → Option (Format × Instr)
  | [] => none
  | f :: fs =>
    match decode f bs with
    | .ok i => some (f, i)
    | .error _ => firstDecoding bs fs

/-- The bytes of a table word of `nbits` bits; the three bits of a symbol stand in one byte. -/
def tableBytes (nbits w : Nat) : List Byte := bytesOfWord ((nbits + 7) / 8) w

/-- The format a table word is read in. A word that is no encoding at all keeps the first format of its
width, whose decoder names what is wrong with it; a width of no row is read as no operation's. -/
def tableFormat (nbits w : Nat) : Format :=
  match firstDecoding (tableBytes nbits w) (formatsOfWidth nbits) with
  | some (f, _) => f
  | none => (formatsOfWidth nbits).headD .empty

/-- The operation the decoder reads from a table word of `nbits` bits. -/
def decodeTableWord (nbits w : Nat) : Option Instr :=
  match decode (tableFormat nbits w) (tableBytes nbits w) with
  | .ok i => some i
  | .error _ => none

end Sys2Proof
end

