-- ==== Sys2Proof/Machine/State.lean ====
section
/-! DEFINITION. The state of one instance of the block (spec/10_state.md R20 to R25), with the environment it
acts on (R31) and the ghost values the spec states its guarantees with (spec/00_scope.md R15), as plain data;
the reasons a step can stop; and the state after hardware reset (R32).

Three parts are kept apart in `State`. THE BLOCK's own state is `seq`, `acc`, `pix`, `res`, with the
configuration `cfg` that no step changes: "Nothing else is state of the block" (R20). THE ENVIRONMENT's is
`host`, `colors`, `tx`, `rx`: what the host will do, and what the color source and the peripheral will answer.
Nothing in it is the block's, and every statement over states is a statement over every environment. THE
GHOSTS are `trace` (R15) and `ret` (what the operation performed last returned): no step of the block reads
them. Besides, `resets` counts the hardware resets, for the free values of registers not yet written. -/

namespace Sys2Proof.Machine

/-- A register that may be *unwritten* (R13: "A register marked *unwritten* holds no value"). `unwritten` is
the reset value that R21, R22 and R32 state for `ACC` and `PIX`; what is read from it is a free value
(notes/assumptions/11.md), and no run reads it (R29). -/
inductive Reg (α : Type) where
  | unwritten
  | holds (v : α)
  deriving DecidableEq, Repr

/-- The values of the result register `RES` (R23). -/
inductive ResultReg where
  | none
  | ok
  | err (e : ErrTag)
  deriving DecidableEq, Repr

/-- Which flush of a WRITE (R24): the pre-flush or the final flush. -/
inductive Which where
  | pre
  | post
  deriving DecidableEq, Repr

/-- The sequencer position `SEQ` (R24), the block's program counter. Indexes out of range, `SYM_DRAIN(c,2)`
among them, cannot be written (R130); which positions an instance has is `Seq.existsIn` (Machine/Flags.lean). -/
inductive Seq where
  | idle
  | flSend (w : Which) (k : Fin 20)
  | flDrain (w : Which) (k : Fin 20)
  | fetch
  | enc (c : Fin 4)
  | symSend (c : Fin 4) (j : Fin 3)
  | symDrain (c : Fin 4) (j : Fin 2)
  deriving DecidableEq, Repr

/-- What a `TrySend(b)` answers (R14, R42). -/
inductive TxAnswer where
  | ok
  | wouldBlock
  | err (e : ErrTag)
  deriving DecidableEq, Repr

/-- What a `TryRecv()` answers (R14, R43); the block discards it. -/
inductive RxAnswer where
  | ok (v : Byte)
  | wouldBlock
  | err (e : ErrTag)
  deriving DecidableEq, Repr

/-- What the block hands back in `Deliver(r)` (R14, R44). -/
inductive Delivered where
  | ok
  | err (e : ErrTag)
  deriving DecidableEq, Repr

/-- The interface events of a trace (R15). -/
inductive Event where
  | tx (b : Byte)
  | txwb (b : Byte)
  | txerr (b : Byte) (e : ErrTag)
  | rx
  | pull (c : Color)
  | pullEnd
  | done (r : Delivered)
  deriving DecidableEq, Repr

/-- A script of answers: those of `answers` one after another, then `after` at every further attempt. R71's
`wb*K@n`, `err(e)@n` and `wb*infinity@n` are such scripts, and so is its default `tx = ok`. Any finite sequence
of answers stands at the front of some script (notes/assumptions/3.md). -/
structure Script (α : Type) where
  answers : List α
  after   : α
  deriving DecidableEq, Repr

/-- The lazy color sequence behind `COLOR_IN` (R31, R41): the colors not yet pulled, and, for the endless source
of R172 only, the color it yields at every further pull. -/
structure ColorSource where
  colors  : List Color
  endless : Option Color
  deriving DecidableEq, Repr

/-- What the outside does to the block at one step. -/
inductive HostMove where
  /-- Nothing: the block takes its own step. -/
  | quiet
  /-- The `Start` event (R44, R120), with the color source the host has put behind `COLOR_IN` for this WRITE. -/
  | start (source : ColorSource)
  /-- The hardware reset (R165). -/
  | reset
  /-- The model's test bench, no event of the hardware: perform in isolation, as one step, the operation whose
  encoding in the format the bytes are (DESIGN CHOICE, notes/assumptions/5.md). -/
  | perform (f : Format) (bytes : List Byte)
  deriving DecidableEq, Repr

/-- The result an operation returns ("Result:" in R80, R83, R84, R85, R100, R110 to R113; the symbol of R61). -/
inductive Returned where
  | nothing
  | symbol (v : Symbol)
  | triplet (v : Triplet)
  | ok
  | err (e : ErrTag)
  deriving DecidableEq, Repr

/-- One instance of the block with its environment and its ghosts. -/
structure State where
  /-- `Cfg` (R10): build-time, changed by no step (R27). -/
  cfg    : Cfg
  /-- `SEQ` (R24). -/
  seq    : Seq
  /-- `ACC`, 24 bits (R21). -/
  acc    : Reg Triplet
  /-- `PIX`, 24 or 32 bits, in tuple order (R22). -/
  pix    : Reg Color
  /-- `RES` (R23). -/
  res    : ResultReg
  /-- What the host will do, one move a step; nothing once the list is empty. -/
  host   : List HostMove
  /-- The position of the lazy color sequence (R31). -/
  colors : ColorSource
  /-- The peripheral's answers to `TrySend` (R31, R42). -/
  tx     : Script TxAnswer
  /-- The peripheral's answers to `TryRecv` (R31, R43). -/
  rx     : Script RxAnswer
  /-- The ghost `TRACE` (R15), oldest event first. It goes on across WRITEs and only a reset empties it (DESIGN
  CHOICE, notes/assumptions/17.md). -/
  trace  : List Event
  /-- The ghost result of the operation performed last. -/
  ret    : Returned
  /-- The model's own counter of hardware resets, which the free values of unwritten registers are applied to
  (notes/assumptions/11.md). -/
  resets : Nat
  deriving DecidableEq, Repr

/-- Why a step stops with a fault. -/
inductive Fault where
  /-- Raised by the functional form of an operation that sends (SEND, ENCODE, FLUSH, PIXEL, WRITE) when the
  peripheral answers `WouldBlock` for ever: the run never ends and there is no result (R115, R150, R172). The
  step form contains that run itself and never raises this. Safe: it stops where the hardware goes on. -/
  | neverEnds
  /-- Raised at `ENC` when `PIX` holds a tuple without the channel that is read, `PIX[W]` of a 3-channel tuple
  (R22). No state a run reaches raises it. Safe. -/
  | noSuchChannel
  deriving DecidableEq, Repr

/-- Why a step is refused: no meaning under the spec. -/
inductive Refusal where
  /-- An instruction whose arm of `exec` has no meaning yet. No arm is left. Safe. -/
  | notModelled (mnemonic : String)
  /-- `Start`, or a bench operation, while `SEQ` is not `IDLE` (R120, R150, U11). Raised by the step's host move
  and by WRITE. Safe for the block; that a host never does it is R170's obligation (notes/assumptions/6.md). -/
  | busy
  /-- `PIXEL` or `WRITE` of the other variant (R110 to R113: "Exists only when"). Raised by those four. Safe. -/
  | notOfThisVariant
  /-- `SEQ` at a position the instance does not have (R24, R130, R150). Raised by the block's own step. Safe. -/
  | noSuchPosition
  /-- `COLOR_IN` yielded a tuple of the other variant, which R41 and R170 forbid and decision D14 leaves outside.
  Raised at `FETCH`. Safe. -/
  | tupleOfOtherVariant
  /-- A bench operation whose bytes are no encoding of its format (R62, R69). Raised by the step. Safe. -/
  | notAnEncoding (e : DecodeError)
  deriving DecidableEq, Repr

/-- The state after hardware reset (R32): `SEQ = IDLE`, `RES = NONE`, `ACC` and `PIX` unwritten, `TRACE` empty.
DESIGN CHOICE (notes/assumptions/1.md, 4.md): R10 gives `VARIANT` and `HAS_RX` no default, so this instance is
the `GRB3` one with a receive side; its environment is R71's default (every `TrySend` answered `Ok`), with a host
that does nothing and a color source with nothing in it. The model's counter of resets begins at zero, on which no
statement rests (DESIGN CHOICE, notes/assumptions/11.md). -/
def State.reset : State where
  cfg    := ⟨.grb3, Config.idleHighDefault, true⟩
  seq    := .idle
  acc    := .unwritten
  pix    := .unwritten
  res    := .none
  host   := []
  colors := ⟨[], none⟩
  tx     := ⟨[], .ok⟩
  rx     := ⟨[], .wouldBlock⟩
  trace  := []
  ret    := .nothing
  resets := 0

end Sys2Proof.Machine
end

