-- ==== Sys2Proof/Machine/Operands.lean ====
section
/-! DEFINITION. Reading operands: the constants and the variant as the machine reads them (spec/00_scope.md R9,
R10), the channels of a tuple (spec/10_state.md R22), the symbol triplet of a channel byte
(spec/40_symbol_encoder.md R80, R81) and the bytes of the accumulator (spec/20_memory.md R46). -/

namespace Sys2Proof.Machine

/-- R10 `CH_COUNT`. -/
def chCount : Variant → Nat
  | .grb3 => 3
  | .grbw4 => 4

/-- R10 `ORDER`: the transmission order of the channels of one pixel. -/
def order : Variant → List Channel
  | .grb3 => [.g, .r, .b]
  | .grbw4 => [.g, .r, .b, .w]

/-- `ORDER[c]`, for the channel positions `c` an instance has (R126). -/
def orderAt (v : Variant) (c : Fin 4) : Option Channel := (order v)[c.val]?

/-- `PIX[c]` for a channel name (R13, R22): the tuple is stored in tuple order, and `PIX[W]` exists only in a
4-channel tuple. -/
def channelOf : Color → Channel → Option Byte
  | .rgb c, .r => some c.r
  | .rgb c, .g => some c.g
  | .rgb c, .b => some c.b
  | .rgb _, .w => none
  | .rgbw c, .r => some c.r
  | .rgbw c, .g => some c.g
  | .rgbw c, .b => some c.b
  | .rgbw c, .w => some c.w

/-- The variant a channel tuple belongs to (R22, R41). -/
def variantOf : Color → Variant
  | .rgb _ => .grb3
  | .rgbw _ => .grbw4

/-- R61, R80: the carrier symbol of a data bit, `0b110` for one and `0b100` for zero. -/
def symbolOf (d : Bool) : Symbol := if d then 0b110#3 else 0b100#3

/-- R80: `T(b)`, the symbols of data bits 7 down to 0 side by side, bit 7 most significant (R47). -/
def tripletOf (b : Byte) : Triplet :=
  symbolOf (b.getLsbD 7) ++ symbolOf (b.getLsbD 6) ++ symbolOf (b.getLsbD 5) ++ symbolOf (b.getLsbD 4)
    ++ symbolOf (b.getLsbD 3) ++ symbolOf (b.getLsbD 2) ++ symbolOf (b.getLsbD 1) ++ symbolOf (b.getLsbD 0)

/-- R81: one iteration of the source's algorithm, `acc <- (acc << 3) | SYM(d)` within 24 bits. -/
def appendSymbol (acc : Triplet) (d : Bool) : Triplet := (acc <<< 3) ||| (symbolOf d).zeroExtend 24

/-- R81: the accumulator after the iterations for the data bits listed, from a zero start. -/
def tripletLoop (bits : List Bool) : Triplet := bits.foldl appendSymbol 0#24

/-- R12: the data bits of a byte, bit 7 first. -/
def bitsOf (b : Byte) : List Bool :=
  [b.getLsbD 7, b.getLsbD 6, b.getLsbD 5, b.getLsbD 4, b.getLsbD 3, b.getLsbD 2, b.getLsbD 1, b.getLsbD 0]

/-- R46, R127: byte `j` of the accumulator, `ACC[23:16]`, `ACC[15:8]`, `ACC[7:0]` for `j` = 0, 1, 2. -/
def tripletByte (v : Triplet) : Fin 3 → Byte
  | 0 => v.extractLsb' 16 8
  | 1 => v.extractLsb' 8 8
  | 2 => v.extractLsb' 0 8

/-- The byte a flush offers (R9, R121). -/
def flushByte : Byte := Config.flushByte

/-- The operands of PIXEL.GRB in transmission order (R63, R64, R110). -/
def pixelBytes3 (r g b : Byte) : List Byte := [g, r, b]

/-- The operands of PIXEL.GRBW in transmission order (R63, R64, R111). -/
def pixelBytes4 (r g b w : Byte) : List Byte := [g, r, b, w]

/-- The channel bytes of a color in transmission order (R49). -/
def colorBytes : Color → List Byte
  | .rgb c => pixelBytes3 c.r c.g c.b
  | .rgbw c => pixelBytes4 c.r c.g c.b c.w

end Sys2Proof.Machine
end

