-- ==== Sys2Proof/Machine/Flags.lean ====
section
/-! DEFINITION. The conditions the sequencer tests. The block has no flags and no condition codes (spec/10_state.md
R26): "The only conditions the sequencer tests are the environment's answers ... and the configuration bits".
The environment's answers are matched where they are drawn (Machine/Ops.lean); the conditions on the
configuration and on `SEQ` stand here. -/

namespace Sys2Proof.Machine

/-- R24's column "exists when", with `CH_COUNT` bounding the channel positions: the positions an instance has.
DEDUCED (notes/assumptions/7.md): `FL_DRAIN(PRE,k)`, the drain of a zero byte of the pre-flush, exists only where
the pre-flush does. -/
def Seq.existsIn (cfg : Cfg) : Seq → Bool
  | .idle => true
  | .flSend .pre _ => cfg.idleHigh
  | .flSend .post _ => true
  | .flDrain .pre _ => cfg.hasRx && cfg.idleHigh
  | .flDrain .post _ => cfg.hasRx
  | .fetch => true
  | .enc c => decide (c.val < chCount cfg.variant)
  | .symSend c _ => decide (c.val < chCount cfg.variant)
  | .symDrain c _ => cfg.hasRx && decide (c.val < chCount cfg.variant)

/-- R25: "The block is busy exactly when `SEQ` is not `IDLE`". -/
def State.busy (s : State) : Bool := s.seq != .idle

/-- R9 `DRAIN_AFTER`, R85, R173: the triplet bytes that a drain read follows are bytes 0 and 1. -/
def drainFollows (j : Fin 3) : Bool := decide (j.val < 2)

/-- A `TrySend` can fail at the two `..._SEND` positions and nowhere else (R141). -/
def Seq.isSend : Seq → Bool
  | .idle => false
  | .flSend _ _ => true
  | .flDrain _ _ => false
  | .fetch => false
  | .enc _ => false
  | .symSend _ _ => true
  | .symDrain _ _ => false

end Sys2Proof.Machine
end

