-- ==== Sys2Proof/Machine/Ops.lean ====
section
/-! DEFINITION. The shared operations: the interface primitives (spec/00_scope.md R14, spec/20_memory.md R41 to
R44), the moves of `SEQ` (spec/42_strip_writer.md R120, R123, R124, R129), TAKING THE ONE EXCEPTION (the abort of
spec/60_exceptions.md R146; there is no return from it, R148), hardware reset
(spec/70_reset_and_hazards.md R165), and the blocking send built from the primitive attempt
(spec/40_symbol_encoder.md R83). The block has no memory (spec/10_state.md R30), so there are no operations over
memory. -/

namespace Sys2Proof.Machine

/-! ### The environment's answers -/

/-- The next answer of a script, and the script after it. -/
def Script.draw {α : Type} (q : Script α) : α × Script α :=
  match q.answers with
  | [] => (q.after, q)
  | a :: rest => (a, { q with answers := rest })

/-- The next answer of the color source (R41): `none` when it is exhausted. -/
def ColorSource.draw (c : ColorSource) : Option Color × ColorSource :=
  match c.colors with
  | [] => (c.endless, c)
  | t :: rest => (some t, { c with colors := rest })

/-- Append an event to the ghost trace (R15). -/
def State.log (s : State) (ev : Event) : State := { s with trace := s.trace ++ [ev] }

/-- The event of a `TrySend(v)` with its answer (R15). -/
def txEvent (v : Byte) : TxAnswer → Event
  | .ok => .tx v
  | .wouldBlock => .txwb v
  | .err e => .txerr v e

/-! ### Reading the registers (R13) -/

/-- Reading `ACC`: the value written last; a free value as long as nothing has been written since reset. -/
def State.readAcc (s : State) : Triplet :=
  match s.acc with
  | .unwritten => Config.unwrittenAcc s.resets
  | .holds v => v

/-- Reading `PIX[ch]` (R22): the channel of the tuple written last, if the tuple has it; a free value as long as
nothing has been written since reset. -/
def State.readPix (ch : Channel) (s : State) : Option Byte :=
  match s.pix with
  | .unwritten => some (Config.unwrittenPix s.resets ch)
  | .holds t => channelOf t ch

/-! ### The interface primitives (R14) -/

/-- `TrySend(v)` (R42): one attempt to send one byte; what it was answered. -/
def State.trySend (v : Byte) (s : State) : TxAnswer × State :=
  (s.tx.draw.1, { s with tx := s.tx.draw.2 }.log (txEvent v s.tx.draw.1))

/-- `TryRecv()` (R43): one attempt to receive; the answer is drawn and dropped. -/
def State.tryRecv (s : State) : State := { s with rx := s.rx.draw.2 }.log .rx

/-- `NextColor()` (R41): pull the next color. -/
def State.nextColor (s : State) : Option Color × State :=
  match s.colors.draw.1 with
  | some t => (some t, { s with colors := s.colors.draw.2 }.log (.pull t))
  | none => (none, { s with colors := s.colors.draw.2 }.log .pullEnd)

/-- `Deliver(r)` (R44): hand the result back. -/
def State.deliver (r : Delivered) (s : State) : State := s.log (.done r)

/-- What the host may read of `RES`: its value, while `SEQ = IDLE` (R23). -/
def State.readRes (s : State) : Option ResultReg := if s.busy then none else some s.res

/-! ### Moves of `SEQ` -/

/-- R124 `Finish`: `RES <- OK`; `SEQ <- IDLE`; `Deliver(Ok)`. -/
def State.finish (s : State) : State := { s with res := .ok, seq := .idle }.deliver .ok

/-- R146, THE ABORT, the block's one exception entry: `RES <- ERR(e)`; `SEQ <- IDLE`; `Deliver(Err(e))`; nothing
else changes and nothing is saved. -/
def State.abort (e : ErrTag) (s : State) : State := { s with res := .err e, seq := .idle }.deliver (.err e)

/-- R165, R32: hardware reset, from any state; `Cfg` and the environment are not touched, and no interface is.
The ghosts begin anew (R32: "`TRACE` (ghost) empty"), and what the two registers hold now is another free value
(notes/assumptions/11.md). -/
def State.hwReset (s : State) : State :=
  { s with
    seq := .idle, res := .none, acc := .unwritten, pix := .unwritten, trace := [], ret := .nothing
    resets := s.resets + 1 }

/-- R120: the effect of an accepted `Start`, with the color source the host put behind `COLOR_IN` (DESIGN CHOICE,
notes/assumptions/9.md). The ghost `TRACE` goes on: R15 and R134 do not say that it begins anew with a run (DESIGN
CHOICE, notes/assumptions/17.md). -/
def State.acceptStart (source : ColorSource) (s : State) : State :=
  { s with res := .none, colors := source, seq := if s.cfg.idleHigh then .flSend .pre 0 else .fetch }

/-- R123 `AfterFlush(w,k)`, with R124's `Finish` performed where it answers `Finish`. -/
def State.afterFlush (w : Which) (k : Fin 20) (s : State) : State :=
  if h : k.val < 19 then { s with seq := .flSend w ⟨k.val + 1, by omega⟩ }
  else
    match w with
    | .pre => { s with seq := .fetch }
    | .post => s.finish

/-- R129 `AfterSym(c,j)`. -/
def State.afterSym (c : Fin 4) (j : Fin 3) (s : State) : State :=
  if h : j.val < 2 then { s with seq := .symSend c ⟨j.val + 1, by omega⟩ }
  else if h : c.val + 1 < 4 ∧ c.val + 1 < chCount s.cfg.variant then { s with seq := .enc ⟨c.val + 1, h.1⟩ }
  else { s with seq := .fetch }

/-- Where `SEQ` goes when the byte of a `..._SEND` position was answered `Ok` (R121, R127). At any other position
(an operation performed in isolation) it stays. `SEQ` moves so for every send, also for one of an operation performed at
a position that R132 does not give it (DESIGN CHOICE, notes/assumptions/19.md). -/
def State.afterSend (s : State) : State :=
  match s.seq with
  | .flSend w k => if s.cfg.hasRx then { s with seq := .flDrain w k } else s.afterFlush w k
  | .symSend c j =>
    if h : s.cfg.hasRx = true ∧ j.val < 2 then { s with seq := .symDrain c ⟨j.val, h.2⟩ } else s.afterSym c j
  | .idle => s
  | .flDrain _ _ => s
  | .fetch => s
  | .enc _ => s
  | .symDrain _ _ => s

/-- Where `SEQ` goes after the receive attempt of a `..._DRAIN` position (R122, R128). At any other position it stays;
of operations at a position not their own see `State.afterSend` (DESIGN CHOICE, notes/assumptions/19.md). -/
def State.afterDrain (s : State) : State :=
  match s.seq with
  | .flDrain w k => s.afterFlush w k
  | .symDrain c j => s.afterSym c ⟨j.val, by omega⟩
  | .idle => s
  | .flSend _ _ => s
  | .fetch => s
  | .enc _ => s
  | .symSend _ _ => s

/-- R126: load the accumulator; `SEQ` goes from `ENC(c)` to `SYM_SEND(c,0)`, and stays where an ENCODE is
performed in isolation or at a position not its own (DESIGN CHOICE, notes/assumptions/8.md, 19.md). -/
def State.loadAcc (v : Triplet) (s : State) : State :=
  match s.seq with
  | .enc c => { s with acc := .holds v, seq := .symSend c 0 }
  | .idle => { s with acc := .holds v }
  | .flSend _ _ => { s with acc := .holds v }
  | .flDrain _ _ => { s with acc := .holds v }
  | .fetch => { s with acc := .holds v }
  | .symSend _ _ => { s with acc := .holds v }
  | .symDrain _ _ => { s with acc := .holds v }

/-- R125, a color pulled: `PIX <- t`; `SEQ <- ENC(0)`. -/
def State.loadPix (t : Color) (s : State) : State := { s with pix := .holds t, seq := .enc 0 }

/-- R125, the source exhausted: `SEQ <- FL_SEND(POST,0)`. -/
def State.enterFinalFlush (s : State) : State := { s with seq := .flSend .post 0 }

/-! ### Sending and draining -/

/-- One attempt to send `v` and what follows from its answer (R83, R121, R127): on `Ok` `SEQ` moves on, on
`WouldBlock` nothing changes, on `Err(e)` the abort. -/
def State.attempt (v : Byte) (s : State) : TxAnswer × State :=
  match s.trySend v with
  | (.ok, s') => (.ok, s'.afterSend)
  | (.wouldBlock, s') => (.wouldBlock, s')
  | (.err e, s') => (.err e, s'.abort e)

/-- R84: the drain read, one receive attempt where there is a receive side and nothing at all where there is
none. -/
def State.drain (s : State) : State := if s.cfg.hasRx then s.tryRecv.afterDrain else s

/-- How the functional form of an operation comes out: its last state with `Ok`, the state after the abort with
`Err(e)`, or no end at all. -/
inductive Flow where
  | ok (s : State)
  | err (e : ErrTag) (s : State)
  | never
  deriving DecidableEq, Repr

/-- Go on only after `Ok`: "x <- ...; if x = Err(e) then return Err(e)" (R85, R100, R110 to R113). -/
def Flow.andThen (f : Flow) (next : State → Flow) : Flow :=
  match f with
  | .ok s => next s
  | .err e s => .err e s
  | .never => .never

/-- R83's loop, for at most `n` attempts. -/
def State.sendWithin : Nat → Byte → State → Flow
  | 0, _, _ => .never
  | n + 1, v, s =>
    match s.attempt v with
    | (.ok, s') => .ok s'
    | (.err e, s') => .err e s'
    | (.wouldBlock, s') => s'.sendWithin n v

/-- R83 `SEND v`. One attempt for every scripted answer and one more tell whether it ever returns: past the
script every answer is the same, so if that one is `WouldBlock` the loop never ends (R172). -/
def State.sendByte (v : Byte) (s : State) : Flow := s.sendWithin (s.tx.answers.length + 1) v

/-- What an operation answers: the next state with its result, also after an abort, which is a result and no
fault (R150); and the named stop where it never ends. -/
def Flow.answer (f : Flow) : Host.Outcome State Fault Refusal :=
  match f with
  | .ok s => .next { s with ret := .ok }
  | .err e s => .next { s with ret := .err e }
  | .never => .fault .neverEnds

end Sys2Proof.Machine
end

