-- ==== Sys2Proof/Machine/Encoder.lean ====
section
/-! DEFINITION. The Symbol Encoder (spec/40_symbol_encoder.md): SYM0, SYM1, T, SEND, DRAIN and ENCODE, each in
its functional form. An operation's returned result goes to the ghost `ret`. -/

namespace Sys2Proof.Machine

/-- SYM0 (R61): the carrier symbol of a logical 0; no state, no interface. That a symbol is performed as an operation of
its own, returning its pattern and putting nothing on the wire, is the model's choice: the table has a row for it (R67),
but R17's operations do not include it (DESIGN CHOICE, notes/assumptions/18.md). -/
def execSym0 (s : State) : Host.Outcome State Fault Refusal :=
  .next { s with ret := .symbol (symbolOf false) }

/-- SYM1 (R61): the carrier symbol of a logical 1; no state, no interface. As an operation of its own, the model's
choice, as SYM0 is (DESIGN CHOICE, notes/assumptions/18.md). -/
def execSym1 (s : State) : Host.Outcome State Fault Refusal :=
  .next { s with ret := .symbol (symbolOf true) }

/-- T (R80): the symbol triplet of a channel byte. "State written: none by `T` itself"; it cannot fail. -/
def execT (b : Byte) (s : State) : Host.Outcome State Fault Refusal :=
  .next { s with ret := .triplet (tripletOf b) }

/-- SEND (R83). -/
def execSend (v : Byte) (s : State) : Host.Outcome State Fault Refusal := (s.sendByte v).answer

/-- DRAIN (R84): it has no result and cannot fail. -/
def execDrain (s : State) : Host.Outcome State Fault Refusal := .next { s.drain with ret := .nothing }

/-- R85's pseudocode: `ACC <- T(b)`, then the three bytes of the accumulator, with a drain after bytes 0 and 1
and none after byte 2. -/
def State.encodeByte (b : Byte) (s : State) : Flow :=
  (((s.loadAcc (tripletOf b)).sendByte (tripletByte (tripletOf b) 0)).andThen fun s1 =>
    (s1.drain.sendByte (tripletByte (tripletOf b) 1)).andThen fun s2 =>
      s2.drain.sendByte (tripletByte (tripletOf b) 2))

/-- ENCODE (R85). -/
def execEncode (b : Byte) (s : State) : Host.Outcome State Fault Refusal := (s.encodeByte b).answer

end Sys2Proof.Machine
end

