-- ==== Sys2Proof/Machine/Flush.lean ====
section
/-! DEFINITION. FLUSH (spec/41_flush.md R100): the idle-low period, one routine for both variants (R103). -/

namespace Sys2Proof.Machine

/-- R100's loop: `n` times SEND `0x00`, DRAIN, stopping at the first send that fails. -/
def State.flushBytes : Nat → State → Flow
  | 0, s => .ok s
  | n + 1, s => (s.sendByte flushByte).andThen fun s1 => s1.drain.flushBytes n

/-- R100: `FLUSH_LEN` zero bytes, each followed by a drain, the last one included. -/
def State.flush (s : State) : Flow := s.flushBytes Config.flushLen

/-- FLUSH (R100). -/
def execFlush (s : State) : Host.Outcome State Fault Refusal := s.flush.answer

end Sys2Proof.Machine
end

