-- ==== Sys2Proof/Machine/StripWriter.lean ====
section
/-! DEFINITION. The Strip Writer in its functional form (spec/42_strip_writer.md R110 to R113): PIXEL.GRB,
PIXEL.GRBW, WRITE.GRB and WRITE.GRBW. -/

namespace Sys2Proof.Machine

/-- ENCODE each byte in turn, stopping at the first failure (R110, R111). -/
def State.encodeAll : List Byte → State → Flow
  | [], s => .ok s
  | b :: rest, s => (s.encodeByte b).andThen fun s1 => s1.encodeAll rest

/-- PIXEL.GRB (R110): green, red, blue. The instance must be a `GRB3` one. -/
def execPixelGrb (r g b : Byte) (s : State) : Host.Outcome State Fault Refusal :=
  if s.cfg.variant = .grb3 then (s.encodeAll (pixelBytes3 r g b)).answer else .refused .notOfThisVariant

/-- PIXEL.GRBW (R111): green, red, blue, white. The instance must be a `GRBW4` one. -/
def execPixelGrbw (r g b w : Byte) (s : State) : Host.Outcome State Fault Refusal :=
  if s.cfg.variant = .grbw4 then (s.encodeAll (pixelBytes4 r g b w)).answer else .refused .notOfThisVariant

/-- Steps 2 and 3 of R112 and R113, for at most `n` pulls: a color pulled goes into `PIX` and is transmitted,
and once the source is exhausted comes the final flush. -/
def State.writeLoop : Nat → State → Flow
  | 0, _ => .never
  | n + 1, s =>
    match s.nextColor with
    | (none, s1) => s1.enterFinalFlush.flush
    | (some t, s1) => ((s1.loadPix t).encodeAll (colorBytes t)).andThen fun s2 => s2.writeLoop n

/-- R112, R113 after an accepted `Start`: the optional pre-flush (step 1), then the colors and the final flush.
The source is finite, so one pull for every color and one more are all there are (R41). -/
def State.writeAll (s : State) : Flow :=
  if s.cfg.idleHigh then s.flush.andThen fun s1 => s1.writeLoop (s1.colors.colors.length + 1)
  else s.writeLoop (s.colors.colors.length + 1)

/-- WRITE of either variant, from an idle block (R120), with a finite source of the colors given. -/
def State.write (v : Variant) (cs : List Color) (s : State) : Host.Outcome State Fault Refusal :=
  if s.cfg.variant ≠ v then .refused .notOfThisVariant
  else if s.busy then .refused .busy
  else (s.acceptStart ⟨cs, none⟩).writeAll.answer

/-- WRITE.GRB (R112). -/
def execWriteGrb (colors : List Rgb) (s : State) : Host.Outcome State Fault Refusal :=
  s.write .grb3 (colors.map Color.rgb)

/-- WRITE.GRBW (R113). -/
def execWriteGrbw (colors : List Rgbw) (s : State) : Host.Outcome State Fault Refusal :=
  s.write .grbw4 (colors.map Color.rgbw)

end Sys2Proof.Machine
end

