-- ==== Sys2Proof/Machine/Dispatch.lean ====
section
/-! DEFINITION. One arm per operation of spec/opcode_table.json. -/

namespace Sys2Proof.Machine

def exec (i : Instr) (s : State) : Host.Outcome State Fault Refusal :=
  match i with
  | .sym0 => Sys2Proof.Machine.execSym0 s
  | .sym1 => Sys2Proof.Machine.execSym1 s
  | .t b => Sys2Proof.Machine.execT b s
  | .encode b => Sys2Proof.Machine.execEncode b s
  | .send v => Sys2Proof.Machine.execSend v s
  | .drain => Sys2Proof.Machine.execDrain s
  | .flush => Sys2Proof.Machine.execFlush s
  | .pixelGrb r g b => Sys2Proof.Machine.execPixelGrb r g b s
  | .pixelGrbw r g b w => Sys2Proof.Machine.execPixelGrbw r g b w s
  | .writeGrb colors => Sys2Proof.Machine.execWriteGrb colors s
  | .writeGrbw colors => Sys2Proof.Machine.execWriteGrbw colors s

end Sys2Proof.Machine
end

