-- ==== Sys2Proof/Machine/Sequencer.lean ====
section
/-! DEFINITION. The step form (spec/42_strip_writer.md R120 to R130): one transition of the sequencer per
position of `SEQ`, at most one interface interaction each, and what a host move does. -/

namespace Sys2Proof.Machine

/-- R125: the step at `FETCH`. -/
def State.stepFetch (s : State) : Host.Outcome State Fault Refusal :=
  match s.nextColor with
  | (none, s1) => .next s1.enterFinalFlush
  | (some t, s1) => if variantOf t = s.cfg.variant then .next (s1.loadPix t) else .refused .tupleOfOtherVariant

/-- R126: the step at `ENC(c)`, `ACC <- T(PIX[ORDER[c]])`. -/
def State.stepEnc (c : Fin 4) (s : State) : Host.Outcome State Fault Refusal :=
  match (orderAt s.cfg.variant c).bind fun ch => s.readPix ch with
  | none => .fault .noSuchChannel
  | some b => .next (s.loadAcc (tripletOf b))

/-- R127: the step at `SYM_SEND(c,j)`, one `TrySend` of byte `j` of `ACC`. -/
def State.stepSymSend (j : Fin 3) (s : State) : Host.Outcome State Fault Refusal :=
  .next (s.attempt (tripletByte s.readAcc j)).2

/-- R121: the step at `FL_SEND(w,k)`, one `TrySend(0x00)`. -/
def State.stepFlSend (s : State) : Host.Outcome State Fault Refusal := .next (s.attempt flushByte).2

/-- R122, R128: the step at a `..._DRAIN` position, one `TryRecv()` whose answer is discarded. -/
def State.stepDrain (s : State) : Host.Outcome State Fault Refusal := .next s.tryRecv.afterDrain

/-- The block's own step (R130): at `IDLE` it has none and the state stays; elsewhere the one rule of the
position; at a position the instance does not have, a refusal. -/
def State.stepOwn (s : State) : Host.Outcome State Fault Refusal :=
  if s.seq.existsIn s.cfg then
    match s.seq with
    | .idle => .next s
    | .flSend _ _ => s.stepFlSend
    | .flDrain _ _ => s.stepDrain
    | .fetch => s.stepFetch
    | .enc c => s.stepEnc c
    | .symSend _ j => s.stepSymSend j
    | .symDrain _ _ => s.stepDrain
  else .refused .noSuchPosition

/-- R120: the `Start` event, accepted only at `IDLE`; there is no such transition elsewhere. -/
def State.stepStart (source : ColorSource) (s : State) : Host.Outcome State Fault Refusal :=
  if s.busy then .refused .busy else .next (s.acceptStart source)

/-- What the next step of the state is: the host move at the head of the queue (none left: no move), and the
state with the move taken. -/
def State.takeMove (s : State) : HostMove × State :=
  match s.host with
  | [] => (.quiet, s)
  | m :: rest => (m, { s with host := rest })

/-- The operation a bench move asks for: nothing preempts a WRITE (R143), and bytes that are no encoding are
refused by name. -/
def State.benchInstr (f : Format) (bytes : List Byte) (s : State) : Except Refusal Instr :=
  if s.busy then .error .busy
  else
    match decode f bytes with
    | .ok i => .ok i
    | .error e => .error (.notAnEncoding e)

/-- R71: a launch, an instance at reset whose host makes `Start` with a color source, and its environment. -/
def State.launch (cfg : Cfg) (source : ColorSource) (tx : Script TxAnswer) (rx : Script RxAnswer) : State :=
  { State.reset with cfg := cfg, host := [.start source], tx := tx, rx := rx }

/-- The configuration of an instance that has the operations of a format (R60): the variant a pixel or a frame
belongs to, and a frame's `IDLE_HIGH`. -/
def cfgForFormat (cfg : Cfg) : Format → Cfg
  | .sym => cfg
  | .triplet => cfg
  | .byte => cfg
  | .empty => cfg
  | .flushf => cfg
  | .pixel3 => { cfg with variant := .grb3 }
  | .pixel4 => { cfg with variant := .grbw4 }
  | .frame v ih => { cfg with variant := v, idleHigh := ih }

/-- The state with a bench operation as its next host move, on an idle instance that has the operation. -/
def State.withBenchMove (f : Format) (bytes : List Byte) (s : State) : State :=
  { s with host := .perform f bytes :: s.host, seq := .idle, cfg := cfgForFormat s.cfg f }

end Sys2Proof.Machine
end

