-- ==== Sys2Proof/Machine/Step.lean ====
section
/-! DEFINITION. One step of the machine: the next host move, and where there is none the block's own step. -/

namespace Sys2Proof.Machine

/-- One step (spec/00_scope.md R7): hardware reset (R165), `Start` (R120), a bench operation performed through
`exec`, or, when the host makes no move, the block's own transition (R121 to R129). -/
def step (s : State) : Host.Outcome State Fault Refusal :=
  match s.takeMove with
  | (.quiet, s1) => s1.stepOwn
  | (.start source, s1) => s1.stepStart source
  | (.reset, s1) => .next s1.hwReset
  | (.perform f bytes, s1) =>
    match s1.benchInstr f bytes with
    | .ok i => exec i s1
    | .error r => .refused r

/-- The state whose very next step performs the operation of a table word: the block fetches no instructions
(R55), so the word goes to the bench (notes/assumptions/5.md), on an idle instance that has the operation. -/
def State.withFetchWord (s : State) (nbits w : Nat) : State :=
  s.withBenchMove (tableFormat nbits w) (tableBytes nbits w)

end Sys2Proof.Machine
end

