-- ==== Sys2Proof/Safety.lean ====
section
/-! DEFINITION. The terms the claims are stated in: what a trace says (spec/00_scope.md R15), what a script of
answers says about one offered byte (spec/42_strip_writer.md R115), the bytes and drains an operation is to
produce (spec/40_symbol_encoder.md R86, spec/41_flush.md R101), the frame (spec/30_encoding.md R66), and the
invariant of the block (spec/10_state.md R24, R29). No step of the machine uses anything of this file. -/

namespace Sys2Proof.Machine

/-! ### Reading a trace (R15) -/

/-- `WIRE`: the bytes answered `Ok`, in order. -/
def wireOf (tr : List Event) : List Byte :=
  tr.filterMap fun ev => match ev with
    | .tx b => some b
    | .txwb _ => none
    | .txerr _ _ => none
    | .rx => none
    | .pull _ => none
    | .pullEnd => none
    | .done _ => none

/-- The colors pulled, in order. -/
def pulledOf (tr : List Event) : List Color :=
  tr.filterMap fun ev => match ev with
    | .tx _ => none
    | .txwb _ => none
    | .txerr _ _ => none
    | .rx => none
    | .pull c => some c
    | .pullEnd => none
    | .done _ => none

/-- The results delivered, in order. -/
def deliveredOf (tr : List Event) : List Delivered :=
  tr.filterMap fun ev => match ev with
    | .tx _ => none
    | .txwb _ => none
    | .txerr _ _ => none
    | .rx => none
    | .pull _ => none
    | .pullEnd => none
    | .done r => some r

/-- The receive attempts. -/
def rxCount (tr : List Event) : Nat := tr.count .rx

/-- How often the source answered that it is exhausted. -/
def endCount (tr : List Event) : Nat := tr.count .pullEnd

/-- An event that R86's and R101's tables list: no retry, no delivery. -/
def Event.listed : Event → Bool
  | .tx _ => true
  | .txwb _ => false
  | .txerr _ _ => true
  | .rx => true
  | .pull _ => true
  | .pullEnd => true
  | .done _ => false

/-- The trace as R86's and R101's tables write it: without the retries and without the delivery. -/
def ioOf (tr : List Event) : List Event := tr.filter Event.listed

/-! ### Reading a script (R115) -/

/-- What offer number `n` is finally answered, retries of one byte being one offer: `Ok`, `Err(e)`, or
`WouldBlock`, which here means for ever. -/
def offer (q : Script TxAnswer) (n : Nat) : TxAnswer :=
  (q.answers.filter (· != .wouldBlock))[n]?.getD q.after

/-- How one byte fares: how many times it is answered `WouldBlock` first, what it is answered then, and the script
after that; nothing if it is answered `WouldBlock` for ever. -/
def settle (q : Script TxAnswer) : Option (Nat × TxAnswer × Script TxAnswer) :=
  match q.answers.dropWhile (· == .wouldBlock) with
  | a :: rest => some ((q.answers.takeWhile (· == .wouldBlock)).length, a, { q with answers := rest })
  | [] => if q.after = .wouldBlock then none else some (q.answers.length, q.after, { q with answers := [] })

/-- A script without its retries. -/
def withoutRetries (q : Script TxAnswer) : Script TxAnswer :=
  { q with answers := q.answers.filter (· != .wouldBlock) }

/-! ### What an operation is to produce -/

/-- Bytes to send, each with whether a drain follows it. -/
abbrev Plan := List (Byte × Bool)

/-- R86: the three bytes of `T(b)`, a drain after the first two. -/
def encodePlan (b : Byte) : Plan := (encodeTriplet b).zip [true, true, false]

/-- R101: twenty bytes `0x00`, a drain after each. -/
def flushPlan : Plan := encodeFlush.map fun b => (b, true)

/-- R110, R111: the channels' plans in transmission order. -/
def pixelPlan : Color → Plan
  | .rgb c => encodePlan c.g ++ encodePlan c.r ++ encodePlan c.b
  | .rgbw c => encodePlan c.g ++ encodePlan c.r ++ encodePlan c.b ++ encodePlan c.w

/-- The listed events of a plan carried out in full. -/
def planIo (hasRx : Bool) (p : Plan) : List Event :=
  p.flatMap fun x => if hasRx && x.2 then [.tx x.1, .rx] else [.tx x.1]

/-- The wire bytes of one pixel (R64). -/
def pixelWire : Color → List Byte
  | .rgb c => encodePixel3 c.r c.g c.b
  | .rgbw c => encodePixel4 c.r c.g c.b c.w

/-- R66: the frame of a list of colors. -/
def frameOf (cfg : Cfg) (cs : List Color) : List Byte := encodeFrame cfg.idleHigh (cs.flatMap pixelWire)

/-- R115's `20P`: the length of the pre-flush. -/
def preLength (cfg : Cfg) : Nat := if cfg.idleHigh then 20 else 0

/-- R115: how many colors have been pulled when offer number `n` of a frame of `total` colors fails. -/
def pulledBefore (cfg : Cfg) (total n : Nat) : Nat :=
  if n < preLength cfg then 0
  else if n < preLength cfg + 3 * chCount cfg.variant * total then
    (n - preLength cfg) / (3 * chCount cfg.variant) + 1
  else total

/-! ### The invariant of the block -/

/-- Every color a source yields is a tuple of the variant (R41, R170). -/
def ColorSource.fits (v : Variant) (c : ColorSource) : Bool :=
  c.colors.all (fun t => variantOf t == v) && c.endless.all (fun t => variantOf t == v)

/-- Every source the host will hand over yields tuples of the variant (R170). -/
def HostMove.fits (v : Variant) : HostMove → Bool
  | .quiet => true
  | .start source => source.fits v
  | .reset => true
  | .perform _ _ => true

/-- `PIX` holds no tuple of the other variant (R22). -/
def State.pixFits (s : State) : Bool :=
  match s.pix with
  | .unwritten => true
  | .holds t => variantOf t == s.cfg.variant

/-- The channel byte at channel position `c`, `PIX[ORDER[c]]`, where `PIX` has been written. -/
def State.channelByte (s : State) (c : Fin 4) : Option Byte :=
  match s.pix with
  | .unwritten => none
  | .holds t => (orderAt s.cfg.variant c).bind (channelOf t)

/-- `ACC = T(PIX[ORDER[c]])` (R29). -/
def State.accInStep (s : State) (c : Fin 4) : Bool :=
  match s.channelByte c with
  | none => false
  | some b => s.acc == .holds (tripletOf b)

/-- R29: what a position reads has been written; at `SYM_SEND(c,j)` and `SYM_DRAIN(c,j)`,
`ACC = T(PIX[ORDER[c]])`. -/
def State.dataReady (s : State) : Bool :=
  match s.seq with
  | .idle => true
  | .flSend _ _ => true
  | .flDrain _ _ => true
  | .fetch => true
  | .enc c => (s.channelByte c).isSome
  | .symSend c _ => s.accInStep c
  | .symDrain c _ => s.accInStep c

/-- The invariant: `SEQ` at a position of the instance (R24, R130), registers written before they are read (R22,
R29), `RES = NONE` while busy (R23, R120), and only tuples of the variant to come (R170). -/
def State.inv (s : State) : Bool :=
  s.seq.existsIn s.cfg && s.pixFits && s.dataReady && (!s.busy || s.res == .none)
    && s.colors.fits s.cfg.variant && s.host.all (fun m => m.fits s.cfg.variant)

/-- The host keeps R170's calling discipline at this step: no `Start` while the block
is busy, and none of the test bench's moves, which are no events of the hardware. -/
def State.disciplined (s : State) : Bool :=
  match s.takeMove.1 with
  | .quiet => true
  | .start _ => !s.busy
  | .reset => true
  | .perform _ _ => false

/-- The byte a position offers: `0x00` at `FL_SEND(w,k)` (R121), byte `j` of `ACC` at `SYM_SEND(c,j)` (R127), none
elsewhere. -/
def State.offeredByte (s : State) : Option Byte :=
  match s.seq with
  | .flSend _ _ => some 0x00#8
  | .symSend _ j =>
    [s.readAcc.extractLsb' 16 8, s.readAcc.extractLsb' 8 8, s.readAcc.extractLsb' 0 8][j.val]?
  | .idle => none
  | .flDrain _ _ => none
  | .fetch => none
  | .enc _ => none
  | .symDrain _ _ => none

/-- The number of bytes an encoding of the format may have (R60, R66, R67). -/
def formatHasLength (f : Format) (n : Nat) : Prop :=
  match f with
  | .sym => n = 1
  | .triplet => n = 3
  | .byte => n = 1
  | .empty => n = 0
  | .flushf => n = 20
  | .pixel3 => n = 9
  | .pixel4 => n = 12
  | .frame v idleHigh => ∃ k : Nat, n = 3 * chCount v * k + 20 + (if idleHigh then 20 else 0)

/-! ### Comparing two machines -/

/-- Two states that differ at most in what the peripheral will answer to `TryRecv`. -/
abbrev sameButRx (s t : State) : Prop := { s with rx := t.rx } = t

/-- Two outcomes of one kind: next states that `rel` relates, the same fault, or the same refusal. -/
def outcomesAgree (rel : State → State → Prop) :
    Host.Outcome State Fault Refusal → Host.Outcome State Fault Refusal → Prop
  | .next a, .next b => rel a b
  | .fault f, .fault g => f = g
  | .refused f, .refused g => f = g
  | _, _ => False

/-- Two states that agree in the wire, the colors pulled and the result (R115). -/
def sameResult (s t : State) : Prop :=
  wireOf s.trace = wireOf t.trace ∧ pulledOf s.trace = pulledOf t.trace ∧ s.res = t.res

/-- The variant and the colors of an operation that is a WRITE (R112, R113). -/
def writesOf : Instr → Option (Variant × List Color)
  | .sym0 => none
  | .sym1 => none
  | .t _ => none
  | .encode _ => none
  | .send _ => none
  | .drain => none
  | .flush => none
  | .pixelGrb _ _ _ => none
  | .pixelGrbw _ _ _ _ => none
  | .writeGrb cs => some (.grb3, cs.map Color.rgb)
  | .writeGrbw cs => some (.grbw4, cs.map Color.rgbw)

/-- Where `SEQ` stands after an operation on one channel that succeeded: past the channel if it was performed at
`ENC(c)` (R129), and where it was if it was performed in isolation. -/
def State.pastChannel (s : State) : Seq :=
  match s.seq with
  | .enc c => (s.afterSym c 2).seq
  | .idle => .idle
  | .flSend w k => .flSend w k
  | .flDrain w k => .flDrain w k
  | .fetch => .fetch
  | .symSend c j => .symSend c j
  | .symDrain c j => .symDrain c j

/-- The answer to every offer before number `n` is `Ok`. -/
abbrev okBefore (q : Script TxAnswer) (n : Nat) : Prop := ∀ m < n, offer q m = .ok

end Sys2Proof.Machine
end

