-- ==== Sys2Proof/Certificates/Slice0/Obligations.lean ====
section
/-! DEFINITION. The statements about the block, each from the rules of the spec that its docstring names. -/

open Sys2Proof Sys2Proof.Machine

/-! ### Encodings -/

/-- R61: SYM0 and SYM1 are the patterns `100` and `110`, bit 2 always one, bit 1 the data bit, bit 0 always zero;
as operations they change nothing but the value returned. That a symbol is an operation of its own, returning its
pattern and putting nothing on the wire, is the model's choice (DESIGN CHOICE, notes/assumptions/18.md). -/
def Obligations.SymbolsReturnTheirPattern : Prop :=
  ∀ s : State,
    exec .sym0 s = .next { s with ret := .symbol 0b100#3 } ∧
    exec .sym1 s = .next { s with ret := .symbol 0b110#3 } ∧
    ∀ d : Bool, (symbolOf d).getLsbD 2 = true ∧ (symbolOf d).getLsbD 1 = d ∧ (symbolOf d).getLsbD 0 = false ∧
      symbolOf d = 0b100#3 ||| ((BitVec.ofBool d).zeroExtend 3 <<< 1)

/-- R80: `T b` returns the triplet and writes no state (the `ENC(c)` step is what writes it into `ACC`); the three
forms of the triplet are equal; it is injective; and the corner cases and the example the rule lists. -/
def Obligations.TripletOfEveryChannelByte : Prop :=
  (∀ (b : Byte) (s : State), exec (.t b) s = .next { s with ret := .triplet (tripletOf b) }) ∧
  (∀ b : Byte, tripletOf b =
    symbolOf (b.getLsbD 7) ++ symbolOf (b.getLsbD 6) ++ symbolOf (b.getLsbD 5) ++ symbolOf (b.getLsbD 4)
      ++ symbolOf (b.getLsbD 3) ++ symbolOf (b.getLsbD 2) ++ symbolOf (b.getLsbD 1) ++ symbolOf (b.getLsbD 0)) ∧
  (∀ (b : Byte) (i : Fin 8), (tripletOf b).getLsbD (3 * i.val + 2) = true ∧
    (tripletOf b).getLsbD (3 * i.val + 1) = b.getLsbD i.val ∧ (tripletOf b).getLsbD (3 * i.val) = false) ∧
  (∀ b : Byte, (tripletOf b).toNat =
    0x924924 + 2 * ((List.range 8).map fun i => (b.getLsbD i).toNat * 8 ^ i).sum) ∧
  (∀ a b : Byte, tripletOf a = tripletOf b → a = b) ∧
  (∀ (s s1 : State) (c : Fin 4) (p : Color) (b : Byte), s.takeMove = (.quiet, s1) → s1.seq = .enc c →
    s1.pix = .holds p → variantOf p = s1.cfg.variant → (colorBytes p)[c.val]? = some b →
    ∃ t : State, step s = .next t ∧ t.acc = .holds (tripletOf b)) ∧
  tripletOf 0x00#8 = 0x924924#24 ∧ tripletOf 0xFF#8 = 0xDB6DB6#24 ∧ tripletOf 0x80#8 = 0xD24924#24 ∧
  tripletOf 0x01#8 = 0x924926#24 ∧ tripletOf 0xA5#8 = 0xD349A6#24 ∧
  (List.range 3).map (fun j => (tripletOf 0x00#8).extractLsb' (16 - 8 * j) 8) = [0x92#8, 0x49#8, 0x24#8] ∧
  (List.range 3).map (fun j => (tripletOf 0xFF#8).extractLsb' (16 - 8 * j) 8) = [0xDB#8, 0x6D#8, 0xB6#8] ∧
  (List.range 3).map (fun j => (tripletOf 0xA5#8).extractLsb' (16 - 8 * j) 8) = [0xD3#8, 0x49#8, 0xA6#8]

/-- R81: the source's loop from a zero accumulator: after the first `n` of the eight iterations (data bits 7 down)
the low `3n` bits hold the symbols so far and the bits above are zero, and after all eight it is `T(b)`. The zero start
is the spec's own inference: R81 marks it [derived]. -/
def Obligations.LoopBuildsTheTriplet : Prop :=
  (∀ (b : Byte) (n : Fin 9), tripletLoop ((bitsOf b).take n.val) = tripletOf b >>> (24 - 3 * n.val)) ∧
  (∀ b : Byte, tripletLoop (bitsOf b) = tripletOf b) ∧
  (List.range 9).map (fun n => tripletLoop ((bitsOf 0xA5#8).take n)) =
    [0x000000#24, 0x000006#24, 0x000034#24, 0x0001A6#24, 0x000D34#24, 0x0069A4#24, 0x034D26#24, 0x1A6934#24,
      0xD349A6#24]

/-- R82, which the spec marks [derived: from rule R80]: nothing is shifted out and the OR never collides; a 32-bit
accumulator gives the same bits; the laws of `T`; the extraction of its bytes. -/
def Obligations.TripletLaws : Prop :=
  (∀ (b : Byte) (n : Fin 8), (tripletLoop ((bitsOf b).take n.val)).toNat < 2 ^ 21) ∧
  (∀ (acc : Triplet) (d : Bool), appendSymbol acc d = (acc <<< 3) + (symbolOf d).zeroExtend 24) ∧
  (∀ b : Byte, (bitsOf b).foldl (fun (acc : BitVec 32) d => (acc <<< 3) ||| (symbolOf d).zeroExtend 32) 0#32 =
    (tripletOf b).zeroExtend 32) ∧
  (∀ a : Byte, tripletOf a &&& 0xB6DB6D#24 = 0x924924#24 ∧ tripletOf (a ^^^ 0xFF#8) = tripletOf a ^^^ 0x492492#24) ∧
  (∀ a b : Byte, tripletOf (a ||| b) = tripletOf a ||| tripletOf b ∧
    tripletOf (a &&& b) = tripletOf a &&& tripletOf b ∧
    (a.toNat < b.toNat ↔ (tripletOf a).toNat < (tripletOf b).toNat) ∧ (tripletOf a = tripletOf b → a = b)) ∧
  (∀ (b : Byte) (j : Fin 3), (tripletByte (tripletOf b) j).toNat = (tripletOf b).toNat / 2 ^ (16 - 8 * j.val) % 256)

/-- R62, R63: where each data bit stands, the masks over 24 bits and over each byte, and that the values `v` with
`v & 0xB6DB6D = 0x924924` are exactly the triplets, from which the channel byte is recovered bit by bit. The spec
marks these forms [derived]. -/
def Obligations.LegalTripletsAreTheTriplets : Prop :=
  (∀ (b : Byte) (i : Fin 8), (tripletBits b).getLsbD (3 * i.val + 2) = true ∧
    (tripletBits b).getLsbD (3 * i.val + 1) = b.getLsbD i.val ∧ (tripletBits b).getLsbD (3 * i.val) = false) ∧
  (∀ b : Byte, tripletBits b &&& 0x924924#24 = 0x924924#24 ∧ tripletBits b &&& 0x249249#24 = 0#24 ∧
    tripletByte (tripletBits b) 0 &&& 0x92#8 = 0x92#8 ∧ tripletByte (tripletBits b) 0 &&& 0x24#8 = 0#8 ∧
    tripletByte (tripletBits b) 1 &&& 0x49#8 = 0x49#8 ∧ tripletByte (tripletBits b) 1 &&& 0x92#8 = 0#8 ∧
    tripletByte (tripletBits b) 2 &&& 0x24#8 = 0x24#8 ∧ tripletByte (tripletBits b) 2 &&& 0x49#8 = 0#8) ∧
  (∀ b : Byte,
    (tripletByte (tripletBits b) 0).getLsbD 6 = b.getLsbD 7 ∧ (tripletByte (tripletBits b) 0).getLsbD 3 = b.getLsbD 6 ∧
    (tripletByte (tripletBits b) 0).getLsbD 0 = b.getLsbD 5 ∧ (tripletByte (tripletBits b) 1).getLsbD 5 = b.getLsbD 4 ∧
    (tripletByte (tripletBits b) 1).getLsbD 2 = b.getLsbD 3 ∧ (tripletByte (tripletBits b) 2).getLsbD 7 = b.getLsbD 2 ∧
    (tripletByte (tripletBits b) 2).getLsbD 4 = b.getLsbD 1 ∧ (tripletByte (tripletBits b) 2).getLsbD 1 = b.getLsbD 0) ∧
  (∀ b : Byte, recoverByte (tripletBits b) = b) ∧
  (∀ (v : Triplet) (i : Fin 8), (recoverByte v).getLsbD i.val = v.getLsbD (3 * i.val + 1)) ∧
  (∀ v : Triplet, v &&& 0xB6DB6D#24 = 0x924924#24 ↔ ∃ b : Byte, v = tripletBits b) ∧
  (∀ v : Triplet, v &&& 0xB6DB6D#24 = 0x924924#24 → tripletBits (recoverByte v) = v) ∧
  (∀ a b : Byte, tripletBits a = tripletBits b → a = b) ∧
  (∀ b : Byte, tripletOf b = tripletBits b)

/-- R62 to R66: decoding the encoding of an operation of the instance gives the operation back, every operand at
every value, but for `T b`, whose pattern is ENCODE's (R67): there it gives `ENCODE b`. That this pattern is read as
ENCODE, and that a symbol stands in one byte, are the model's choices (DESIGN CHOICE, notes/assumptions/10.md). -/
def Obligations.DecodeInvertsEncode : Prop :=
  ∀ (cfg : Cfg) (i : Instr), WellFormed cfg i = true → decode (i.format cfg) (encode cfg i) = .ok i.canonical

/-- The other direction of R62 to R66: bytes that decode in a format are the encoding of what they decode to, for
an instance that has the format. The last conjunct, that a triplet is never read as `T`, and the byte of a symbol are
the model's choices (DESIGN CHOICE, notes/assumptions/10.md). -/
def Obligations.EncodeInvertsDecode : Prop :=
  ∀ (cfg : Cfg) (f : Format) (bs : List Byte) (i : Instr), decode f bs = .ok i →
    encode (cfgForFormat cfg f) i = bs ∧ i.format (cfgForFormat cfg f) = f ∧
    WellFormed (cfgForFormat cfg f) i = true ∧ i.canonical = i

/-- Words written out from R61 to R67 and from S2, S3, S5 and S6 of spec/95_test_vectors.md decode to the
operations they stand for. That a symbol stands in the low three bits of a byte, and that the pattern `T` and ENCODE
share is read as ENCODE, are the model's choices (DESIGN CHOICE, notes/assumptions/10.md). -/
def Obligations.DecoderReadsWrittenWords : Prop :=
  decode .sym [0b100#8] = .ok .sym0 ∧ decode .sym [0b110#8] = .ok .sym1 ∧
  decode .triplet [0b10010010#8, 0b01001001#8, 0b00100100#8] = .ok (.encode 0x00#8) ∧
  decode .triplet [0b11011011#8, 0b01101101#8, 0b10110110#8] = .ok (.encode 0xFF#8) ∧
  decode .byte [0x92#8] = .ok (.send 0x92#8) ∧ decode .empty [] = .ok .drain ∧
  decode .flushf [0, 0, 0, 0, 0, 0, 0, 0, 0, 0, 0, 0, 0, 0, 0, 0, 0, 0, 0, 0] = .ok .flush ∧
  decode .pixel3 [0x92, 0x49, 0x34, 0x92, 0x49, 0x26, 0x92, 0x49, 0x36] = .ok (.pixelGrb 1 2 3) ∧
  decode .pixel4 [0x92, 0x49, 0x34, 0x92, 0x49, 0x26, 0x92, 0x49, 0x36, 0x92, 0x49, 0xA4] =
    .ok (.pixelGrbw 1 2 3 4) ∧
  decode (.frame .grb3 false) ([0x92, 0x49, 0x34, 0x92, 0x49, 0x26, 0x92, 0x49, 0x36] ++ List.replicate 20 0) =
    .ok (.writeGrb [⟨1, 2, 3⟩]) ∧
  decode (.frame .grbw4 true) (List.replicate 40 0) = .ok (.writeGrbw [])

/-- R62, R65, R69: three bytes that are no legal triplet are refused by name, and so are a flush byte that is not
zero and a byte that is no symbol; R60, R66: bytes of a number that the format does not have are refused, in every
format, and as of the wrong length where the length is all that is wrong. The names of the refusals, and the byte a
symbol stands in, are the model's (notes/assumptions/10.md). -/
def Obligations.DecoderRefusesOtherPatterns : Prop :=
  (∀ b0 b1 b2 : Byte, ((b0 ++ b1 ++ b2 : Triplet) &&& 0xB6DB6D#24 ≠ 0x924924#24 ↔
    decode .triplet [b0, b1, b2] = .error .notATriplet)) ∧
  (∀ b : Byte, b ≠ 0b100#8 → b ≠ 0b110#8 → decode .sym [b] = .error .notASymbol) ∧
  (∀ (k : Nat) (b : Byte) (bs : List Byte), k < 20 → b ≠ 0x00#8 →
    decode .flushf (List.replicate k 0x00#8 ++ b :: bs) = .error .notAFlush) ∧
  (∀ (f : Format) (bs : List Byte), ¬ formatHasLength f bs.length → ∃ e : DecodeError, decode f bs = .error e) ∧
  (∀ bs : List Byte, bs.length ≠ 1 → decode .sym bs = .error .wrongLength ∧ decode .byte bs = .error .wrongLength) ∧
  (∀ bs : List Byte, bs ≠ [] → decode .empty bs = .error .wrongLength) ∧
  (∀ bs : List Byte, bs.length < 3 → decode .triplet bs = .error .wrongLength) ∧
  (∀ (b x : Byte) (bs : List Byte), decode .triplet (encodeTriplet b ++ x :: bs) = .error .wrongLength) ∧
  (∀ k : Nat, k ≠ 20 → decode .flushf (List.replicate k 0x00#8) = .error .wrongLength) ∧
  (∀ (r g b x : Byte) (bs : List Byte), decode .pixel3 (encodePixel3 r g b ++ x :: bs) = .error .wrongLength) ∧
  (∀ (r g b w x : Byte) (bs : List Byte), decode .pixel4 (encodePixel4 r g b w ++ x :: bs) = .error .wrongLength)

/-- R66, R115: byte `j` of the triplet of channel position `k` of pixel `m` (from 0) stands at offset
`20P + 3*CH_COUNT*m + 3k + j` of the frame, and the frame has `20P + 3*CH_COUNT*N + 20` bytes, of which the
first `20P` and the last 20 are zero. -/
def Obligations.FramePlacesEveryByte : Prop :=
  ∀ (cfg : Cfg) (cs : List Color), (∀ c ∈ cs, variantOf c = cfg.variant) →
    (frameOf cfg cs).length = preLength cfg + 3 * chCount cfg.variant * cs.length + 20 ∧
    (frameOf cfg cs).take (preLength cfg) = List.replicate (preLength cfg) 0x00#8 ∧
    (frameOf cfg cs).drop (preLength cfg + 3 * chCount cfg.variant * cs.length) = List.replicate 20 0x00#8 ∧
    ∀ (m k j : Nat) (c : Color) (b : Byte), cs[m]? = some c → (colorBytes c)[k]? = some b → j < 3 →
      (frameOf cfg cs)[preLength cfg + 3 * chCount cfg.variant * m + 3 * k + j]? = (encodeTriplet b)[j]?

/-! ### Steps: host moves -/

/-- A step runs the decoded operation (the model's bench, notes/assumptions/5.md): on an idle block, a bench move
whose bytes decode to `i` is `exec` of `i` on the state with the move taken; and `withFetchWord` places that
move for every table word the decoder reads. -/
def Obligations.StepPerformsTheDecodedOperation : Prop :=
  (∀ (s : State) (f : Format) (bs : List Byte) (rest : List HostMove) (i : Instr),
    s.host = .perform f bs :: rest → s.seq = .idle → decode f bs = .ok i →
    step s = exec i { s with host := rest }) ∧
  (∀ (s : State) (nbits w : Nat) (i : Instr), decodeTableWord nbits w = some i →
    step (s.withFetchWord nbits w) =
      exec i { s with seq := .idle, cfg := cfgForFormat s.cfg (tableFormat nbits w) })

/-- R120: `Start` at `IDLE` sets `RES` to `NONE` and `SEQ` to `FL_SEND(PRE,0)` if `IDLE_HIGH`, else to `FETCH`, and
changes neither `ACC` nor `PIX`; at any other position it is not accepted (R150: refused). That the start move carries
the color source is the model's choice (DESIGN CHOICE, notes/assumptions/9.md), and so are the name `busy` of the
refusal (DEDUCED, notes/assumptions/6.md) and that the trace goes on (DESIGN CHOICE, notes/assumptions/17.md). -/
def Obligations.StartBeginsAWrite : Prop :=
  ∀ (s s1 : State) (source : ColorSource), s.takeMove = (.start source, s1) →
    (s1.seq = .idle → step s = .next { s1 with
      res := .none, colors := source, seq := if s1.cfg.idleHigh = true then .flSend .pre 0 else .fetch }) ∧
    (s1.seq ≠ .idle → step s = .refused .busy)

/-- R165, R32: hardware reset from any state sets `SEQ = IDLE`, `RES = NONE`, `ACC` and `PIX` unwritten, empties
the ghost trace, and leaves `Cfg` and every interface alone; the state the machine starts in holds these values. That
the ghost result `ret` is emptied as well is the model's choice (DESIGN CHOICE, notes/assumptions/9.md), and so is its
counter of resets (DESIGN CHOICE, notes/assumptions/11.md). -/
def Obligations.HardwareReset : Prop :=
  (∀ s s1 : State, s.takeMove = (.reset, s1) → step s = .next { s1 with
    seq := .idle, res := .none, acc := .unwritten, pix := .unwritten, trace := [], ret := .nothing
    resets := s1.resets + 1 }) ∧
  State.reset.seq = .idle ∧ State.reset.res = .none ∧ State.reset.acc = .unwritten ∧
  State.reset.pix = .unwritten ∧ State.reset.trace = []

/-- R130, which the spec marks [derived]: at `IDLE` the block has no step of its own; with no host move the state
stays (and the move is taken). -/
def Obligations.IdleBlockWaits : Prop :=
  ∀ s s1 : State, s.takeMove = (.quiet, s1) → s1.seq = .idle → step s = .next s1

/-! ### Steps: the block's own transitions -/

/-- R121: the step at `FL_SEND(w,k)`, by the answer to `TrySend(0x00)`. -/
def Obligations.FlushSendStep : Prop :=
  ∀ (s s1 : State) (w : Which) (k : Fin 20), s.takeMove = (.quiet, s1) → s1.seq = .flSend w k →
    s1.seq.existsIn s1.cfg = true →
    step s = .next (match s1.tx.draw with
      | (.wouldBlock, q) => { s1 with tx := q, trace := s1.trace ++ [.txwb 0x00#8] }
      | (.ok, q) =>
        if s1.cfg.hasRx = true then
          { s1 with tx := q, trace := s1.trace ++ [.tx 0x00#8], seq := .flDrain w k }
        else ({ s1 with tx := q, trace := s1.trace ++ [.tx 0x00#8] } : State).afterFlush w k
      | (.err e, q) =>
        { s1 with tx := q, trace := s1.trace ++ [.txerr 0x00#8 e, .done (.err e)], seq := .idle, res := .err e })

/-- R122: the step at `FL_DRAIN(w,k)`, for the positions of the instance: one receive attempt, its answer discarded.
Of `FL_DRAIN(PRE,k)` on an instance without a pre-flush see MeaninglessStepsAreRefused. -/
def Obligations.FlushDrainStep : Prop :=
  ∀ (s s1 : State) (w : Which) (k : Fin 20), s.takeMove = (.quiet, s1) → s1.seq = .flDrain w k →
    s1.seq.existsIn s1.cfg = true →
    step s = .next (({ s1 with rx := s1.rx.draw.2, trace := s1.trace ++ [.rx] } : State).afterFlush w k)

/-- R123 (marked [derived] in the spec) and R124: `AfterFlush(w,k)`, with the effect of `Finish`. -/
def Obligations.AfterFlushPositions : Prop :=
  ∀ (s : State) (w : Which) (k : Fin 20),
    (∀ h : k.val < 19, s.afterFlush w k = { s with seq := .flSend w ⟨k.val + 1, by omega⟩ }) ∧
    (k.val = 19 → w = .pre → s.afterFlush w k = { s with seq := .fetch }) ∧
    (k.val = 19 → w = .post →
      s.afterFlush w k = { s with res := .ok, seq := .idle, trace := s.trace ++ [.done .ok] })

/-- R125: the step at `FETCH`, by the answer of the color source. -/
def Obligations.FetchStep : Prop :=
  ∀ s s1 : State, s.takeMove = (.quiet, s1) → s1.seq = .fetch →
    (∀ (t : Color) (q : ColorSource), s1.colors.draw = (some t, q) → variantOf t = s1.cfg.variant →
      step s = .next { s1 with colors := q, pix := .holds t, seq := .enc 0, trace := s1.trace ++ [.pull t] }) ∧
    (∀ q : ColorSource, s1.colors.draw = (none, q) →
      step s = .next { s1 with colors := q, seq := .flSend .post 0, trace := s1.trace ++ [.pullEnd] })

/-- R126: the step at `ENC(c)` loads `ACC` with the triplet of the channel in place `c` of the transmission order,
green, red, blue, and white. -/
def Obligations.EncodeStep : Prop :=
  ∀ (s s1 : State) (c : Fin 4), s.takeMove = (.quiet, s1) → s1.seq = .enc c →
    (∀ x : Rgb, s1.cfg.variant = .grb3 → s1.pix = .holds (.rgb x) → ∀ b : Byte, [x.g, x.r, x.b][c.val]? = some b →
      step s = .next { s1 with acc := .holds (tripletOf b), seq := .symSend c 0 }) ∧
    (∀ x : Rgbw, s1.cfg.variant = .grbw4 → s1.pix = .holds (.rgbw x) →
      ∀ b : Byte, [x.g, x.r, x.b, x.w][c.val]? = some b →
      step s = .next { s1 with acc := .holds (tripletOf b), seq := .symSend c 0 })

/-- R127: the step at `SYM_SEND(c,j)`, by the answer to `TrySend` of byte `j` of `ACC`. -/
def Obligations.SymbolSendStep : Prop :=
  ∀ (s s1 : State) (c : Fin 4) (j : Fin 3) (v : Triplet) (b : Byte), s.takeMove = (.quiet, s1) →
    s1.seq = .symSend c j → s1.seq.existsIn s1.cfg = true → s1.acc = .holds v →
    [v.extractLsb' 16 8, v.extractLsb' 8 8, v.extractLsb' 0 8][j.val]? = some b →
    step s = .next (match s1.tx.draw with
      | (.wouldBlock, q) => { s1 with tx := q, trace := s1.trace ++ [.txwb b] }
      | (.ok, q) =>
        if h : s1.cfg.hasRx = true ∧ j.val < 2 then
          { s1 with tx := q, trace := s1.trace ++ [.tx b], seq := .symDrain c ⟨j.val, h.2⟩ }
        else ({ s1 with tx := q, trace := s1.trace ++ [.tx b] } : State).afterSym c j
      | (.err e, q) =>
        { s1 with tx := q, trace := s1.trace ++ [.txerr b e, .done (.err e)], seq := .idle, res := .err e })

/-- R128: the step at `SYM_DRAIN(c,j)`: one receive attempt, its answer discarded. -/
def Obligations.SymbolDrainStep : Prop :=
  ∀ (s s1 : State) (c : Fin 4) (j : Fin 2), s.takeMove = (.quiet, s1) → s1.seq = .symDrain c j →
    s1.seq.existsIn s1.cfg = true →
    step s = .next
      (({ s1 with rx := s1.rx.draw.2, trace := s1.trace ++ [.rx] } : State).afterSym c ⟨j.val, by omega⟩)

/-- R126, R127, R130, R150 (3): a register that nothing has written since reset does not stop the block. `SYM_SEND(c,j)`
makes its step with an unwritten `ACC` as with a written one, and `ENC(c)` with an unwritten `PIX`. The spec gives such a
register no value, so what is read is a free value of the model (DESIGN CHOICE, notes/assumptions/11.md): the statement
holds whatever it is. No run gets there (NoRunReadsAnUnwrittenRegister). -/
def Obligations.UnwrittenRegistersDoNotStop : Prop :=
  (∀ (s s1 : State) (c : Fin 4) (j : Fin 3) (b : Byte), s.takeMove = (.quiet, s1) → s1.seq = .symSend c j →
    s1.seq.existsIn s1.cfg = true → s1.acc = .unwritten →
    [(Config.unwrittenAcc s1.resets).extractLsb' 16 8, (Config.unwrittenAcc s1.resets).extractLsb' 8 8,
      (Config.unwrittenAcc s1.resets).extractLsb' 0 8][j.val]? = some b →
    step s = .next (match s1.tx.draw with
      | (.wouldBlock, q) => { s1 with tx := q, trace := s1.trace ++ [.txwb b] }
      | (.ok, q) =>
        if h : s1.cfg.hasRx = true ∧ j.val < 2 then
          { s1 with tx := q, trace := s1.trace ++ [.tx b], seq := .symDrain c ⟨j.val, h.2⟩ }
        else ({ s1 with tx := q, trace := s1.trace ++ [.tx b] } : State).afterSym c j
      | (.err e, q) =>
        { s1 with tx := q, trace := s1.trace ++ [.txerr b e, .done (.err e)], seq := .idle, res := .err e })) ∧
  (∀ (s s1 : State) (c : Fin 4) (ch : Channel), s.takeMove = (.quiet, s1) → s1.seq = .enc c → s1.pix = .unwritten →
    (order s1.cfg.variant)[c.val]? = some ch →
    step s = .next { s1 with
      acc := .holds (tripletOf (Config.unwrittenPix s1.resets ch)), seq := .symSend c 0 })

/-- R129, which the spec marks [derived]: `AfterSym(c,j)`, for the channel positions of the instance. -/
def Obligations.AfterSymbolPositions : Prop :=
  ∀ (s : State) (c : Fin 4) (j : Fin 3), c.val < chCount s.cfg.variant →
    (∀ h : j.val < 2, s.afterSym c j = { s with seq := .symSend c ⟨j.val + 1, by omega⟩ }) ∧
    (∀ c' : Fin 4, j.val = 2 → c.val < chCount s.cfg.variant - 1 → c'.val = c.val + 1 →
      s.afterSym c j = { s with seq := .enc c' }) ∧
    (j.val = 2 → c.val = chCount s.cfg.variant - 1 → s.afterSym c j = { s with seq := .fetch })

/-- R146: a send answered `Err(e)` aborts within the same step, at every position that sends: `RES <- ERR(e)`,
`SEQ <- IDLE`, `Deliver(Err(e))`, the failed byte being the one the position offers, and nothing else changes; and from
there the block performs no further interaction
(while the host makes no move, it stays in that very state). -/
def Obligations.FailedSendAborts : Prop :=
  ∀ (s s1 : State) (b : Byte) (e : ErrTag) (q : Script TxAnswer), s.takeMove = (.quiet, s1) →
    s1.seq.existsIn s1.cfg = true → s1.offeredByte = some b → s1.tx.draw = (.err e, q) →
    ∃ t : State, step s = .next t ∧ t = { s1 with
      tx := q, res := .err e, seq := .idle, trace := s1.trace ++ [.txerr b e, .done (.err e)] } ∧
      (s1.host = [] → ∀ n : Nat, Host.Core.run Sys2Proof.core n t = .next t)

/-- R150, R130, R24: the named stops of a step that has no meaning: a position the instance does not have, a color
of the other variant, a bench move while busy or with bytes that are no encoding. One of the positions refused is not
excluded by R24's column: `FL_DRAIN(PRE,k)` on an instance with a receive side and without `IDLE_HIGH`, which has no
pre-flush (DEDUCED, notes/assumptions/7.md); the second clause says it. The names and the bench are the model's
(notes/assumptions/5.md, 6.md, 13.md). -/
def Obligations.MeaninglessStepsAreRefused : Prop :=
  (∀ s s1 : State, s.takeMove = (.quiet, s1) → s1.seq.existsIn s1.cfg = false →
    step s = .refused .noSuchPosition) ∧
  (∀ (s s1 : State) (k : Fin 20), s.takeMove = (.quiet, s1) → s1.seq = .flDrain .pre k → s1.cfg.idleHigh = false →
    step s = .refused .noSuchPosition) ∧
  (∀ (s s1 : State) (t : Color), s.takeMove = (.quiet, s1) → s1.seq = .fetch → s1.colors.draw.1 = some t →
    variantOf t ≠ s1.cfg.variant → step s = .refused .tupleOfOtherVariant) ∧
  (∀ (s s1 : State) (f : Format) (bs : List Byte), s.takeMove = (.perform f bs, s1) → s1.seq ≠ .idle →
    step s = .refused .busy) ∧
  (∀ (s s1 : State) (f : Format) (bs : List Byte) (e : DecodeError), s.takeMove = (.perform f bs, s1) →
    s1.seq = .idle → decode f bs = .error e → step s = .refused (.notAnEncoding e))

/-! ### Steps: what holds of all of them -/

/-- R130 (marked [derived]) and R150: the block is never stuck in the middle of a WRITE: under the invariant and the
host's discipline every step has a next state, whatever the environment answers. -/
def Obligations.EveryPositionHasAStep : Prop :=
  ∀ s : State, s.inv = true → s.disciplined = true → ∃ t : State, step s = .next t

/-- R25, which the spec marks [derived]: a `TrySend` answered `WouldBlock` leaves `SEQ` and all other state of the
block as it was; every other step of a busy block changes `SEQ`; the block is busy exactly when `SEQ` is not `IDLE`.
-/
def Obligations.StepsMoveOnOrRetry : Prop :=
  ∀ s s1 t : State, s.takeMove = (.quiet, s1) → step s = .next t →
    (s1.seq.isSend = true → s1.tx.draw.1 = .wouldBlock →
      t.seq = s1.seq ∧ t.acc = s1.acc ∧ t.pix = s1.pix ∧ t.res = s1.res ∧ t.cfg = s1.cfg) ∧
    (s1.seq ≠ .idle → ¬ (s1.seq.isSend = true ∧ s1.tx.draw.1 = .wouldBlock) → t.seq ≠ s1.seq) ∧
    (s1.busy = true ↔ s1.seq ≠ .idle)

/-- R27: no step changes the configuration, reset and every operation included. -/
def Obligations.ConfigurationIsFixed : Prop :=
  ∀ s t : State, step s = .next t → t.cfg = s.cfg

/-- R10, R68, R150 (4): what an integrator writes down is built into an instance exactly when its channel count, order
and clock are those of one of the two variants, and the instance is then that variant's with the two flags as given; any
other channel count or order is refused. That a clock which is not the variant's is refused too follows from R10's
"follows `VARIANT`" (DEDUCED, notes/assumptions/13.md). -/
def Obligations.ConfigurationsOutsideTheTableAreRefused : Prop :=
  ∀ c : RawCfg,
    (∀ cfg : Cfg, c.build? = some cfg ↔
      c.chCount = chCount cfg.variant ∧ c.order = order cfg.variant ∧ c.spiHz = Config.spiHz cfg.variant ∧
        cfg.idleHigh = c.idleHigh ∧ cfg.hasRx = c.hasRx) ∧
    (¬ (c.chCount = 3 ∧ c.order = [.g, .r, .b]) → ¬ (c.chCount = 4 ∧ c.order = [.g, .r, .b, .w]) → c.build? = none)

/-- R7: a step that is neither a reset nor a bench move adds to the trace at most one interaction, and a delivery
of the result at most besides. -/
def Obligations.OneInteractionPerStep : Prop :=
  ∀ s t : State, s.disciplined = true → s.takeMove.1 ≠ .reset → step s = .next t →
    ∃ evs : List Event, t.trace = s.trace ++ evs ∧ evs.length ≤ 2 ∧
      evs.length ≤ (deliveredOf evs).length + 1 ∧ (deliveredOf evs).length ≤ 1

/-- R141, R142: `RES` becomes `ERR(e)` in a step of the block only at a position that sends, by a `TrySend`
answered `Err(e)` with that very `e`. -/
def Obligations.ErrorsComeFromSends : Prop :=
  ∀ (s t : State) (e : ErrTag), s.disciplined = true → step s = .next t → t.res = .err e → s.res ≠ .err e →
    s.seq.isSend = true ∧ s.tx.draw.1 = .err e ∧ t.seq = .idle ∧ t.acc = s.acc ∧ t.pix = s.pix

/-- R21, R22, R23: in a step of the block `ACC` is written at `ENC(c)` only, `PIX` only at a `FETCH` that yields the
color it then holds, and `RES` only by an accepted `Start` (to `NONE`), by the end of a successful WRITE (to `OK`) and
by the abort (to `ERR(e)`, with the `e` the peripheral returned). -/
def Obligations.RegistersHaveOneWriter : Prop :=
  ∀ s t : State, s.disciplined = true → s.takeMove.1 ≠ .reset → step s = .next t →
    (t.acc ≠ s.acc → ∃ c : Fin 4, s.seq = .enc c) ∧
    (t.pix ≠ s.pix → s.seq = .fetch ∧ ∃ p : Color, s.colors.draw.1 = some p ∧ t.pix = .holds p) ∧
    (t.res ≠ s.res →
      (∃ source : ColorSource, s.takeMove.1 = .start source ∧ s.seq = .idle ∧ t.res = .none) ∨
      (s.seq ≠ .idle ∧ t.seq = .idle ∧ t.res = .ok) ∨
      (∃ e : ErrTag, s.seq.isSend = true ∧ s.tx.draw.1 = .err e ∧ t.seq = .idle ∧ t.res = .err e))

/-- R44, R134: the result is delivered exactly by the step that takes a busy block back to `IDLE`, and then `RES` holds
it and the host may read it. -/
def Obligations.DeliveryEndsTheWrite : Prop :=
  ∀ s t : State, s.disciplined = true → s.takeMove.1 ≠ .reset → step s = .next t →
    (s.seq ≠ .idle → t.seq = .idle → ∃ r : Delivered, deliveredOf t.trace = deliveredOf s.trace ++ [r] ∧
      t.res = (match r with | .ok => .ok | .err e => .err e) ∧ t.readRes = some t.res) ∧
    (s.seq = .idle ∨ t.seq ≠ .idle → deliveredOf t.trace = deliveredOf s.trace)

/-- R69: a step of the block puts at most one byte on the wire: `0x00` at a flush position, and at `SYM_SEND(c,j)`
one of the values R69 lists for byte `j`, none of which is `0x00` or `0xFF`. -/
def Obligations.WireBytesAreLegal : Prop :=
  ∀ s t : State, s.inv = true → s.disciplined = true → step s = .next t → s.takeMove.1 ≠ .reset →
    wireOf t.trace = wireOf s.trace ∨
    (∃ (w : Which) (k : Fin 20), s.seq = .flSend w k ∧ wireOf t.trace = wireOf s.trace ++ [0x00#8]) ∨
    (∃ (c : Fin 4) (j : Fin 3) (b : Byte), s.seq = .symSend c j ∧ wireOf t.trace = wireOf s.trace ++ [b] ∧
      b ≠ 0x00#8 ∧ b ≠ 0xFF#8 ∧
      (j.val = 0 → b ∈ ([0x92, 0x93, 0x9A, 0x9B, 0xD2, 0xD3, 0xDA, 0xDB] : List Byte)) ∧
      (j.val = 1 → b ∈ ([0x49, 0x4D, 0x69, 0x6D] : List Byte)) ∧
      (j.val = 2 → b ∈ ([0x24, 0x26, 0x34, 0x36, 0xA4, 0xA6, 0xB4, 0xB6] : List Byte)))

/-! ### Invariants -/

/-- The invariant holds right after reset, in every configuration and every environment whose sources yield tuples
of the variant (R32, R170). -/
def Obligations.ResetMeetsTheInvariant : Prop :=
  State.reset.inv = true ∧
  ∀ (cfg : Cfg) (host : List HostMove) (tx : Script TxAnswer) (rx : Script RxAnswer),
    host.all (fun m => m.fits cfg.variant) = true →
    ({ State.reset with cfg := cfg, host := host, tx := tx, rx := rx } : State).inv = true

/-- R24, R29, R130: every step keeps the invariant: `SEQ` at a position of the instance, `PIX` written with a tuple
of the variant and `ACC = T(PIX[ORDER[c]])` where they are read, `RES = NONE` while busy. -/
def Obligations.StepKeepsTheInvariant : Prop :=
  ∀ s t : State, s.inv = true → step s = .next t → t.inv = true

/-- R29, which the spec marks [derived]: in a state that meets the invariant no register that its step reads is unwritten,
at `ENC(c)` the channel that is read has been written, and at `SYM_SEND(c,j)` and `SYM_DRAIN(c,j)`, `ACC = T(PIX[ORDER[c]])`. Its only fault is the model's `neverEnds` of a bench move (notes/assumptions/8.md). -/
def Obligations.NoStepReadsAnUnwrittenRegister : Prop :=
  ∀ s : State, s.inv = true →
    (∀ r : Fault, step s = .fault r → r = .neverEnds) ∧
    (∀ c : Fin 4, s.seq = .enc c → ∃ (p : Color) (b : Byte), s.pix = .holds p ∧ (colorBytes p)[c.val]? = some b) ∧
    (∀ (c : Fin 4) (j : Fin 3), s.seq = .symSend c j →
      ∃ (p : Color) (b : Byte), s.pix = .holds p ∧ (colorBytes p)[c.val]? = some b ∧ s.acc = .holds (tripletOf b)) ∧
    (∀ (c : Fin 4) (j : Fin 2), s.seq = .symDrain c j →
      ∃ (p : Color) (b : Byte), s.pix = .holds p ∧ (colorBytes p)[c.val]? = some b ∧ s.acc = .holds (tripletOf b))

/-- The same carried to runs. R29, which the spec marks [derived]: in no run from reset, in any configuration and any
environment whose sources yield tuples of the variant, does a step read an unwritten register; and whenever `SEQ` is
`SYM_SEND(c,j)` or `SYM_DRAIN(c,j)`, `ACC = T(PIX[ORDER[c]])`. The fault `neverEnds` of a bench move is the model's
(notes/assumptions/8.md). -/
def Obligations.NoRunReadsAnUnwrittenRegister : Prop :=
  ∀ (cfg : Cfg) (host : List HostMove) (tx : Script TxAnswer) (rx : Script RxAnswer) (n : Nat),
    host.all (fun m => m.fits cfg.variant) = true →
    (∀ r : Fault, Host.Core.run Sys2Proof.core n
      ({ State.reset with cfg := cfg, host := host, tx := tx, rx := rx } : State) = .fault r → r = .neverEnds) ∧
    (∀ t : State, Host.Core.run Sys2Proof.core n
      ({ State.reset with cfg := cfg, host := host, tx := tx, rx := rx } : State) = .next t →
      (∀ c : Fin 4, t.seq = .enc c → ∃ p : Color, t.pix = .holds p) ∧
      (∀ (c : Fin 4) (j : Fin 3), t.seq = .symSend c j →
        ∃ (p : Color) (b : Byte), t.pix = .holds p ∧ (colorBytes p)[c.val]? = some b ∧ t.acc = .holds (tripletOf b)) ∧
      (∀ (c : Fin 4) (j : Fin 2), t.seq = .symDrain c j →
        ∃ (p : Color) (b : Byte), t.pix = .holds p ∧ (colorBytes p)[c.val]? = some b ∧ t.acc = .holds (tripletOf b)))

/-! ### Operations -/

/-- R83: SEND offers its byte again after each `WouldBlock`, changing nothing, until it is answered `Ok` (the byte is
on the wire and `SEQ` moves on) or `Err(e)` (it is not, it is never offered again, and the abort runs). Stated of every
state, in isolation or at a `..._SEND` position. In isolation R83's "`SEQ` advances" has nowhere to go: that `SEQ`
stays there, and that the abort delivers there, is the model's choice (DESIGN CHOICE, notes/assumptions/8.md), and so is
what a SEND does to `SEQ` at a position that is no `..._SEND` (DESIGN CHOICE, notes/assumptions/19.md). -/
def Obligations.SendOutcomes : Prop :=
  ∀ (v : Byte) (s : State),
    (∀ (k : Nat) (q : Script TxAnswer), settle s.tx = some (k, .ok, q) →
      exec (.send v) s = .next { ({ s with tx := q, trace := s.trace ++ List.replicate k (.txwb v) ++ [.tx v] } :
        State).afterSend with ret := .ok }) ∧
    (∀ (k : Nat) (q : Script TxAnswer), s.seq = .idle → settle s.tx = some (k, .ok, q) →
      exec (.send v) s = .next { s with
        tx := q, trace := s.trace ++ List.replicate k (.txwb v) ++ [.tx v], ret := .ok }) ∧
    (∀ (k : Nat) (e : ErrTag) (q : Script TxAnswer), settle s.tx = some (k, .err e, q) →
      exec (.send v) s = .next { s with
        tx := q, trace := s.trace ++ List.replicate k (.txwb v) ++ [.txerr v e, .done (.err e)],
        res := .err e, seq := .idle, ret := .err e })

/-- R84: DRAIN makes one receive attempt where there is a receive side and keeps nothing of the answer, moving `SEQ`
on at a `..._DRAIN` position; where there is none it does nothing. It cannot fail. That `SEQ` stays when a DRAIN is
performed in isolation is the model's choice (DESIGN CHOICE, notes/assumptions/8.md), and so is that it stays at a
position that is no `..._DRAIN` (DESIGN CHOICE, notes/assumptions/19.md). -/
def Obligations.DrainOutcome : Prop :=
  ∀ s : State,
    (s.cfg.hasRx = false → exec .drain s = .next { s with ret := .nothing }) ∧
    (s.cfg.hasRx = true → exec .drain s = .next
      { ({ s with rx := s.rx.draw.2, trace := s.trace ++ [.rx] } : State).afterDrain with ret := .nothing }) ∧
    (s.cfg.hasRx = true → s.seq = .idle → exec .drain s = .next
      { s with rx := s.rx.draw.2, trace := s.trace ++ [.rx], ret := .nothing })

/-- R85, R86: ENCODE, in isolation or at `ENC(c)`: with all three sends answered `Ok`, the trace of the table, `ACC =
T(b)`, `SEQ` past the channel, and every other register as before; with send `n` the first answered `Err(e)`, the
`n` bytes before it, no drain after it, and the abort. In isolation `SEQ` stays and the abort delivers (DESIGN CHOICE,
notes/assumptions/8.md). -/
def Obligations.EncodeOutcomes : Prop :=
  ∀ (b : Byte) (s : State), (s.seq = .idle ∨ ∃ c : Fin 4, s.seq = .enc c) →
    (okBefore s.tx 3 → ∃ t : State, exec (.encode b) s = .next t ∧
      ioOf t.trace = ioOf s.trace ++ planIo s.cfg.hasRx (encodePlan b) ∧
      wireOf t.trace = wireOf s.trace ++ encodeTriplet b ∧ t.ret = .ok ∧ t.acc = .holds (tripletOf b) ∧
      t.seq = s.pastChannel ∧ deliveredOf t.trace = deliveredOf s.trace ∧
      t.cfg = s.cfg ∧ t.pix = s.pix ∧ t.res = s.res ∧ t.host = s.host ∧ t.colors = s.colors) ∧
    (∀ (n : Nat) (v : Byte) (d : Bool) (e : ErrTag), (encodePlan b)[n]? = some (v, d) → okBefore s.tx n →
      offer s.tx n = .err e → ∃ t : State, exec (.encode b) s = .next t ∧
      ioOf t.trace = ioOf s.trace ++ planIo s.cfg.hasRx ((encodePlan b).take n) ++ [.txerr v e] ∧
      wireOf t.trace = wireOf s.trace ++ (encodeTriplet b).take n ∧ t.ret = .err e ∧ t.res = .err e ∧
      t.seq = .idle ∧ t.acc = .holds (tripletOf b) ∧ deliveredOf t.trace = deliveredOf s.trace ++ [.err e] ∧
      t.cfg = s.cfg ∧ t.pix = s.pix ∧ t.host = s.host ∧ t.colors = s.colors)

/-- R100, R101: FLUSH, in isolation or at `FL_SEND(w,0)`: with all twenty sends answered `Ok`, the trace of the table
and neither `ACC` nor `PIX` touched, and `Ok` delivered by the final flush (R124) and nothing by the pre-flush or in
isolation; with send `k` the first answered `Err(e)`, `k` zero bytes, no drain after the failed one, and the abort. In
isolation `SEQ` stays and the abort delivers (DESIGN CHOICE, notes/assumptions/8.md). -/
def Obligations.FlushOutcomes : Prop :=
  ∀ s : State, (s.seq = .idle ∨ ∃ w : Which, s.seq = .flSend w 0) →
    (okBefore s.tx 20 → ∃ t : State, exec .flush s = .next t ∧
      ioOf t.trace = ioOf s.trace ++ planIo s.cfg.hasRx flushPlan ∧
      wireOf t.trace = wireOf s.trace ++ List.replicate 20 0x00#8 ∧ t.ret = .ok ∧
      (s.seq = .idle → t.seq = .idle ∧ t.res = s.res ∧ deliveredOf t.trace = deliveredOf s.trace) ∧
      (s.seq = .flSend .pre 0 → t.seq = .fetch ∧ t.res = s.res ∧ deliveredOf t.trace = deliveredOf s.trace) ∧
      (s.seq = .flSend .post 0 →
        t.seq = .idle ∧ t.res = .ok ∧ deliveredOf t.trace = deliveredOf s.trace ++ [.ok]) ∧
      t.cfg = s.cfg ∧ t.acc = s.acc ∧ t.pix = s.pix ∧ t.host = s.host ∧ t.colors = s.colors) ∧
    (∀ (k : Nat) (e : ErrTag), k < 20 → okBefore s.tx k → offer s.tx k = .err e →
      ∃ t : State, exec .flush s = .next t ∧
      ioOf t.trace = ioOf s.trace ++ planIo s.cfg.hasRx (flushPlan.take k) ++ [.txerr 0x00#8 e] ∧
      wireOf t.trace = wireOf s.trace ++ List.replicate k 0x00#8 ∧ t.ret = .err e ∧ t.res = .err e ∧
      t.seq = .idle ∧ deliveredOf t.trace = deliveredOf s.trace ++ [.err e] ∧
      t.cfg = s.cfg ∧ t.acc = s.acc ∧ t.pix = s.pix ∧ t.host = s.host ∧ t.colors = s.colors)

/-- R110: PIXEL.GRB, in isolation or at `ENC(0)`, green, red, blue; a failure at send `3c + j` leaves that many bytes
of the pixel, and no later channel is encoded; an instance of the other variant does not have it, and the model refuses
it there by the name `notOfThisVariant` (DEDUCED, notes/assumptions/13.md). In isolation `SEQ` stays and the abort
delivers (DESIGN CHOICE, notes/assumptions/8.md). -/
def Obligations.PixelGrbOutcomes : Prop :=
  ∀ (r g b : Byte) (s : State), (s.seq = .idle ∨ s.seq = .enc 0) →
    (s.cfg.variant ≠ .grb3 → exec (.pixelGrb r g b) s = .refused .notOfThisVariant) ∧
    (s.cfg.variant = .grb3 → okBefore s.tx 9 → ∃ t : State, exec (.pixelGrb r g b) s = .next t ∧
      ioOf t.trace = ioOf s.trace ++ planIo s.cfg.hasRx (encodePlan g ++ encodePlan r ++ encodePlan b) ∧
      wireOf t.trace = wireOf s.trace ++ encodeTriplet g ++ encodeTriplet r ++ encodeTriplet b ∧
      t.ret = .ok ∧ t.acc = .holds (tripletOf b) ∧ (s.seq = .idle → t.seq = .idle) ∧ (s.seq = .enc 0 → t.seq = .fetch) ∧
      deliveredOf t.trace = deliveredOf s.trace ∧
      t.cfg = s.cfg ∧ t.pix = s.pix ∧ t.res = s.res ∧ t.host = s.host ∧ t.colors = s.colors) ∧
    (∀ (c j : Nat) (e : ErrTag), s.cfg.variant = .grb3 → c < 3 → j < 3 → okBefore s.tx (3 * c + j) →
      offer s.tx (3 * c + j) = .err e → ∃ t : State, exec (.pixelGrb r g b) s = .next t ∧
      wireOf t.trace = wireOf s.trace ++ (encodePixel3 r g b).take (3 * c + j) ∧ t.ret = .err e ∧ t.res = .err e ∧
      (∀ x : Byte, [g, r, b][c]? = some x → t.acc = .holds (tripletOf x)) ∧
      t.seq = .idle ∧ deliveredOf t.trace = deliveredOf s.trace ++ [.err e] ∧
      t.cfg = s.cfg ∧ t.pix = s.pix ∧ t.host = s.host ∧ t.colors = s.colors)

/-- R111: PIXEL.GRBW, in isolation or at `ENC(0)`, green, red, blue, white; failures as for PIXEL.GRB. An instance of
the other variant does not have it, and the model refuses it there by the name `notOfThisVariant` (DEDUCED,
notes/assumptions/13.md). In isolation `SEQ` stays and the abort delivers (DESIGN CHOICE, notes/assumptions/8.md). -/
def Obligations.PixelGrbwOutcomes : Prop :=
  ∀ (r g b w : Byte) (s : State), (s.seq = .idle ∨ s.seq = .enc 0) →
    (s.cfg.variant ≠ .grbw4 → exec (.pixelGrbw r g b w) s = .refused .notOfThisVariant) ∧
    (s.cfg.variant = .grbw4 → okBefore s.tx 12 → ∃ t : State, exec (.pixelGrbw r g b w) s = .next t ∧
      ioOf t.trace =
        ioOf s.trace ++ planIo s.cfg.hasRx (encodePlan g ++ encodePlan r ++ encodePlan b ++ encodePlan w) ∧
      wireOf t.trace =
        wireOf s.trace ++ encodeTriplet g ++ encodeTriplet r ++ encodeTriplet b ++ encodeTriplet w ∧
      t.ret = .ok ∧ t.acc = .holds (tripletOf w) ∧ (s.seq = .idle → t.seq = .idle) ∧ (s.seq = .enc 0 → t.seq = .fetch) ∧
      deliveredOf t.trace = deliveredOf s.trace ∧
      t.cfg = s.cfg ∧ t.pix = s.pix ∧ t.res = s.res ∧ t.host = s.host ∧ t.colors = s.colors) ∧
    (∀ (c j : Nat) (e : ErrTag), s.cfg.variant = .grbw4 → c < 4 → j < 3 → okBefore s.tx (3 * c + j) →
      offer s.tx (3 * c + j) = .err e → ∃ t : State, exec (.pixelGrbw r g b w) s = .next t ∧
      wireOf t.trace = wireOf s.trace ++ (encodePixel4 r g b w).take (3 * c + j) ∧ t.ret = .err e ∧ t.res = .err e ∧
      (∀ x : Byte, [g, r, b, w][c]? = some x → t.acc = .holds (tripletOf x)) ∧
      t.seq = .idle ∧ deliveredOf t.trace = deliveredOf s.trace ++ [.err e] ∧
      t.cfg = s.cfg ∧ t.pix = s.pix ∧ t.host = s.host ∧ t.colors = s.colors)

/-- R172, R150: an operation performed on an idle block one of whose bytes is answered `WouldBlock` for ever, after
`Ok` for every byte before it, has no result; and of SEND, in any state, that is the only way to have none. The stop
`neverEnds` is the model's (notes/assumptions/8.md). -/
def Obligations.OperationsThatNeverReturn : Prop :=
  (∀ (s : State) (v : Byte), settle s.tx = none ↔ exec (.send v) s = .fault .neverEnds) ∧
  ∀ (s : State) (n : Nat), s.seq = .idle → okBefore s.tx n → offer s.tx n = .wouldBlock →
    (n < 1 → ∀ v : Byte, exec (.send v) s = .fault .neverEnds) ∧
    (n < 3 → ∀ b : Byte, exec (.encode b) s = .fault .neverEnds) ∧
    (n < 20 → exec .flush s = .fault .neverEnds) ∧
    (n < 9 → s.cfg.variant = .grb3 → ∀ r g b : Byte, exec (.pixelGrb r g b) s = .fault .neverEnds) ∧
    (n < 12 → s.cfg.variant = .grbw4 → ∀ r g b w : Byte, exec (.pixelGrbw r g b w) s = .fault .neverEnds)

/-! ### The whole WRITE -/

/-- R112, of a WRITE that succeeds: WRITE.GRB on an idle `GRB3` instance whose every send is answered `Ok`: the frame
on the wire, every color pulled in order and then the end, `RES = OK` delivered, `SEQ = IDLE`; `PIX` and `ACC` hold
the last pixel and its last triplet, or are untouched by an empty sequence. -/
def Obligations.GrbWriteCompletes : Prop :=
  ∀ (cs : List Rgb) (s : State), s.cfg.variant = .grb3 → s.seq = .idle →
    okBefore s.tx (preLength s.cfg + 9 * cs.length + 20) →
    ∃ t : State, exec (.writeGrb cs) s = .next t ∧
      wireOf t.trace = wireOf s.trace ++ (if s.cfg.idleHigh = true then List.replicate 20 0x00#8 else []) ++
        cs.flatMap (fun c => encodeTriplet c.g ++ encodeTriplet c.r ++ encodeTriplet c.b) ++ List.replicate 20 0x00#8 ∧
      pulledOf t.trace = pulledOf s.trace ++ cs.map Color.rgb ∧ endCount t.trace = endCount s.trace + 1 ∧
      deliveredOf t.trace = deliveredOf s.trace ++ [.ok] ∧ t.res = .ok ∧ t.ret = .ok ∧ t.seq = .idle ∧
      t.pix = (match cs.getLast? with | none => s.pix | some c => .holds (.rgb c)) ∧
      t.acc = (match cs.getLast? with | none => s.acc | some c => .holds (tripletOf c.b)) ∧
      t.colors = ⟨[], none⟩ ∧ t.cfg = s.cfg ∧ t.host = s.host

/-- R113, of a WRITE that succeeds: WRITE.GRBW on an idle `GRBW4` instance whose every send is answered `Ok`, as
WRITE.GRB with white last. -/
def Obligations.GrbwWriteCompletes : Prop :=
  ∀ (cs : List Rgbw) (s : State), s.cfg.variant = .grbw4 → s.seq = .idle →
    okBefore s.tx (preLength s.cfg + 12 * cs.length + 20) →
    ∃ t : State, exec (.writeGrbw cs) s = .next t ∧
      wireOf t.trace = wireOf s.trace ++ (if s.cfg.idleHigh = true then List.replicate 20 0x00#8 else []) ++
        cs.flatMap (fun c => encodeTriplet c.g ++ encodeTriplet c.r ++ encodeTriplet c.b ++ encodeTriplet c.w) ++
        List.replicate 20 0x00#8 ∧
      pulledOf t.trace = pulledOf s.trace ++ cs.map Color.rgbw ∧ endCount t.trace = endCount s.trace + 1 ∧
      deliveredOf t.trace = deliveredOf s.trace ++ [.ok] ∧ t.res = .ok ∧ t.ret = .ok ∧ t.seq = .idle ∧
      t.pix = (match cs.getLast? with | none => s.pix | some c => .holds (.rgbw c)) ∧
      t.acc = (match cs.getLast? with | none => s.acc | some c => .holds (tripletOf c.w)) ∧
      t.colors = ⟨[], none⟩ ∧ t.cfg = s.cfg ∧ t.host = s.host

/-- R115, which the spec marks [derived]: what a WRITE does as one function of the environment. With no offer failed:
the frame, `Ok`, every color pulled and one end seen. With offer `n` the first failed: the first `n` bytes of the
frame, `Err(e)`, the pulled count of the rule, byte `n` of the frame the last one offered, and which pixel, channel
and triplet byte that is. The bytes up to the failing offer in the pixel data depend only on the colors pulled. With
offer `n` answered `WouldBlock` for ever there is no result (the stop `neverEnds`, notes/assumptions/8.md). -/
def Obligations.WriteIsAFunctionOfItsEnvironment : Prop :=
  ∀ (i : Instr) (cs : List Color) (s : State), writesOf i = some (s.cfg.variant, cs) → s.seq = .idle →
    (okBefore s.tx (frameOf s.cfg cs).length → ∃ t : State, exec i s = .next t ∧
      wireOf t.trace = wireOf s.trace ++ frameOf s.cfg cs ∧ t.res = .ok ∧ t.seq = .idle ∧
      deliveredOf t.trace = deliveredOf s.trace ++ [.ok] ∧
      pulledOf t.trace = pulledOf s.trace ++ cs ∧ endCount t.trace = endCount s.trace + 1) ∧
    (∀ (n : Nat) (e : ErrTag), n < (frameOf s.cfg cs).length → okBefore s.tx n → offer s.tx n = .err e →
      ∃ (t : State) (v : Byte) (before : List Event), exec i s = .next t ∧
      wireOf t.trace = wireOf s.trace ++ (frameOf s.cfg cs).take n ∧ t.res = .err e ∧ t.seq = .idle ∧
      t.trace = before ++ [.txerr v e, .done (.err e)] ∧ (frameOf s.cfg cs)[n]? = some v ∧
      deliveredOf t.trace = deliveredOf s.trace ++ [.err e] ∧
      pulledOf t.trace = pulledOf s.trace ++ cs.take (pulledBefore s.cfg cs.length n) ∧
      endCount t.trace =
        endCount s.trace + (if n < preLength s.cfg + 3 * chCount s.cfg.variant * cs.length then 0 else 1) ∧
      (preLength s.cfg ≤ n → n < preLength s.cfg + 3 * chCount s.cfg.variant * cs.length →
        ∃ (c : Color) (b : Byte), cs[(n - preLength s.cfg) / (3 * chCount s.cfg.variant)]? = some c ∧
          (colorBytes c)[(n - preLength s.cfg) % (3 * chCount s.cfg.variant) / 3]? = some b ∧
          (encodeTriplet b)[(n - preLength s.cfg) % 3]? = some v)) ∧
    (∀ (n : Nat) (cs' : List Color), n < preLength s.cfg + 3 * chCount s.cfg.variant * cs.length →
      cs'.take (pulledBefore s.cfg cs.length n) = cs.take (pulledBefore s.cfg cs.length n) →
      (frameOf s.cfg cs').take (n + 1) = (frameOf s.cfg cs).take (n + 1)) ∧
    (∀ n : Nat, n < (frameOf s.cfg cs).length → okBefore s.tx n → offer s.tx n = .wouldBlock →
      exec i s = .fault .neverEnds)

/-- R114: the wire bytes and the receive attempts (the spec marks their count [derived]) of a successful WRITE of `N`
pixels. -/
def Obligations.WriteByteAndReceiveCounts : Prop :=
  ∀ (i : Instr) (cs : List Color) (s t : State), writesOf i = some (s.cfg.variant, cs) → s.seq = .idle →
    exec i s = .next t → t.res = .ok →
    (wireOf t.trace).length = (wireOf s.trace).length +
      (cs.length * chCount s.cfg.variant * 3 + 20 + (if s.cfg.idleHigh = true then 20 else 0)) ∧
    (s.cfg.hasRx = true → rxCount t.trace = rxCount s.trace +
      (2 * chCount s.cfg.variant * cs.length + 20 + (if s.cfg.idleHigh = true then 20 else 0))) ∧
    (s.cfg.hasRx = false → rxCount t.trace = rxCount s.trace)

/-- R110 to R113, R120: a WRITE on a busy block, or of the other variant, is refused by name (the names are the
model's, notes/assumptions/6.md, 13.md). -/
def Obligations.WriteOutsideItsConditionsIsRefused : Prop :=
  ∀ (i : Instr) (v : Variant) (cs : List Color) (s : State), writesOf i = some (v, cs) →
    (s.cfg.variant ≠ v → exec i s = .refused .notOfThisVariant) ∧
    (s.cfg.variant = v → s.seq ≠ .idle → exec i s = .refused .busy)

/-- R132, which the spec marks [derived]: the functional form and the step form agree. From `Start` the steps of the
block, busy all the way, reach `IDLE` in exactly the state the WRITE answers (its trace, `RES`, `ACC`, `PIX` and what
is left of every stream); and where the WRITE has no result, the steps go on for ever and the block stays busy. -/
def Obligations.FunctionalAndStepFormsAgree : Prop :=
  ∀ (i : Instr) (cs : List Color) (s : State), writesOf i = some (s.cfg.variant, cs) → s.seq = .idle →
    s.host = [] →
    (∀ t : State, exec i s = .next t → ∃ n : Nat,
      Host.Core.run Sys2Proof.core n ({ s with host := [.start ⟨cs, none⟩] } : State) =
        .next ({ t with ret := s.ret } : State) ∧ t.seq = .idle ∧
      ∀ m : Nat, 0 < m → m < n → ∃ u : State,
        Host.Core.run Sys2Proof.core m ({ s with host := [.start ⟨cs, none⟩] } : State) = .next u ∧ u.seq ≠ .idle) ∧
    (∀ r : Fault, exec i s = .fault r → r = .neverEnds ∧ ∀ m : Nat, 0 < m → ∃ u : State,
      Host.Core.run Sys2Proof.core m ({ s with host := [.start ⟨cs, none⟩] } : State) = .next u ∧ u.seq ≠ .idle) ∧
    (∀ r : Refusal, exec i s ≠ .refused r)

/-- R43, U3: the answers of `TryRecv` influence nothing: two states that differ only in them take the same step to
states that differ only in them. -/
def Obligations.DrainAnswersInfluenceNothing : Prop :=
  ∀ s t : State, sameButRx s t → outcomesAgree sameButRx (step s) (step t)

/-- R115, R175, decision D9: the wire, the colors pulled and the result of a WRITE depend on the variant, `IDLE_HIGH`,
the colors and the final answer to each offer, and on nothing else: not on the receive side or its answers, not on
the number of retries, and not on what an earlier WRITE, failed or not, left in `ACC`, `PIX` and `RES`. -/
def Obligations.WriteDependsOnFinalAnswersOnly : Prop :=
  ∀ (i : Instr) (v : Variant) (cs : List Color) (s t : State), writesOf i = some (v, cs) →
    s.cfg.variant = t.cfg.variant → s.cfg.idleHigh = t.cfg.idleHigh → s.seq = .idle → t.seq = .idle →
    (∀ n : Nat, offer s.tx n = offer t.tx n) → wireOf s.trace = wireOf t.trace → pulledOf s.trace = pulledOf t.trace →
    outcomesAgree sameResult (exec i s) (exec i t)

/-- R172: a WRITE need not end. A position whose byte is answered `WouldBlock` for ever is never left, and each step
only offers that very byte again; and with an endless color source and no failed send the block is never idle. -/
def Obligations.AWriteNeedNotEnd : Prop :=
  (∀ (s : State) (b : Byte) (n : Nat), s.host = [] → s.seq.existsIn s.cfg = true → s.offeredByte = some b →
    s.tx = ⟨[], .wouldBlock⟩ →
      Host.Core.run Sys2Proof.core n s =
        .next ({ s with trace := s.trace ++ List.replicate n (.txwb b) } : State)) ∧
  (∀ (s : State) (n : Nat) (c : Color), s.host = [] → s.inv = true → s.seq = .fetch → s.colors.endless = some c →
    (∀ e : ErrTag, s.tx.after ≠ .err e ∧ TxAnswer.err e ∉ s.tx.answers) → ∃ t : State,
      Host.Core.run Sys2Proof.core n s = .next t ∧ t.seq ≠ .idle ∧ deliveredOf t.trace = deliveredOf s.trace)
end

