-- ==== Sys2Proof/Laws/State.lean ====
section
/-! SUPPORT. One lemma per field for each update of the state: the field after the update, true by `rfl` for the
plain updates and by one case split for those that look at `SEQ` first. -/

namespace Sys2Proof.Machine

/-! ### `log` -/

@[simp] theorem log_cfg (s : State) (ev : Event) : (s.log ev).cfg = s.cfg := rfl
@[simp] theorem log_seq (s : State) (ev : Event) : (s.log ev).seq = s.seq := rfl
@[simp] theorem log_acc (s : State) (ev : Event) : (s.log ev).acc = s.acc := rfl
@[simp] theorem log_pix (s : State) (ev : Event) : (s.log ev).pix = s.pix := rfl
@[simp] theorem log_res (s : State) (ev : Event) : (s.log ev).res = s.res := rfl
@[simp] theorem log_host (s : State) (ev : Event) : (s.log ev).host = s.host := rfl
@[simp] theorem log_colors (s : State) (ev : Event) : (s.log ev).colors = s.colors := rfl
@[simp] theorem log_tx (s : State) (ev : Event) : (s.log ev).tx = s.tx := rfl
@[simp] theorem log_rx (s : State) (ev : Event) : (s.log ev).rx = s.rx := rfl
@[simp] theorem log_trace (s : State) (ev : Event) : (s.log ev).trace = s.trace ++ [ev] := rfl
@[simp] theorem log_ret (s : State) (ev : Event) : (s.log ev).ret = s.ret := rfl
@[simp] theorem log_resets (s : State) (ev : Event) : (s.log ev).resets = s.resets := rfl

/-! ### Reading `ACC` and `PIX` -/

@[simp] theorem readAcc_holds (s : State) (v : Triplet) (h : s.acc = .holds v) : s.readAcc = v := by
  simp [State.readAcc, h]

@[simp] theorem readAcc_unwritten (s : State) (h : s.acc = .unwritten) : s.readAcc = Config.unwrittenAcc s.resets := by
  simp [State.readAcc, h]

@[simp] theorem readPix_holds (s : State) (t : Color) (ch : Channel) (h : s.pix = .holds t) :
    s.readPix ch = channelOf t ch := by
  simp [State.readPix, h]

@[simp] theorem readPix_unwritten (s : State) (ch : Channel) (h : s.pix = .unwritten) :
    s.readPix ch = some (Config.unwrittenPix s.resets ch) := by
  simp [State.readPix, h]

/-! ### `deliver` -/

@[simp] theorem deliver_cfg (s : State) (r : Delivered) : (s.deliver r).cfg = s.cfg := rfl
@[simp] theorem deliver_seq (s : State) (r : Delivered) : (s.deliver r).seq = s.seq := rfl
@[simp] theorem deliver_acc (s : State) (r : Delivered) : (s.deliver r).acc = s.acc := rfl
@[simp] theorem deliver_pix (s : State) (r : Delivered) : (s.deliver r).pix = s.pix := rfl
@[simp] theorem deliver_res (s : State) (r : Delivered) : (s.deliver r).res = s.res := rfl
@[simp] theorem deliver_host (s : State) (r : Delivered) : (s.deliver r).host = s.host := rfl
@[simp] theorem deliver_colors (s : State) (r : Delivered) : (s.deliver r).colors = s.colors := rfl
@[simp] theorem deliver_tx (s : State) (r : Delivered) : (s.deliver r).tx = s.tx := rfl
@[simp] theorem deliver_rx (s : State) (r : Delivered) : (s.deliver r).rx = s.rx := rfl
@[simp] theorem deliver_trace (s : State) (r : Delivered) : (s.deliver r).trace = s.trace ++ [.done r] := rfl
@[simp] theorem deliver_ret (s : State) (r : Delivered) : (s.deliver r).ret = s.ret := rfl
@[simp] theorem deliver_resets (s : State) (r : Delivered) : (s.deliver r).resets = s.resets := rfl

/-! ### `finish` -/

@[simp] theorem finish_cfg (s : State) : (s.finish).cfg = s.cfg := rfl
@[simp] theorem finish_seq (s : State) : (s.finish).seq = .idle := rfl
@[simp] theorem finish_acc (s : State) : (s.finish).acc = s.acc := rfl
@[simp] theorem finish_pix (s : State) : (s.finish).pix = s.pix := rfl
@[simp] theorem finish_res (s : State) : (s.finish).res = .ok := rfl
@[simp] theorem finish_host (s : State) : (s.finish).host = s.host := rfl
@[simp] theorem finish_colors (s : State) : (s.finish).colors = s.colors := rfl
@[simp] theorem finish_tx (s : State) : (s.finish).tx = s.tx := rfl
@[simp] theorem finish_rx (s : State) : (s.finish).rx = s.rx := rfl
@[simp] theorem finish_trace (s : State) : (s.finish).trace = s.trace ++ [.done .ok] := rfl
@[simp] theorem finish_ret (s : State) : (s.finish).ret = s.ret := rfl
@[simp] theorem finish_resets (s : State) : (s.finish).resets = s.resets := rfl

/-! ### `abort` -/

@[simp] theorem abort_cfg (s : State) (e : ErrTag) : (s.abort e).cfg = s.cfg := rfl
@[simp] theorem abort_seq (s : State) (e : ErrTag) : (s.abort e).seq = .idle := rfl
@[simp] theorem abort_acc (s : State) (e : ErrTag) : (s.abort e).acc = s.acc := rfl
@[simp] theorem abort_pix (s : State) (e : ErrTag) : (s.abort e).pix = s.pix := rfl
@[simp] theorem abort_res (s : State) (e : ErrTag) : (s.abort e).res = .err e := rfl
@[simp] theorem abort_host (s : State) (e : ErrTag) : (s.abort e).host = s.host := rfl
@[simp] theorem abort_colors (s : State) (e : ErrTag) : (s.abort e).colors = s.colors := rfl
@[simp] theorem abort_tx (s : State) (e : ErrTag) : (s.abort e).tx = s.tx := rfl
@[simp] theorem abort_rx (s : State) (e : ErrTag) : (s.abort e).rx = s.rx := rfl
@[simp] theorem abort_trace (s : State) (e : ErrTag) : (s.abort e).trace = s.trace ++ [.done (.err e)] := rfl
@[simp] theorem abort_ret (s : State) (e : ErrTag) : (s.abort e).ret = s.ret := rfl
@[simp] theorem abort_resets (s : State) (e : ErrTag) : (s.abort e).resets = s.resets := rfl

/-! ### `hwReset` -/

@[simp] theorem hwReset_cfg (s : State) : (s.hwReset).cfg = s.cfg := rfl
@[simp] theorem hwReset_seq (s : State) : (s.hwReset).seq = .idle := rfl
@[simp] theorem hwReset_acc (s : State) : (s.hwReset).acc = .unwritten := rfl
@[simp] theorem hwReset_pix (s : State) : (s.hwReset).pix = .unwritten := rfl
@[simp] theorem hwReset_res (s : State) : (s.hwReset).res = .none := rfl
@[simp] theorem hwReset_host (s : State) : (s.hwReset).host = s.host := rfl
@[simp] theorem hwReset_colors (s : State) : (s.hwReset).colors = s.colors := rfl
@[simp] theorem hwReset_tx (s : State) : (s.hwReset).tx = s.tx := rfl
@[simp] theorem hwReset_rx (s : State) : (s.hwReset).rx = s.rx := rfl
@[simp] theorem hwReset_trace (s : State) : (s.hwReset).trace = [] := rfl
@[simp] theorem hwReset_ret (s : State) : (s.hwReset).ret = .nothing := rfl
@[simp] theorem hwReset_resets (s : State) : (s.hwReset).resets = s.resets + 1 := rfl

/-! ### `acceptStart` -/

@[simp] theorem acceptStart_cfg (s : State) (source : ColorSource) : (s.acceptStart source).cfg = s.cfg := rfl
@[simp] theorem acceptStart_seq (s : State) (source : ColorSource) : (s.acceptStart source).seq = if s.cfg.idleHigh then .flSend .pre 0 else .fetch := rfl
@[simp] theorem acceptStart_acc (s : State) (source : ColorSource) : (s.acceptStart source).acc = s.acc := rfl
@[simp] theorem acceptStart_pix (s : State) (source : ColorSource) : (s.acceptStart source).pix = s.pix := rfl
@[simp] theorem acceptStart_res (s : State) (source : ColorSource) : (s.acceptStart source).res = .none := rfl
@[simp] theorem acceptStart_host (s : State) (source : ColorSource) : (s.acceptStart source).host = s.host := rfl
@[simp] theorem acceptStart_colors (s : State) (source : ColorSource) : (s.acceptStart source).colors = source := rfl
@[simp] theorem acceptStart_tx (s : State) (source : ColorSource) : (s.acceptStart source).tx = s.tx := rfl
@[simp] theorem acceptStart_rx (s : State) (source : ColorSource) : (s.acceptStart source).rx = s.rx := rfl
@[simp] theorem acceptStart_trace (s : State) (source : ColorSource) : (s.acceptStart source).trace = s.trace := rfl
@[simp] theorem acceptStart_ret (s : State) (source : ColorSource) : (s.acceptStart source).ret = s.ret := rfl
@[simp] theorem acceptStart_resets (s : State) (source : ColorSource) : (s.acceptStart source).resets = s.resets := rfl

/-! ### `loadPix` -/

@[simp] theorem loadPix_cfg (s : State) (t : Color) : (s.loadPix t).cfg = s.cfg := rfl
@[simp] theorem loadPix_seq (s : State) (t : Color) : (s.loadPix t).seq = .enc 0 := rfl
@[simp] theorem loadPix_acc (s : State) (t : Color) : (s.loadPix t).acc = s.acc := rfl
@[simp] theorem loadPix_pix (s : State) (t : Color) : (s.loadPix t).pix = .holds t := rfl
@[simp] theorem loadPix_res (s : State) (t : Color) : (s.loadPix t).res = s.res := rfl
@[simp] theorem loadPix_host (s : State) (t : Color) : (s.loadPix t).host = s.host := rfl
@[simp] theorem loadPix_colors (s : State) (t : Color) : (s.loadPix t).colors = s.colors := rfl
@[simp] theorem loadPix_tx (s : State) (t : Color) : (s.loadPix t).tx = s.tx := rfl
@[simp] theorem loadPix_rx (s : State) (t : Color) : (s.loadPix t).rx = s.rx := rfl
@[simp] theorem loadPix_trace (s : State) (t : Color) : (s.loadPix t).trace = s.trace := rfl
@[simp] theorem loadPix_ret (s : State) (t : Color) : (s.loadPix t).ret = s.ret := rfl
@[simp] theorem loadPix_resets (s : State) (t : Color) : (s.loadPix t).resets = s.resets := rfl

/-! ### `enterFinalFlush` -/

@[simp] theorem enterFinalFlush_cfg (s : State) : (s.enterFinalFlush).cfg = s.cfg := rfl
@[simp] theorem enterFinalFlush_seq (s : State) : (s.enterFinalFlush).seq = .flSend .post 0 := rfl
@[simp] theorem enterFinalFlush_acc (s : State) : (s.enterFinalFlush).acc = s.acc := rfl
@[simp] theorem enterFinalFlush_pix (s : State) : (s.enterFinalFlush).pix = s.pix := rfl
@[simp] theorem enterFinalFlush_res (s : State) : (s.enterFinalFlush).res = s.res := rfl
@[simp] theorem enterFinalFlush_host (s : State) : (s.enterFinalFlush).host = s.host := rfl
@[simp] theorem enterFinalFlush_colors (s : State) : (s.enterFinalFlush).colors = s.colors := rfl
@[simp] theorem enterFinalFlush_tx (s : State) : (s.enterFinalFlush).tx = s.tx := rfl
@[simp] theorem enterFinalFlush_rx (s : State) : (s.enterFinalFlush).rx = s.rx := rfl
@[simp] theorem enterFinalFlush_trace (s : State) : (s.enterFinalFlush).trace = s.trace := rfl
@[simp] theorem enterFinalFlush_ret (s : State) : (s.enterFinalFlush).ret = s.ret := rfl
@[simp] theorem enterFinalFlush_resets (s : State) : (s.enterFinalFlush).resets = s.resets := rfl

/-! ### `tryRecv` -/

@[simp] theorem tryRecv_cfg (s : State) : (s.tryRecv).cfg = s.cfg := rfl
@[simp] theorem tryRecv_seq (s : State) : (s.tryRecv).seq = s.seq := rfl
@[simp] theorem tryRecv_acc (s : State) : (s.tryRecv).acc = s.acc := rfl
@[simp] theorem tryRecv_pix (s : State) : (s.tryRecv).pix = s.pix := rfl
@[simp] theorem tryRecv_res (s : State) : (s.tryRecv).res = s.res := rfl
@[simp] theorem tryRecv_host (s : State) : (s.tryRecv).host = s.host := rfl
@[simp] theorem tryRecv_colors (s : State) : (s.tryRecv).colors = s.colors := rfl
@[simp] theorem tryRecv_tx (s : State) : (s.tryRecv).tx = s.tx := rfl
@[simp] theorem tryRecv_rx (s : State) : (s.tryRecv).rx = s.rx.draw.2 := rfl
@[simp] theorem tryRecv_trace (s : State) : (s.tryRecv).trace = s.trace ++ [.rx] := rfl
@[simp] theorem tryRecv_ret (s : State) : (s.tryRecv).ret = s.ret := rfl
@[simp] theorem tryRecv_resets (s : State) : (s.tryRecv).resets = s.resets := rfl

/-! ### `trySend` -/

@[simp] theorem trySend_answer (s : State) (v : Byte) : (s.trySend v).1 = s.tx.draw.1 := rfl
@[simp] theorem trySend_cfg (s : State) (v : Byte) : (s.trySend v).2.cfg = s.cfg := rfl
@[simp] theorem trySend_seq (s : State) (v : Byte) : (s.trySend v).2.seq = s.seq := rfl
@[simp] theorem trySend_acc (s : State) (v : Byte) : (s.trySend v).2.acc = s.acc := rfl
@[simp] theorem trySend_pix (s : State) (v : Byte) : (s.trySend v).2.pix = s.pix := rfl
@[simp] theorem trySend_res (s : State) (v : Byte) : (s.trySend v).2.res = s.res := rfl
@[simp] theorem trySend_host (s : State) (v : Byte) : (s.trySend v).2.host = s.host := rfl
@[simp] theorem trySend_colors (s : State) (v : Byte) : (s.trySend v).2.colors = s.colors := rfl
@[simp] theorem trySend_tx (s : State) (v : Byte) : (s.trySend v).2.tx = s.tx.draw.2 := rfl
@[simp] theorem trySend_rx (s : State) (v : Byte) : (s.trySend v).2.rx = s.rx := rfl
@[simp] theorem trySend_trace (s : State) (v : Byte) : (s.trySend v).2.trace = s.trace ++ [txEvent v s.tx.draw.1] := rfl
@[simp] theorem trySend_ret (s : State) (v : Byte) : (s.trySend v).2.ret = s.ret := rfl
@[simp] theorem trySend_resets (s : State) (v : Byte) : (s.trySend v).2.resets = s.resets := rfl

/-! ### `afterFlush`: the fields it leaves alone -/

@[simp] theorem afterFlush_cfg (s : State) (w : Which) (k : Fin 20) : (s.afterFlush w k).cfg = s.cfg := by
  unfold State.afterFlush; split
  · rfl
  · cases w <;> rfl

@[simp] theorem afterFlush_acc (s : State) (w : Which) (k : Fin 20) : (s.afterFlush w k).acc = s.acc := by
  unfold State.afterFlush; split
  · rfl
  · cases w <;> rfl

@[simp] theorem afterFlush_pix (s : State) (w : Which) (k : Fin 20) : (s.afterFlush w k).pix = s.pix := by
  unfold State.afterFlush; split
  · rfl
  · cases w <;> rfl

@[simp] theorem afterFlush_host (s : State) (w : Which) (k : Fin 20) : (s.afterFlush w k).host = s.host := by
  unfold State.afterFlush; split
  · rfl
  · cases w <;> rfl

@[simp] theorem afterFlush_colors (s : State) (w : Which) (k : Fin 20) : (s.afterFlush w k).colors = s.colors := by
  unfold State.afterFlush; split
  · rfl
  · cases w <;> rfl

@[simp] theorem afterFlush_tx (s : State) (w : Which) (k : Fin 20) : (s.afterFlush w k).tx = s.tx := by
  unfold State.afterFlush; split
  · rfl
  · cases w <;> rfl

@[simp] theorem afterFlush_rx (s : State) (w : Which) (k : Fin 20) : (s.afterFlush w k).rx = s.rx := by
  unfold State.afterFlush; split
  · rfl
  · cases w <;> rfl

@[simp] theorem afterFlush_ret (s : State) (w : Which) (k : Fin 20) : (s.afterFlush w k).ret = s.ret := by
  unfold State.afterFlush; split
  · rfl
  · cases w <;> rfl

@[simp] theorem afterFlush_resets (s : State) (w : Which) (k : Fin 20) : (s.afterFlush w k).resets = s.resets := by
  unfold State.afterFlush; split
  · rfl
  · cases w <;> rfl

/-! ### `afterSym`: the fields it leaves alone -/

@[simp] theorem afterSym_cfg (s : State) (c : Fin 4) (j : Fin 3) : (s.afterSym c j).cfg = s.cfg := by
  unfold State.afterSym; split
  · rfl
  · split <;> rfl

@[simp] theorem afterSym_acc (s : State) (c : Fin 4) (j : Fin 3) : (s.afterSym c j).acc = s.acc := by
  unfold State.afterSym; split
  · rfl
  · split <;> rfl

@[simp] theorem afterSym_pix (s : State) (c : Fin 4) (j : Fin 3) : (s.afterSym c j).pix = s.pix := by
  unfold State.afterSym; split
  · rfl
  · split <;> rfl

@[simp] theorem afterSym_res (s : State) (c : Fin 4) (j : Fin 3) : (s.afterSym c j).res = s.res := by
  unfold State.afterSym; split
  · rfl
  · split <;> rfl

@[simp] theorem afterSym_host (s : State) (c : Fin 4) (j : Fin 3) : (s.afterSym c j).host = s.host := by
  unfold State.afterSym; split
  · rfl
  · split <;> rfl

@[simp] theorem afterSym_colors (s : State) (c : Fin 4) (j : Fin 3) : (s.afterSym c j).colors = s.colors := by
  unfold State.afterSym; split
  · rfl
  · split <;> rfl

@[simp] theorem afterSym_tx (s : State) (c : Fin 4) (j : Fin 3) : (s.afterSym c j).tx = s.tx := by
  unfold State.afterSym; split
  · rfl
  · split <;> rfl

@[simp] theorem afterSym_rx (s : State) (c : Fin 4) (j : Fin 3) : (s.afterSym c j).rx = s.rx := by
  unfold State.afterSym; split
  · rfl
  · split <;> rfl

@[simp] theorem afterSym_trace (s : State) (c : Fin 4) (j : Fin 3) : (s.afterSym c j).trace = s.trace := by
  unfold State.afterSym; split
  · rfl
  · split <;> rfl

@[simp] theorem afterSym_ret (s : State) (c : Fin 4) (j : Fin 3) : (s.afterSym c j).ret = s.ret := by
  unfold State.afterSym; split
  · rfl
  · split <;> rfl

@[simp] theorem afterSym_resets (s : State) (c : Fin 4) (j : Fin 3) : (s.afterSym c j).resets = s.resets := by
  unfold State.afterSym; split
  · rfl
  · split <;> rfl

/-! ### `afterSend`: the fields it leaves alone -/

@[simp] theorem afterSend_cfg (s : State) : (s.afterSend).cfg = s.cfg := by
  unfold State.afterSend; split <;> (try split) <;> simp

@[simp] theorem afterSend_acc (s : State) : (s.afterSend).acc = s.acc := by
  unfold State.afterSend; split <;> (try split) <;> simp

@[simp] theorem afterSend_pix (s : State) : (s.afterSend).pix = s.pix := by
  unfold State.afterSend; split <;> (try split) <;> simp

@[simp] theorem afterSend_host (s : State) : (s.afterSend).host = s.host := by
  unfold State.afterSend; split <;> (try split) <;> simp

@[simp] theorem afterSend_colors (s : State) : (s.afterSend).colors = s.colors := by
  unfold State.afterSend; split <;> (try split) <;> simp

@[simp] theorem afterSend_tx (s : State) : (s.afterSend).tx = s.tx := by
  unfold State.afterSend; split <;> (try split) <;> simp

@[simp] theorem afterSend_rx (s : State) : (s.afterSend).rx = s.rx := by
  unfold State.afterSend; split <;> (try split) <;> simp

@[simp] theorem afterSend_ret (s : State) : (s.afterSend).ret = s.ret := by
  unfold State.afterSend; split <;> (try split) <;> simp

@[simp] theorem afterSend_resets (s : State) : (s.afterSend).resets = s.resets := by
  unfold State.afterSend; split <;> (try split) <;> simp

/-! ### `afterDrain`: the fields it leaves alone -/

@[simp] theorem afterDrain_cfg (s : State) : (s.afterDrain).cfg = s.cfg := by
  unfold State.afterDrain; split <;> simp

@[simp] theorem afterDrain_acc (s : State) : (s.afterDrain).acc = s.acc := by
  unfold State.afterDrain; split <;> simp

@[simp] theorem afterDrain_pix (s : State) : (s.afterDrain).pix = s.pix := by
  unfold State.afterDrain; split <;> simp

@[simp] theorem afterDrain_host (s : State) : (s.afterDrain).host = s.host := by
  unfold State.afterDrain; split <;> simp

@[simp] theorem afterDrain_colors (s : State) : (s.afterDrain).colors = s.colors := by
  unfold State.afterDrain; split <;> simp

@[simp] theorem afterDrain_tx (s : State) : (s.afterDrain).tx = s.tx := by
  unfold State.afterDrain; split <;> simp

@[simp] theorem afterDrain_rx (s : State) : (s.afterDrain).rx = s.rx := by
  unfold State.afterDrain; split <;> simp

@[simp] theorem afterDrain_ret (s : State) : (s.afterDrain).ret = s.ret := by
  unfold State.afterDrain; split <;> simp

@[simp] theorem afterDrain_resets (s : State) : (s.afterDrain).resets = s.resets := by
  unfold State.afterDrain; split <;> simp

/-! ### `loadAcc`: every field but `SEQ` -/

@[simp] theorem loadAcc_cfg (s : State) (v : Triplet) : (s.loadAcc v).cfg = s.cfg := by
  unfold State.loadAcc; split <;> rfl

@[simp] theorem loadAcc_acc (s : State) (v : Triplet) : (s.loadAcc v).acc = .holds v := by
  unfold State.loadAcc; split <;> rfl

@[simp] theorem loadAcc_pix (s : State) (v : Triplet) : (s.loadAcc v).pix = s.pix := by
  unfold State.loadAcc; split <;> rfl

@[simp] theorem loadAcc_res (s : State) (v : Triplet) : (s.loadAcc v).res = s.res := by
  unfold State.loadAcc; split <;> rfl

@[simp] theorem loadAcc_host (s : State) (v : Triplet) : (s.loadAcc v).host = s.host := by
  unfold State.loadAcc; split <;> rfl

@[simp] theorem loadAcc_colors (s : State) (v : Triplet) : (s.loadAcc v).colors = s.colors := by
  unfold State.loadAcc; split <;> rfl

@[simp] theorem loadAcc_tx (s : State) (v : Triplet) : (s.loadAcc v).tx = s.tx := by
  unfold State.loadAcc; split <;> rfl

@[simp] theorem loadAcc_rx (s : State) (v : Triplet) : (s.loadAcc v).rx = s.rx := by
  unfold State.loadAcc; split <;> rfl

@[simp] theorem loadAcc_trace (s : State) (v : Triplet) : (s.loadAcc v).trace = s.trace := by
  unfold State.loadAcc; split <;> rfl

@[simp] theorem loadAcc_ret (s : State) (v : Triplet) : (s.loadAcc v).ret = s.ret := by
  unfold State.loadAcc; split <;> rfl

@[simp] theorem loadAcc_resets (s : State) (v : Triplet) : (s.loadAcc v).resets = s.resets := by
  unfold State.loadAcc; split <;> rfl

/-! ### `nextColor` -/

@[simp] theorem nextColor_answer (s : State) : s.nextColor.1 = s.colors.draw.1 := by
  unfold State.nextColor; split <;> simp_all

@[simp] theorem nextColor_cfg (s : State) : s.nextColor.2.cfg = s.cfg := by
  unfold State.nextColor; split <;> rfl

@[simp] theorem nextColor_seq (s : State) : s.nextColor.2.seq = s.seq := by
  unfold State.nextColor; split <;> rfl

@[simp] theorem nextColor_acc (s : State) : s.nextColor.2.acc = s.acc := by
  unfold State.nextColor; split <;> rfl

@[simp] theorem nextColor_pix (s : State) : s.nextColor.2.pix = s.pix := by
  unfold State.nextColor; split <;> rfl

@[simp] theorem nextColor_res (s : State) : s.nextColor.2.res = s.res := by
  unfold State.nextColor; split <;> rfl

@[simp] theorem nextColor_host (s : State) : s.nextColor.2.host = s.host := by
  unfold State.nextColor; split <;> rfl

@[simp] theorem nextColor_colors (s : State) : s.nextColor.2.colors = s.colors.draw.2 := by
  unfold State.nextColor; split <;> rfl

@[simp] theorem nextColor_tx (s : State) : s.nextColor.2.tx = s.tx := by
  unfold State.nextColor; split <;> rfl

@[simp] theorem nextColor_rx (s : State) : s.nextColor.2.rx = s.rx := by
  unfold State.nextColor; split <;> rfl

@[simp] theorem nextColor_ret (s : State) : s.nextColor.2.ret = s.ret := by
  unfold State.nextColor; split <;> rfl

@[simp] theorem nextColor_resets (s : State) : s.nextColor.2.resets = s.resets := by
  unfold State.nextColor; split <;> rfl

end Sys2Proof.Machine
end

