-- ==== Sys2Proof/Laws/Ops.lean ====
section
/-! SUPPORT. One lemma for each shared operation that says everything it can do; later proofs cite these and do
not unfold the operations. -/

namespace Sys2Proof.Machine

/-! ### Scripts and offers -/

@[simp] theorem draw_nil {α : Type} (a : α) : (Script.mk [] a).draw = (a, ⟨[], a⟩) := rfl

@[simp] theorem draw_cons {α : Type} (x a : α) (xs : List α) : (Script.mk (x :: xs) a).draw = (x, ⟨xs, a⟩) := rfl

/-- A drawn `Ok` or `Err(e)` is the answer to offer 0, and the offers after it move down by one. -/
theorem offer_draw_settled (q : Script TxAnswer) (h : q.draw.1 ≠ .wouldBlock) :
    offer q 0 = q.draw.1 ∧ ∀ n, offer q.draw.2 n = offer q (n + 1) := by
  rcases q with ⟨_ | ⟨x, xs⟩, a⟩
  · simp [offer]
  · simp only [draw_cons] at h ⊢
    simp [offer, h]

/-- A drawn `WouldBlock` leaves every offer as it was. -/
theorem offer_draw_retry (q : Script TxAnswer) (h : q.draw.1 = .wouldBlock) (n : Nat) :
    offer q.draw.2 n = offer q n := by
  rcases q with ⟨_ | ⟨x, xs⟩, a⟩
  · simp
  · simp only [draw_cons] at h ⊢
    simp [offer, h]

@[simp] theorem settle_nil (a : TxAnswer) :
    settle ⟨[], a⟩ = if a = .wouldBlock then none else some (0, a, ⟨[], a⟩) := by
  simp [settle]

theorem settle_cons_settled (x a : TxAnswer) (xs : List TxAnswer) (h : x ≠ .wouldBlock) :
    settle ⟨x :: xs, a⟩ = some (0, x, ⟨xs, a⟩) := by
  simp [settle, h]

theorem settle_cons_retry (a : TxAnswer) (xs : List TxAnswer) :
    settle ⟨.wouldBlock :: xs, a⟩ = (settle ⟨xs, a⟩).map fun r => (r.1 + 1, r.2) := by
  simp only [settle, List.dropWhile_cons, List.takeWhile_cons, beq_self_eq_true, if_true, List.length_cons]
  split
  · rfl
  · split <;> rfl

/-- The byte is never settled exactly when offer 0 is answered `WouldBlock` for ever; otherwise it is settled by
offer 0, and the offers after it move down by one. -/
theorem settle_spec (q : Script TxAnswer) :
    match settle q with
    | none => offer q 0 = .wouldBlock
    | some (_, a, q') => a ≠ .wouldBlock ∧ offer q 0 = a ∧ ∀ n, offer q' n = offer q (n + 1) := by
  rcases q with ⟨xs, a⟩
  induction xs with
  | nil =>
    by_cases h : a = .wouldBlock
    · simp [h, offer]
    · simp [h, offer]
  | cons x xs ih =>
    by_cases h : x = .wouldBlock
    · subst h
      have hoff : ∀ n, offer ⟨.wouldBlock :: xs, a⟩ n = offer ⟨xs, a⟩ n := fun n => by simp [offer]
      rw [settle_cons_retry]
      cases hs : settle ⟨xs, a⟩ with
      | none => simpa [hs, hoff] using ih
      | some r =>
        obtain ⟨k, b, q'⟩ := r
        simpa [hs, hoff] using ih
    · rw [settle_cons_settled x a xs h]
      refine ⟨h, ?_, ?_⟩ <;> simp [offer, h]

/-! ### One attempt, the blocking send, the drain -/

/-- One attempt (R121, R127), by the peripheral's answer. -/
theorem attempt_eq (v : Byte) (s : State) :
    s.attempt v =
      match s.tx.draw with
      | (.ok, q) => (.ok, ({ s with tx := q, trace := s.trace ++ [.tx v] } : State).afterSend)
      | (.wouldBlock, q) => (.wouldBlock, { s with tx := q, trace := s.trace ++ [.txwb v] })
      | (.err e, q) => (.err e, ({ s with tx := q, trace := s.trace ++ [.txerr v e] } : State).abort e) := by
  unfold State.attempt State.trySend
  rcases s.tx.draw with ⟨a, q⟩
  cases a <;> rfl

/-- The blocking send (R83): its retries, then `Ok` with `SEQ` moved on, or the abort, or no end. -/
theorem sendByte_eq (v : Byte) (s : State) :
    s.sendByte v =
      match settle s.tx with
      | none => .never
      | some (k, .ok, q) =>
        .ok ({ s with tx := q, trace := s.trace ++ List.replicate k (.txwb v) ++ [.tx v] } : State).afterSend
      | some (_, .wouldBlock, _) => .never
      | some (k, .err e, q) =>
        .err e (({ s with tx := q, trace := s.trace ++ List.replicate k (.txwb v) ++ [.txerr v e] } : State).abort e) := by
  obtain ⟨cfg, seq, acc, pix, res, host, colors, ⟨xs, a⟩, rx, trace, ret⟩ := s
  simp only [State.sendByte]
  induction xs generalizing trace with
  | nil =>
    simp only [List.length_nil, State.sendWithin, attempt_eq, draw_nil, settle_nil]
    cases a <;> simp
  | cons x xs ih =>
    simp only [List.length_cons, State.sendWithin, attempt_eq, draw_cons]
    cases x with
    | ok => simp [settle_cons_settled]
    | err e => simp [settle_cons_settled]
    | wouldBlock =>
      rw [settle_cons_retry]
      simp only [State.sendWithin, attempt_eq] at ih
      simp only [ih]
      cases settle ⟨xs, a⟩ with
      | none => rfl
      | some r =>
        obtain ⟨k, b, q⟩ := r
        cases b <;> simp [List.replicate_succ]

/-- The drain (R84). -/
theorem drain_eq (s : State) :
    s.drain = if s.cfg.hasRx then ({ s with rx := s.rx.draw.2, trace := s.trace ++ [.rx] } : State).afterDrain else s :=
  rfl

/-! ### Moves of `SEQ` by position -/

/-- R25: busy exactly when `SEQ` is not `IDLE`. -/
@[simp] theorem busy_iff (s : State) : s.busy = true ↔ s.seq ≠ .idle := by
  simp [State.busy]

theorem busy_eq_false_iff (s : State) : s.busy = false ↔ s.seq = .idle := by
  simp [State.busy]

@[simp] theorem afterSend_flSend (s : State) (w : Which) (k : Fin 20) (h : s.seq = .flSend w k) :
    s.afterSend = if s.cfg.hasRx then { s with seq := .flDrain w k } else s.afterFlush w k := by
  simp [State.afterSend, h]

theorem afterSend_symSend (s : State) (c : Fin 4) (j : Fin 3) (h : s.seq = .symSend c j) :
    s.afterSend =
      if hj : s.cfg.hasRx = true ∧ j.val < 2 then { s with seq := .symDrain c ⟨j.val, hj.2⟩ } else s.afterSym c j := by
  simp [State.afterSend, h]

theorem afterSend_idle (s : State) (h : s.seq = .idle) : s.afterSend = s := by
  simp [State.afterSend, h]

theorem afterDrain_flDrain (s : State) (w : Which) (k : Fin 20) (h : s.seq = .flDrain w k) :
    s.afterDrain = s.afterFlush w k := by
  simp [State.afterDrain, h]

theorem afterDrain_symDrain (s : State) (c : Fin 4) (j : Fin 2) (h : s.seq = .symDrain c j) :
    s.afterDrain = s.afterSym c ⟨j.val, by omega⟩ := by
  simp [State.afterDrain, h]

theorem afterDrain_idle (s : State) (h : s.seq = .idle) : s.afterDrain = s := by
  simp [State.afterDrain, h]

theorem loadAcc_idle (s : State) (v : Triplet) (h : s.seq = .idle) : s.loadAcc v = { s with acc := .holds v } := by
  simp [State.loadAcc, h]

theorem loadAcc_enc (s : State) (v : Triplet) (c : Fin 4) (h : s.seq = .enc c) :
    s.loadAcc v = { s with acc := .holds v, seq := .symSend c 0 } := by
  simp [State.loadAcc, h]

/-! ### The two writings of the symbol triplet -/

/-- The machine's `T` (R80, symbol by symbol) is the encoder's (R62, data bits placed). -/
theorem tripletOf_eq_tripletBits : ∀ b : Byte, tripletOf b = tripletBits b := by decide +kernel

/-- The bytes ENCODE sends are the encoding of its operand. -/
theorem tripletBytes_eq_encodeTriplet (b : Byte) :
    [tripletByte (tripletOf b) 0, tripletByte (tripletOf b) 1, tripletByte (tripletOf b) 2] = encodeTriplet b := by
  rw [tripletOf_eq_tripletBits]
  rfl

/-- Recovery (R63) after encoding, for every channel byte. -/
theorem recoverByte_tripletBits : ∀ b : Byte, recoverByte (tripletBits b) = b ∧ legalTriplet (tripletBits b) = true := by
  decide +kernel

/-! ### Flows -/

@[simp] theorem andThen_ok (s : State) (f : State → Flow) : (Flow.ok s).andThen f = f s := rfl
@[simp] theorem andThen_err (e : ErrTag) (s : State) (f : State → Flow) : (Flow.err e s).andThen f = .err e s := rfl
@[simp] theorem andThen_never (f : State → Flow) : Flow.never.andThen f = .never := rfl

theorem andThen_assoc (a : Flow) (f g : State → Flow) : (a.andThen f).andThen g = a.andThen fun s => (f s).andThen g := by
  cases a <;> rfl

@[simp] theorem answer_ok (s : State) : (Flow.ok s).answer = .next { s with ret := .ok } := rfl
@[simp] theorem answer_err (e : ErrTag) (s : State) : (Flow.err e s).answer = .next { s with ret := .err e } := rfl
@[simp] theorem answer_never : Flow.never.answer = .fault .neverEnds := rfl

end Sys2Proof.Machine
end

