-- ==== Sys2Proof/Laws/Step.lean ====
section
/-! SUPPORT. What one step can do, said once: if it answers a next state, that state is one of these. Invariants are
derived from these two lemmas, not by unfolding the step. -/

namespace Sys2Proof.Machine

/-- Everything the block's own step can do when it answers a next state (R121 to R130). -/
theorem stepOwn_next {s t : State} (h : s.stepOwn = .next t) :
    s.seq.existsIn s.cfg = true ∧
    ((s.seq = .idle ∧ t = s) ∨
     (∃ w k, s.seq = .flSend w k ∧ t = (s.attempt flushByte).2) ∨
     (∃ w k, s.seq = .flDrain w k ∧ t = s.tryRecv.afterDrain) ∨
     (∃ c j, s.seq = .symDrain c j ∧ t = s.tryRecv.afterDrain) ∨
     (s.seq = .fetch ∧ s.colors.draw.1 = none ∧ t = s.nextColor.2.enterFinalFlush) ∨
     (∃ c, s.seq = .fetch ∧ s.colors.draw.1 = some c ∧ variantOf c = s.cfg.variant ∧ t = s.nextColor.2.loadPix c) ∨
     (∃ c b, s.seq = .enc c ∧ (orderAt s.cfg.variant c).bind (fun ch => s.readPix ch) = some b ∧
        t = s.loadAcc (tripletOf b)) ∨
     (∃ c j, s.seq = .symSend c j ∧ t = (s.attempt (tripletByte s.readAcc j)).2)) := by
  unfold State.stepOwn at h
  split at h
  · rename_i hx
    refine ⟨hx, ?_⟩
    cases hq : s.seq with
    | idle => simp only [hq] at h; cases h; exact .inl ⟨rfl, rfl⟩
    | flSend w k => simp only [hq, State.stepFlSend] at h; cases h; exact .inr (.inl ⟨w, k, rfl, rfl⟩)
    | flDrain w k => simp only [hq, State.stepDrain] at h; cases h; exact .inr (.inr (.inl ⟨w, k, rfl, rfl⟩))
    | symDrain c j =>
      simp only [hq, State.stepDrain] at h; cases h; exact .inr (.inr (.inr (.inl ⟨c, j, rfl, rfl⟩)))
    | fetch =>
      simp only [hq, State.stepFetch] at h
      have ha := nextColor_answer s
      rcases hn : s.nextColor with ⟨_ | c, s1⟩ <;> simp only [hn] at h ha
      · cases h; exact .inr (.inr (.inr (.inr (.inl ⟨rfl, ha.symm, rfl⟩))))
      · split at h
        · rename_i hv
          cases h; exact .inr (.inr (.inr (.inr (.inr (.inl ⟨c, rfl, ha.symm, hv, rfl⟩)))))
        · cases h
    | enc c =>
      simp only [hq, State.stepEnc] at h
      cases hb : (orderAt s.cfg.variant c).bind fun ch => s.readPix ch with
      | none => simp only [hb] at h; cases h
      | some b =>
        simp only [hb] at h; cases h
        exact .inr (.inr (.inr (.inr (.inr (.inr (.inl ⟨c, b, rfl, hb, rfl⟩))))))
    | symSend c j =>
      simp only [hq, State.stepSymSend] at h
      cases h
      exact .inr (.inr (.inr (.inr (.inr (.inr (.inr ⟨c, j, rfl, rfl⟩))))))
  · cases h

/-- Everything a step can do when it answers a next state: the block's own transition, an accepted `Start`, a reset,
or a bench operation on an idle block. -/
theorem step_next {s t : State} (h : step s = .next t) :
    (s.takeMove.1 = .quiet ∧ s.takeMove.2.stepOwn = .next t) ∨
    (∃ source, s.takeMove.1 = .start source ∧ s.takeMove.2.seq = .idle ∧ t = s.takeMove.2.acceptStart source) ∨
    (s.takeMove.1 = .reset ∧ t = s.takeMove.2.hwReset) ∨
    (∃ f bs i, s.takeMove.1 = .perform f bs ∧ s.takeMove.2.seq = .idle ∧ decode f bs = .ok i ∧
      exec i s.takeMove.2 = .next t) := by
  unfold step at h
  rcases hm : s.takeMove with ⟨m, s1⟩
  rw [hm] at h
  cases m with
  | quiet => exact .inl ⟨rfl, h⟩
  | start source =>
    by_cases hb : s1.seq = .idle
    · have hf : s1.busy = false := (busy_eq_false_iff s1).2 hb
      simp only [State.stepStart, hf] at h
      cases h
      exact .inr (.inl ⟨source, rfl, hb, rfl⟩)
    · have hf : s1.busy = true := (busy_iff s1).2 hb
      simp only [State.stepStart, hf] at h
      cases h
  | reset => cases h; exact .inr (.inr (.inl ⟨rfl, rfl⟩))
  | perform f bs =>
    by_cases hb : s1.seq = .idle
    · have hf : s1.busy = false := (busy_eq_false_iff s1).2 hb
      cases hd : decode f bs with
      | error e => simp [State.benchInstr, hf, hd] at h
      | ok i =>
        simp only [State.benchInstr, hf, hd] at h
        exact .inr (.inr (.inr ⟨f, bs, i, rfl, hb, hd, h⟩))
    · have hf : s1.busy = true := (busy_iff s1).2 hb
      simp [State.benchInstr, hf] at h

/-- Taking the host move changes nothing but the queue. -/
theorem takeMove_state (s : State) : s.takeMove.2 = { s with host := s.host.tail } := by
  unfold State.takeMove
  cases s with
  | mk cfg seq acc pix res host colors tx rx trace ret => cases host <;> rfl

/-- With an empty queue there is no host move. -/
theorem takeMove_nil {s : State} (h : s.host = []) : s.takeMove = (.quiet, s) := by
  simp [State.takeMove, h]

/-- A run whose first step answers a next state goes on from there. -/
theorem run_succ_next {s t : State} (h : step s = .next t) (n : Nat) :
    Host.Core.run Sys2Proof.core (n + 1) s = Host.Core.run Sys2Proof.core n t := by
  have h' : Sys2Proof.core.step s = .next t := h
  simp only [Host.Core.run, h']

/-- A run whose first step is a fault ends there. -/
theorem run_succ_fault {s : State} {r : Fault} (h : step s = .fault r) (n : Nat) :
    Host.Core.run Sys2Proof.core (n + 1) s = .fault r := by
  have h' : Sys2Proof.core.step s = .fault r := h
  simp only [Host.Core.run, h']

/-- A run whose first step is refused ends there. -/
theorem run_succ_refused {s : State} {r : Refusal} (h : step s = .refused r) (n : Nat) :
    Host.Core.run Sys2Proof.core (n + 1) s = .refused r := by
  have h' : Sys2Proof.core.step s = .refused r := h
  simp only [Host.Core.run, h']

/-- An idle block with no host move stays as it is, for every number of steps (R130). -/
theorem run_idle {s : State} (hh : s.host = []) (hi : s.seq = .idle) (n : Nat) :
    Host.Core.run Sys2Proof.core n s = .next s := by
  have h : step s = .next s := by simp [step, takeMove_nil hh, State.stepOwn, hi, Seq.existsIn]
  induction n with
  | zero => rfl
  | succ n ih => rw [run_succ_next h]; exact ih

end Sys2Proof.Machine
end

