-- ==== Sys2Proof/Laws/Trace.lean ====
section
/-! SUPPORT. Reading a trace: what each reading of Safety.lean gives for one event and for two traces joined. -/

namespace Sys2Proof.Machine

/-! ### `ioOf` -/

@[simp] theorem ioOf_nil : ioOf [] = [] := rfl
@[simp] theorem ioOf_append (a b : List Event) : ioOf (a ++ b) = ioOf a ++ ioOf b := by simp [ioOf]
@[simp] theorem ioOf_cons_cons (a b : Event) (tr : List Event) : ioOf (a :: b :: tr) = ioOf [a] ++ ioOf (b :: tr) := by
  rw [← ioOf_append]; rfl
@[simp] theorem ioOf_tx (b : Byte) : ioOf [.tx b] = [.tx b] := rfl
@[simp] theorem ioOf_txwb (b : Byte) : ioOf [.txwb b] = [] := rfl
@[simp] theorem ioOf_txerr (b : Byte) (e : ErrTag) : ioOf [.txerr b e] = [.txerr b e] := rfl
@[simp] theorem ioOf_rx : ioOf [.rx] = [.rx] := rfl
@[simp] theorem ioOf_pull (c : Color) : ioOf [.pull c] = [.pull c] := rfl
@[simp] theorem ioOf_pullEnd : ioOf [.pullEnd] = [.pullEnd] := rfl
@[simp] theorem ioOf_done (r : Delivered) : ioOf [.done r] = [] := rfl

/-! ### `wireOf` -/

@[simp] theorem wireOf_nil : wireOf [] = [] := rfl
@[simp] theorem wireOf_append (a b : List Event) : wireOf (a ++ b) = wireOf a ++ wireOf b := by simp [wireOf]
@[simp] theorem wireOf_cons_cons (a b : Event) (tr : List Event) : wireOf (a :: b :: tr) = wireOf [a] ++ wireOf (b :: tr) := by
  rw [← wireOf_append]; rfl
@[simp] theorem wireOf_tx (b : Byte) : wireOf [.tx b] = [b] := rfl
@[simp] theorem wireOf_txwb (b : Byte) : wireOf [.txwb b] = [] := rfl
@[simp] theorem wireOf_txerr (b : Byte) (e : ErrTag) : wireOf [.txerr b e] = [] := rfl
@[simp] theorem wireOf_rx : wireOf [.rx] = [] := rfl
@[simp] theorem wireOf_pull (c : Color) : wireOf [.pull c] = [] := rfl
@[simp] theorem wireOf_pullEnd : wireOf [.pullEnd] = [] := rfl
@[simp] theorem wireOf_done (r : Delivered) : wireOf [.done r] = [] := rfl

/-! ### `pulledOf` -/

@[simp] theorem pulledOf_nil : pulledOf [] = [] := rfl
@[simp] theorem pulledOf_append (a b : List Event) : pulledOf (a ++ b) = pulledOf a ++ pulledOf b := by simp [pulledOf]
@[simp] theorem pulledOf_cons_cons (a b : Event) (tr : List Event) : pulledOf (a :: b :: tr) = pulledOf [a] ++ pulledOf (b :: tr) := by
  rw [← pulledOf_append]; rfl
@[simp] theorem pulledOf_tx (b : Byte) : pulledOf [.tx b] = [] := rfl
@[simp] theorem pulledOf_txwb (b : Byte) : pulledOf [.txwb b] = [] := rfl
@[simp] theorem pulledOf_txerr (b : Byte) (e : ErrTag) : pulledOf [.txerr b e] = [] := rfl
@[simp] theorem pulledOf_rx : pulledOf [.rx] = [] := rfl
@[simp] theorem pulledOf_pull (c : Color) : pulledOf [.pull c] = [c] := rfl
@[simp] theorem pulledOf_pullEnd : pulledOf [.pullEnd] = [] := rfl
@[simp] theorem pulledOf_done (r : Delivered) : pulledOf [.done r] = [] := rfl

/-! ### `deliveredOf` -/

@[simp] theorem deliveredOf_nil : deliveredOf [] = [] := rfl
@[simp] theorem deliveredOf_append (a b : List Event) : deliveredOf (a ++ b) = deliveredOf a ++ deliveredOf b := by simp [deliveredOf]
@[simp] theorem deliveredOf_cons_cons (a b : Event) (tr : List Event) : deliveredOf (a :: b :: tr) = deliveredOf [a] ++ deliveredOf (b :: tr) := by
  rw [← deliveredOf_append]; rfl
@[simp] theorem deliveredOf_tx (b : Byte) : deliveredOf [.tx b] = [] := rfl
@[simp] theorem deliveredOf_txwb (b : Byte) : deliveredOf [.txwb b] = [] := rfl
@[simp] theorem deliveredOf_txerr (b : Byte) (e : ErrTag) : deliveredOf [.txerr b e] = [] := rfl
@[simp] theorem deliveredOf_rx : deliveredOf [.rx] = [] := rfl
@[simp] theorem deliveredOf_pull (c : Color) : deliveredOf [.pull c] = [] := rfl
@[simp] theorem deliveredOf_pullEnd : deliveredOf [.pullEnd] = [] := rfl
@[simp] theorem deliveredOf_done (r : Delivered) : deliveredOf [.done r] = [r] := rfl

/-! ### `rxCount` -/

@[simp] theorem rxCount_nil : rxCount [] = 0 := rfl
@[simp] theorem rxCount_append (a b : List Event) : rxCount (a ++ b) = rxCount a + rxCount b := by simp [rxCount]
@[simp] theorem rxCount_cons_cons (a b : Event) (tr : List Event) : rxCount (a :: b :: tr) = rxCount [a] + rxCount (b :: tr) := by
  rw [← rxCount_append]; rfl
@[simp] theorem rxCount_tx (b : Byte) : rxCount [.tx b] = 0 := rfl
@[simp] theorem rxCount_txwb (b : Byte) : rxCount [.txwb b] = 0 := rfl
@[simp] theorem rxCount_txerr (b : Byte) (e : ErrTag) : rxCount [.txerr b e] = 0 := rfl
@[simp] theorem rxCount_rx : rxCount [.rx] = 1 := rfl
@[simp] theorem rxCount_pull (c : Color) : rxCount [.pull c] = 0 := rfl
@[simp] theorem rxCount_pullEnd : rxCount [.pullEnd] = 0 := rfl
@[simp] theorem rxCount_done (r : Delivered) : rxCount [.done r] = 0 := rfl

/-! ### `endCount` -/

@[simp] theorem endCount_nil : endCount [] = 0 := rfl
@[simp] theorem endCount_append (a b : List Event) : endCount (a ++ b) = endCount a + endCount b := by simp [endCount]
@[simp] theorem endCount_cons_cons (a b : Event) (tr : List Event) : endCount (a :: b :: tr) = endCount [a] + endCount (b :: tr) := by
  rw [← endCount_append]; rfl
@[simp] theorem endCount_tx (b : Byte) : endCount [.tx b] = 0 := rfl
@[simp] theorem endCount_txwb (b : Byte) : endCount [.txwb b] = 0 := rfl
@[simp] theorem endCount_txerr (b : Byte) (e : ErrTag) : endCount [.txerr b e] = 0 := rfl
@[simp] theorem endCount_rx : endCount [.rx] = 0 := rfl
@[simp] theorem endCount_pull (c : Color) : endCount [.pull c] = 0 := rfl
@[simp] theorem endCount_pullEnd : endCount [.pullEnd] = 1 := rfl
@[simp] theorem endCount_done (r : Delivered) : endCount [.done r] = 0 := rfl

/-- A trace one event longer at the front. -/
theorem cons_eq_append (ev : Event) (tr : List Event) : ev :: tr = [ev] ++ tr := rfl

/-- The wire is read off the listed events. -/
theorem wireOf_ioOf (tr : List Event) : wireOf (ioOf tr) = wireOf tr := by
  induction tr with
  | nil => rfl
  | cons ev tr ih =>
    rw [cons_eq_append, ioOf_append, wireOf_append, wireOf_append, ih]
    cases ev <;> rfl

/-- The colors pulled are read off the listed events. -/
theorem pulledOf_ioOf (tr : List Event) : pulledOf (ioOf tr) = pulledOf tr := by
  induction tr with
  | nil => rfl
  | cons ev tr ih =>
    rw [cons_eq_append, ioOf_append, pulledOf_append, pulledOf_append, ih]
    cases ev <;> rfl

/-- The receive attempts are read off the listed events. -/
theorem rxCount_ioOf (tr : List Event) : rxCount (ioOf tr) = rxCount tr := by
  induction tr with
  | nil => rfl
  | cons ev tr ih =>
    rw [cons_eq_append, ioOf_append, rxCount_append, rxCount_append, ih]
    cases ev <;> rfl

/-- How often the source was found exhausted is read off the listed events. -/
theorem endCount_ioOf (tr : List Event) : endCount (ioOf tr) = endCount tr := by
  induction tr with
  | nil => rfl
  | cons ev tr ih =>
    rw [cons_eq_append, ioOf_append, endCount_append, endCount_append, ih]
    cases ev <;> rfl

@[simp] theorem ioOf_retries (k : Nat) (v : Byte) : ioOf (List.replicate k (.txwb v)) = [] := by
  induction k with
  | zero => rfl
  | succ k ih => rw [List.replicate_succ, cons_eq_append, ioOf_append, ih]; rfl

@[simp] theorem deliveredOf_retries (k : Nat) (v : Byte) : deliveredOf (List.replicate k (.txwb v)) = [] := by
  induction k with
  | zero => rfl
  | succ k ih => rw [List.replicate_succ, cons_eq_append, deliveredOf_append, ih]; rfl

/-! ### Moves of `SEQ` add no listed event -/

@[simp] theorem ioOf_afterFlush (s : State) (w : Which) (k : Fin 20) : ioOf (s.afterFlush w k).trace = ioOf s.trace := by
  unfold State.afterFlush
  split
  · rfl
  · cases w <;> simp

@[simp] theorem ioOf_afterSend (s : State) : ioOf s.afterSend.trace = ioOf s.trace := by
  unfold State.afterSend
  split <;> (try split) <;> simp

@[simp] theorem ioOf_afterDrain (s : State) : ioOf s.afterDrain.trace = ioOf s.trace := by
  unfold State.afterDrain
  split <;> simp

@[simp] theorem ioOf_drain (s : State) :
    ioOf s.drain.trace = ioOf s.trace ++ if s.cfg.hasRx then [.rx] else [] := by
  rw [drain_eq]
  split <;> simp

end Sys2Proof.Machine
end

