-- ==== Sys2Proof/Laws/Plans.lean ====
section
/-! SUPPORT. The functional forms carried out as plans: what a sequence of sends and drains does when every byte is
answered `Ok`, when one is answered `Err(e)`, and when one is answered `WouldBlock` for ever. Proved once for one
byte and for two plans in a row; ENCODE, FLUSH and the pixels are then instances. -/

namespace Sys2Proof.Machine

/-! ### Drain: the fields it leaves alone -/

@[simp] theorem drain_cfg (s : State) : s.drain.cfg = s.cfg := by rw [drain_eq]; split <;> simp
@[simp] theorem drain_acc (s : State) : s.drain.acc = s.acc := by rw [drain_eq]; split <;> simp
@[simp] theorem drain_pix (s : State) : s.drain.pix = s.pix := by rw [drain_eq]; split <;> simp
@[simp] theorem drain_host (s : State) : s.drain.host = s.host := by rw [drain_eq]; split <;> simp
@[simp] theorem drain_colors (s : State) : s.drain.colors = s.colors := by rw [drain_eq]; split <;> simp
@[simp] theorem drain_tx (s : State) : s.drain.tx = s.tx := by rw [drain_eq]; split <;> simp
@[simp] theorem drain_ret (s : State) : s.drain.ret = s.ret := by rw [drain_eq]; split <;> simp

/-! ### Plans -/

theorem okBefore_mono {q : Script TxAnswer} {m n : Nat} (h : okBefore q n) (hmn : m ≤ n) : okBefore q m :=
  fun i hi => h i (by omega)

@[simp] theorem planIo_append (hasRx : Bool) (p q : Plan) : planIo hasRx (p ++ q) = planIo hasRx p ++ planIo hasRx q := by
  simp [planIo]

/-- What stays the same from `s` to `t` while a plan is carried out. -/
structure SameFrame (s t : State) : Prop where
  cfg    : t.cfg = s.cfg
  pix    : t.pix = s.pix
  host   : t.host = s.host
  colors : t.colors = s.colors

/-- A plan carried out in full between `s` and `t`. -/
structure Carried (p : Plan) (s t : State) : Prop where
  io     : ioOf t.trace = ioOf s.trace ++ planIo s.cfg.hasRx p
  offers : ∀ m, offer t.tx m = offer s.tx (m + p.length)
  frame  : SameFrame s t

/-- A plan of which `done` was carried out before the send of `v` was answered `Err(e)`. -/
structure Failed (done : Plan) (v : Byte) (e : ErrTag) (s t : State) : Prop where
  trace : ∃ before, t.trace = before ++ [.txerr v e, .done (.err e)] ∧
    ioOf before = ioOf s.trace ++ planIo s.cfg.hasRx done ∧ deliveredOf before = deliveredOf s.trace
  seq   : t.seq = .idle
  res   : t.res = .err e
  frame : SameFrame s t

/-- `f` carries out the plan `p` from `s`: in full with `post` if every byte is answered `Ok`; up to the first
failure, with `fail` of the state after the abort; and without end where a byte is never settled. -/
structure Follows (p : Plan) (s : State) (f : Flow) (post fail : State → Prop) : Prop where
  full  : okBefore s.tx p.length → ∃ t, f = .ok t ∧ Carried p s t ∧ post t
  part  : ∀ n v d e, p[n]? = some (v, d) → okBefore s.tx n → offer s.tx n = .err e →
    ∃ t, f = .err e t ∧ Failed (p.take n) v e s t ∧ fail t
  never : ∀ n, n < p.length → okBefore s.tx n → offer s.tx n = .wouldBlock → f = .never

/-- The empty plan. -/
theorem follows_nil (s : State) (post fail : State → Prop) (h : post s) : Follows [] s (.ok s) post fail where
  full _ := ⟨s, rfl, ⟨by simp [planIo], by simp, ⟨rfl, rfl, rfl, rfl⟩⟩, h⟩
  part n v d e h := by simp at h
  never n h := by simp at h

/-- Two plans in a row. The first must end with nothing delivered, as it does everywhere but at the last byte of a
final flush. -/
theorem Follows.append {p q : Plan} {s : State} {f : Flow} {g : State → Flow} {post post' fail : State → Prop}
    (hf : Follows p s f post fail)
    (hd : ∀ t, post t → deliveredOf t.trace = deliveredOf s.trace)
    (hg : ∀ t, post t → Carried p s t → Follows q t (g t) post' fail) :
    Follows (p ++ q) s (f.andThen g) post' fail where
  full h := by
    obtain ⟨t, rfl, hc, hp⟩ := hf.full (okBefore_mono h (by simp))
    obtain ⟨u, hu, hcu, hpu⟩ := (hg t hp hc).full (fun m hm => by
      rw [hc.offers]; exact h _ (by simp; omega))
    refine ⟨u, hu, ⟨?_, ?_, ?_⟩, hpu⟩
    · rw [hcu.io, hc.io, hc.frame.cfg, planIo_append, List.append_assoc]
    · intro m
      rw [hcu.offers, hc.offers, List.length_append]
      congr 1
      omega
    · exact ⟨hcu.frame.cfg.trans hc.frame.cfg, hcu.frame.pix.trans hc.frame.pix, hcu.frame.host.trans hc.frame.host,
        hcu.frame.colors.trans hc.frame.colors⟩
  part n v d e hn hb he := by
    by_cases hlt : n < p.length
    · rw [List.getElem?_append_left hlt] at hn
      obtain ⟨t, rfl, ht, hp⟩ := hf.part n v d e hn hb he
      exact ⟨t, rfl, by rwa [List.take_append_of_le_length (by omega)], hp⟩
    · have hge : p.length ≤ n := by omega
      rw [List.getElem?_append_right hge] at hn
      obtain ⟨t, rfl, hc, hp⟩ := hf.full (okBefore_mono hb hge)
      obtain ⟨u, hu, hfu, hpu⟩ := (hg t hp hc).part (n - p.length) v d e hn
        (fun m hm => by rw [hc.offers]; exact hb _ (by omega))
        (by rw [hc.offers]; rw [show n - p.length + p.length = n by omega]; exact he)
      refine ⟨u, hu, ⟨?_, hfu.seq, hfu.res, ?_⟩, hpu⟩
      · obtain ⟨before, h1, h2, h3⟩ := hfu.trace
        refine ⟨before, h1, ?_, h3.trans (hd t hp)⟩
        rw [h2, hc.io, hc.frame.cfg, List.append_assoc, ← planIo_append]
        congr 2
        rw [List.take_append, List.take_of_length_le hge]
      · exact ⟨hfu.frame.cfg.trans hc.frame.cfg, hfu.frame.pix.trans hc.frame.pix, hfu.frame.host.trans hc.frame.host,
          hfu.frame.colors.trans hc.frame.colors⟩
  never n hn hb hw := by
    by_cases hlt : n < p.length
    · rw [hf.never n hlt hb hw]; rfl
    · have hge : p.length ≤ n := by omega
      obtain ⟨t, rfl, hc, hp⟩ := hf.full (okBefore_mono hb hge)
      refine (hg t hp hc).never (n - p.length) (by simp at hn; omega)
        (fun m hm => by rw [hc.offers]; exact hb _ (by omega)) ?_
      rw [hc.offers, show n - p.length + p.length = n by omega]
      exact hw

/-- A weaker end. -/
theorem Follows.weaken {p : Plan} {s : State} {f : Flow} {post post' fail fail' : State → Prop}
    (h : Follows p s f post fail) (hp : ∀ t, Carried p s t → post t → post' t) (hq : ∀ t, fail t → fail' t) :
    Follows p s f post' fail' where
  full hb := by
    obtain ⟨t, h1, h2, h3⟩ := h.full hb
    exact ⟨t, h1, h2, hp t h2 h3⟩
  part n v d e h1 h2 h3 := by
    obtain ⟨t, h4, h5, h6⟩ := h.part n v d e h1 h2 h3
    exact ⟨t, h4, h5, hq t h6⟩
  never := h.never

/-- The state after a byte was answered `Ok` with `k` retries before it, `SEQ` moved on. -/
def sentState (v : Byte) (s : State) (k : Nat) (q : Script TxAnswer) : State :=
  ({ s with tx := q, trace := s.trace ++ List.replicate k (.txwb v) ++ [.tx v] } : State).afterSend

/-- One byte, with a drain after it or without. The end is stated of the state the send and the drain leave. -/
theorem follows_send (v : Byte) (d : Bool) (s : State) (post fail : State → Prop)
    (hp : ∀ k q, post (if d then (sentState v s k q).drain else sentState v s k q))
    (hq : ∀ t : State, t.acc = s.acc → fail t) :
    Follows [(v, d)] s ((s.sendByte v).andThen fun t => .ok (if d then t.drain else t)) post fail := by
  have hs := settle_spec s.tx
  rw [sendByte_eq]
  constructor
  · intro h
    have h0 := h 0 (by simp)
    cases hset : settle s.tx with
    | none => rw [hset] at hs; simp only at hs; rw [hs] at h0; cases h0
    | some r =>
      obtain ⟨k, a, q⟩ := r
      rw [hset] at hs
      obtain ⟨_, ha, hoff⟩ := hs
      rw [h0] at ha
      subst ha
      refine ⟨_, rfl, ⟨?_, ?_, ?_⟩, hp k q⟩
      · cases d <;> cases hx : s.cfg.hasRx <;> simp [planIo, hx]
      · intro m
        cases d <;> simp [hoff]
      · constructor <;> cases d <;> simp
  · intro n v' d' e hn _ he
    have hn0 : n = 0 := by
      by_contra hne
      rw [List.getElem?_eq_none (by simp; omega)] at hn
      cases hn
    subst hn0
    obtain ⟨rfl, rfl⟩ : v = v' ∧ d = d' := by simpa using hn
    cases hset : settle s.tx with
    | none => rw [hset] at hs; simp only at hs; rw [hs] at he; cases he
    | some r =>
      obtain ⟨k, a, q⟩ := r
      rw [hset] at hs
      obtain ⟨_, ha, _⟩ := hs
      rw [he] at ha
      subst ha
      refine ⟨_, rfl, ⟨⟨s.trace ++ List.replicate k (.txwb v), by simp, by simp [planIo], by simp⟩, rfl, rfl,
        ⟨rfl, rfl, rfl, rfl⟩⟩, hq _ rfl⟩
  · intro n hn _ hw
    have hn0 : n = 0 := by simp at hn; exact hn
    subst hn0
    cases hset : settle s.tx with
    | none => rfl
    | some r =>
      obtain ⟨k, a, q⟩ := r
      rw [hset] at hs
      obtain ⟨hne, ha, _⟩ := hs
      rw [hw] at ha
      exact absurd ha.symm hne

end Sys2Proof.Machine
end

