-- ==== Sys2Proof/Laws/Functional.lean ====
section
/-! SUPPORT. ENCODE, a list of channel bytes, and FLUSH carried out as plans, in isolation (`SEQ = IDLE`) and at the
position of the sequencer where each begins. -/

namespace Sys2Proof.Machine

@[simp] theorem andThen_ok_self (f : Flow) : (f.andThen fun t => .ok t) = f := by cases f <;> rfl

/-- A plan carried out from a state that differs only in `ACC` and `SEQ`. -/
theorem Follows.of_same {p : Plan} {s s' : State} {f : Flow} {post fail : State → Prop} (h : Follows p s' f post fail)
    (hcfg : s'.cfg = s.cfg) (hpix : s'.pix = s.pix) (hhost : s'.host = s.host) (hcol : s'.colors = s.colors)
    (htx : s'.tx = s.tx) (htr : s'.trace = s.trace) : Follows p s f post fail where
  full hb := by
    obtain ⟨t, h1, h2, h3⟩ := h.full (by rwa [htx])
    exact ⟨t, h1, ⟨by rw [h2.io, htr, hcfg], by rw [← htx]; exact h2.offers,
      ⟨h2.frame.cfg.trans hcfg, h2.frame.pix.trans hpix, h2.frame.host.trans hhost, h2.frame.colors.trans hcol⟩⟩, h3⟩
  part n v d e h1 h2 h3 := by
    obtain ⟨t, h4, h5, h6⟩ := h.part n v d e h1 (by rwa [htx]) (by rwa [htx])
    obtain ⟨before, h7, h8, h9⟩ := h5.trace
    exact ⟨t, h4, ⟨⟨before, h7, by rw [h8, htr, hcfg], by rw [h9, htr]⟩, h5.seq, h5.res,
      ⟨h5.frame.cfg.trans hcfg, h5.frame.pix.trans hpix, h5.frame.host.trans hhost, h5.frame.colors.trans hcol⟩⟩, h6⟩
  never n h1 h2 h3 := h.never n h1 (by rwa [htx]) (by rwa [htx])

/-- What a byte of an operation leaves besides the plan: `SEQ` as given, `ACC` and `RES` as before, nothing
delivered. -/
structure Quietly (s : State) (q : Seq) (t : State) : Prop where
  seq   : t.seq = q
  acc   : t.acc = s.acc
  res   : t.res = s.res
  quiet : deliveredOf t.trace = deliveredOf s.trace

/-- One byte in isolation. -/
theorem follows_send_idle (v : Byte) (d : Bool) (s : State) (h : s.seq = .idle) :
    Follows [(v, d)] s ((s.sendByte v).andThen fun t => .ok (if d then t.drain else t)) (Quietly s .idle)
      (fun t => t.acc = s.acc) := by
  refine follows_send v d s _ _ (fun k q => ?_) (fun t ht => ht)
  have hs : sentState v s k q = { s with tx := q, trace := s.trace ++ List.replicate k (.txwb v) ++ [.tx v] } :=
    afterSend_idle _ h
  rw [hs]
  cases d
  · exact ⟨h, rfl, rfl, by simp⟩
  · simp only [if_true]
    rw [drain_eq]
    split
    · rw [afterDrain_idle _ (by exact h)]
      exact ⟨h, rfl, rfl, by simp⟩
    · exact ⟨h, rfl, rfl, by simp⟩

/-- Bytes 0 and 1 of a triplet at their position: send, drain, and on to the next byte. -/
theorem follows_send_symSend (v : Byte) (s : State) (c : Fin 4) (j j' : Fin 3) (h : s.seq = .symSend c j)
    (hj : j'.val = j.val + 1) :
    Follows [(v, true)] s ((s.sendByte v).andThen fun t => .ok (if true then t.drain else t))
      (Quietly s (.symSend c j')) (fun t => t.acc = s.acc) := by
  refine follows_send v true s _ _ (fun k q => ?_) (fun t ht => ht)
  have hlt : j.val < 2 := by omega
  have hj' : (⟨j.val + 1, by omega⟩ : Fin 3) = j' := Fin.ext hj.symm
  have hs : sentState v s k q = _ := afterSend_symSend _ c j h
  simp only [if_true]
  rw [hs]
  by_cases hr : s.cfg.hasRx = true
  · rw [dif_pos ⟨hr, hlt⟩, drain_eq, if_pos hr, afterDrain_symDrain _ c ⟨j.val, hlt⟩ rfl]
    unfold State.afterSym
    rw [dif_pos hlt]
    exact ⟨by simp [hj'], rfl, rfl, by simp⟩
  · rw [dif_neg (fun hc => hr hc.1), drain_eq]
    unfold State.afterSym
    rw [dif_pos hlt, if_neg hr]
    exact ⟨by simp [hj'], rfl, rfl, by simp⟩

/-- Byte 2 of a triplet at its position: send, no drain, and past the channel. -/
theorem follows_send_last (v : Byte) (s : State) (c : Fin 4) (h : s.seq = .symSend c 2) :
    Follows [(v, false)] s ((s.sendByte v).andThen fun t => .ok (if false then t.drain else t))
      (Quietly s (s.afterSym c 2).seq) (fun t => t.acc = s.acc) := by
  refine follows_send v false s _ _ (fun k q => ?_) (fun t ht => ht)
  have hs : sentState v s k q = _ := afterSend_symSend _ c 2 h
  simp only [Bool.false_eq_true, if_false]
  rw [hs, dif_neg (by simp)]
  refine ⟨?_, by simp, by simp, by simp⟩
  unfold State.afterSym
  simp only [Fin.isValue, Fin.val_two, lt_self_iff_false, dite_false]
  split <;> rfl

theorem encodePlan_eq (b : Byte) :
    encodePlan b = [(tripletByte (tripletOf b) 0, true)] ++ ([(tripletByte (tripletOf b) 1, true)] ++
      [(tripletByte (tripletOf b) 2, false)]) := by
  unfold encodePlan
  rw [← tripletBytes_eq_encodeTriplet]
  rfl

theorem encodeByte_eq (b : Byte) (s : State) :
    s.encodeByte b = (((s.loadAcc (tripletOf b)).sendByte (tripletByte (tripletOf b) 0)).andThen fun t =>
        .ok (if true then t.drain else t)).andThen fun s1 =>
      ((s1.sendByte (tripletByte (tripletOf b) 1)).andThen fun t => .ok (if true then t.drain else t)).andThen fun s2 =>
        (s2.sendByte (tripletByte (tripletOf b) 2)).andThen fun t => .ok (if false then t.drain else t) := by
  simp [State.encodeByte, andThen_assoc]

/-- What ENCODE leaves besides its plan. -/
structure Encoded (b : Byte) (s : State) (q : Seq) (t : State) : Prop where
  seq   : t.seq = q
  acc   : t.acc = .holds (tripletOf b)
  res   : t.res = s.res
  quiet : deliveredOf t.trace = deliveredOf s.trace

/-- ENCODE in isolation (R85, R86). -/
theorem follows_encode_idle (b : Byte) (s : State) (h : s.seq = .idle) :
    Follows (encodePlan b) s (s.encodeByte b) (Encoded b s .idle) (fun t => t.acc = .holds (tripletOf b)) := by
  rw [encodePlan_eq, encodeByte_eq, loadAcc_idle s _ h]
  refine Follows.of_same (s' := { s with acc := .holds (tripletOf b) }) ?_ rfl rfl rfl rfl rfl rfl
  refine Follows.append (follows_send_idle _ true _ h) (fun t ht => ht.quiet) (fun t ht _ => ?_)
  refine Follows.append
    ((follows_send_idle _ true t ht.seq).weaken (fun _ _ hu => hu) (fun u hu => hu.trans ht.acc))
    (fun u hu => hu.quiet) (fun u hu _ => ?_)
  exact (follows_send_idle _ false u hu.seq).weaken
    (fun w _ hw => ⟨hw.seq, hw.acc.trans (hu.acc.trans ht.acc), hw.res.trans (hu.res.trans ht.res),
      hw.quiet.trans (hu.quiet.trans ht.quiet)⟩)
    (fun w hw => hw.trans (hu.acc.trans ht.acc))

/-- ENCODE at `ENC(c)` (R126 to R129). -/
theorem follows_encode_enc (b : Byte) (s : State) (c : Fin 4) (h : s.seq = .enc c) :
    Follows (encodePlan b) s (s.encodeByte b) (Encoded b s (s.afterSym c 2).seq)
      (fun t => t.acc = .holds (tripletOf b)) := by
  rw [encodePlan_eq, encodeByte_eq, loadAcc_enc s _ c h]
  refine Follows.of_same (s' := { s with acc := .holds (tripletOf b), seq := .symSend c 0 }) ?_ rfl rfl rfl rfl rfl rfl
  refine Follows.append (follows_send_symSend _ _ c 0 1 rfl rfl) (fun t ht => ht.quiet) (fun t ht htc => ?_)
  refine Follows.append
    ((follows_send_symSend _ t c 1 2 ht.seq rfl).weaken (fun _ _ hu => hu) (fun u hu => hu.trans ht.acc))
    (fun u hu => hu.quiet) (fun u hu huc => ?_)
  refine (follows_send_last _ u c hu.seq).weaken
    (fun w _ hw => ⟨hw.seq.trans ?_, hw.acc.trans (hu.acc.trans ht.acc), hw.res.trans (hu.res.trans ht.res),
      hw.quiet.trans (hu.quiet.trans ht.quiet)⟩)
    (fun w hw => hw.trans (hu.acc.trans ht.acc))
  have hcfg : u.cfg = s.cfg := huc.frame.cfg.trans htc.frame.cfg
  unfold State.afterSym
  simp only [Fin.isValue, Fin.val_two, lt_self_iff_false, dite_false, hcfg]
  split <;> rfl

/-- One zero byte of a flush in isolation, then the rest: FLUSH in isolation (R100, R101). -/
theorem follows_flushBytes_idle (n : Nat) (s : State) (h : s.seq = .idle) :
    Follows (List.replicate n (flushByte, true)) s (s.flushBytes n) (Quietly s .idle) (fun t => t.acc = s.acc) := by
  induction n generalizing s with
  | zero => exact follows_nil s _ _ ⟨h, rfl, rfl, rfl⟩
  | succ n ih =>
    have heq : s.flushBytes (n + 1) = ((s.sendByte flushByte).andThen fun t => .ok (if true then t.drain else t)).andThen
        fun t => t.flushBytes n := by
      simp [State.flushBytes, andThen_assoc]
    rw [heq, List.replicate_succ, show (flushByte, true) :: List.replicate n (flushByte, true) =
      [(flushByte, true)] ++ List.replicate n (flushByte, true) from rfl]
    refine Follows.append (follows_send_idle _ true s h) (fun t ht => ht.quiet) (fun t ht _ => ?_)
    exact (ih t ht.seq).weaken
      (fun u _ hu => ⟨hu.seq, hu.acc.trans ht.acc, hu.res.trans ht.res, hu.quiet.trans ht.quiet⟩)
      (fun u hu => hu.trans ht.acc)

/-- A zero byte of a flush at its position, not the last one: send, drain, and on to the next. -/
theorem follows_send_flSend (s : State) (w : Which) (k k' : Fin 20) (h : s.seq = .flSend w k)
    (hk : k'.val = k.val + 1) :
    Follows [(flushByte, true)] s ((s.sendByte flushByte).andThen fun t => .ok (if true then t.drain else t))
      (Quietly s (.flSend w k')) (fun t => t.acc = s.acc) := by
  refine follows_send _ true s _ _ (fun n q => ?_) (fun t ht => ht)
  have hlt : k.val < 19 := by omega
  have hk' : (⟨k.val + 1, by omega⟩ : Fin 20) = k' := Fin.ext hk.symm
  have hs : sentState flushByte s n q = _ := afterSend_flSend _ w k h
  simp only [if_true]
  rw [hs]
  by_cases hr : s.cfg.hasRx = true
  · rw [if_pos hr, drain_eq, if_pos hr, afterDrain_flDrain _ w k rfl]
    unfold State.afterFlush
    rw [dif_pos hlt]
    exact ⟨by simp [hk'], rfl, rfl, by simp⟩
  · rw [if_neg hr, drain_eq]
    unfold State.afterFlush
    rw [dif_pos hlt, if_neg hr]
    exact ⟨by simp [hk'], rfl, rfl, by simp⟩

/-- How a flush ends at its position: the pre-flush at `FETCH`, the final flush with `Finish` (R123, R124). -/
structure Flushed (w : Which) (s t : State) : Prop where
  acc  : t.acc = s.acc
  pre  : w = .pre → t.seq = .fetch ∧ t.res = s.res ∧ deliveredOf t.trace = deliveredOf s.trace
  post : w = .post → t.seq = .idle ∧ t.res = .ok ∧ deliveredOf t.trace = deliveredOf s.trace ++ [.ok]

/-- The last zero byte of a flush at its position. -/
theorem follows_send_flLast (s : State) (w : Which) (k : Fin 20) (h : s.seq = .flSend w k) (hk : k.val = 19) :
    Follows [(flushByte, true)] s ((s.sendByte flushByte).andThen fun t => .ok (if true then t.drain else t))
      (Flushed w s) (fun t => t.acc = s.acc) := by
  refine follows_send _ true s _ _ (fun n q => ?_) (fun t ht => ht)
  have hge : ¬ k.val < 19 := by omega
  have hs : sentState flushByte s n q = _ := afterSend_flSend _ w k h
  simp only [if_true]
  rw [hs]
  by_cases hr : s.cfg.hasRx = true
  · rw [if_pos hr, drain_eq, if_pos hr, afterDrain_flDrain _ w k rfl]
    unfold State.afterFlush
    rw [dif_neg hge]
    cases w
    · exact ⟨rfl, fun _ => ⟨rfl, rfl, by simp⟩, (fun hc => by cases hc)⟩
    · exact ⟨rfl, (fun hc => by cases hc), fun _ => ⟨rfl, rfl, by simp⟩⟩
  · rw [if_neg hr, drain_eq]
    unfold State.afterFlush
    rw [dif_neg hge]
    cases w
    · rw [if_neg hr]
      exact ⟨rfl, fun _ => ⟨rfl, rfl, by simp⟩, (fun hc => by cases hc)⟩
    · rw [if_neg (by simpa using hr)]
      exact ⟨rfl, (fun hc => by cases hc), fun _ => ⟨rfl, rfl, by simp⟩⟩

/-- FLUSH from its zero byte `k` on, at its position (R121 to R124). -/
theorem follows_flushBytes_flSend (n : Nat) (s : State) (w : Which) (k : Fin 20) (h : s.seq = .flSend w k)
    (hn : k.val + n + 1 = 20) :
    Follows (List.replicate (n + 1) (flushByte, true)) s (s.flushBytes (n + 1)) (Flushed w s) (fun t => t.acc = s.acc) := by
  have heq : ∀ (m : Nat) (u : State), u.flushBytes (m + 1) =
      ((u.sendByte flushByte).andThen fun t => .ok (if true then t.drain else t)).andThen fun t => t.flushBytes m := by
    intro m u
    simp [State.flushBytes, andThen_assoc]
  induction n generalizing s k with
  | zero =>
    rw [heq]
    simp only [State.flushBytes, andThen_ok_self]
    exact follows_send_flLast s w k h (by omega)
  | succ n ih =>
    rw [heq, show List.replicate (n + 1 + 1) (flushByte, true) =
      [(flushByte, true)] ++ List.replicate (n + 1) (flushByte, true) from rfl]
    refine Follows.append (follows_send_flSend s w k ⟨k.val + 1, by omega⟩ h rfl) (fun t ht => ht.quiet) (fun t ht _ => ?_)
    refine (ih t ⟨k.val + 1, by omega⟩ ht.seq (by simp; omega)).weaken (fun u _ hu => ?_) (fun u hu => hu.trans ht.acc)
    exact ⟨hu.acc.trans ht.acc,
      fun hw => ⟨(hu.pre hw).1, (hu.pre hw).2.1.trans ht.res, (hu.pre hw).2.2.trans ht.quiet⟩,
      fun hw => ⟨(hu.post hw).1, (hu.post hw).2.1, by rw [(hu.post hw).2.2, ht.quiet]⟩⟩

theorem flushPlan_eq : flushPlan = List.replicate Config.flushLen (flushByte, true) := rfl

end Sys2Proof.Machine
end

