-- ==== Sys2Proof/Laws/PerInstr.lean ====
section
/-! SUPPORT. Statements about every operation as syntax, one lemma per constructor: the length of its encoding
(spec/30_encoding.md R60, R66). -/

namespace Sys2Proof.Laws

/-- The length in bytes of an operation's encoding (R60): a symbol stands in one byte (notes/assumptions/10.md). -/
def encodedLength (cfg : Cfg) : Instr → Nat
  | .sym0 => 1
  | .sym1 => 1
  | .t _ => 3
  | .encode _ => 3
  | .send _ => 1
  | .drain => 0
  | .flush => 20
  | .pixelGrb _ _ _ => 9
  | .pixelGrbw _ _ _ _ => 12
  | .writeGrb cs => 9 * cs.length + 20 + if cfg.idleHigh then 20 else 0
  | .writeGrbw cs => 12 * cs.length + 20 + if cfg.idleHigh then 20 else 0

@[simp] theorem encodeTriplet_length (b : Byte) : (encodeTriplet b).length = 3 := rfl
@[simp] theorem encodeFlush_length : encodeFlush.length = 20 := by simp [encodeFlush]
@[simp] theorem encodePixel3_length (r g b : Byte) : (encodePixel3 r g b).length = 9 := rfl
@[simp] theorem encodePixel4_length (r g b w : Byte) : (encodePixel4 r g b w).length = 12 := rfl

@[simp] theorem encodePixels3_length (cs : List Rgb) : (encodePixels3 cs).length = 9 * cs.length := by
  induction cs with
  | nil => rfl
  | cons c cs ih => simp_all [encodePixels3]; omega

@[simp] theorem encodePixels4_length (cs : List Rgbw) : (encodePixels4 cs).length = 12 * cs.length := by
  induction cs with
  | nil => rfl
  | cons c cs ih => simp_all [encodePixels4]; omega

theorem encodeFrame_length (ih : Bool) (bs : List Byte) :
    (encodeFrame ih bs).length = bs.length + 20 + if ih then 20 else 0 := by
  cases ih <;> simp [encodeFrame]; omega

/-- The encoding of an operation has the length of its format, for every instance. -/
def EncodedLength.Statement (i : Instr) : Prop := ∀ cfg : Cfg, (encode cfg i).length = encodedLength cfg i

theorem EncodedLength.sym0 : EncodedLength.Statement .sym0 := fun _ => rfl
theorem EncodedLength.sym1 : EncodedLength.Statement .sym1 := fun _ => rfl
theorem EncodedLength.t (b : Byte) : EncodedLength.Statement (.t b) := fun _ => rfl
theorem EncodedLength.encode (b : Byte) : EncodedLength.Statement (.encode b) := fun _ => rfl
theorem EncodedLength.send (v : Byte) : EncodedLength.Statement (.send v) := fun _ => rfl
theorem EncodedLength.drain : EncodedLength.Statement .drain := fun _ => rfl
theorem EncodedLength.flush : EncodedLength.Statement .flush := fun _ => encodeFlush_length
theorem EncodedLength.pixelGrb (r g b : Byte) : EncodedLength.Statement (.pixelGrb r g b) := fun _ => rfl
theorem EncodedLength.pixelGrbw (r g b w : Byte) : EncodedLength.Statement (.pixelGrbw r g b w) := fun _ => rfl
theorem EncodedLength.writeGrb (colors : List Rgb) : EncodedLength.Statement (.writeGrb colors) := fun cfg => by
  simp [Sys2Proof.encode, encodeFrame_length, encodedLength]
theorem EncodedLength.writeGrbw (colors : List Rgbw) : EncodedLength.Statement (.writeGrbw colors) := fun cfg => by
  simp [Sys2Proof.encode, encodeFrame_length, encodedLength]

end Sys2Proof.Laws
end

