-- ==== Sys2Proof/Tests/Slice0.lean ====
section
/-! SUPPORT. The model's own tests. Expected results are the spec's (spec/95_test_vectors.md, named at each test) or
written out by hand from its rules; the witnesses at the end show, for every statement with hypotheses, states and
operands that meet them together. -/

namespace Sys2Proof.Tests

open Sys2Proof.Machine

/-! ### Helpers -/

/-- The next state of an outcome, if it is one. -/
def after (o : Host.Outcome State Fault Refusal) : Option State :=
  match o with
  | .next s => some s
  | .fault _ => none
  | .refused _ => none

/-- The refusal of an outcome, if it is one. -/
def refusal (o : Host.Outcome State Fault Refusal) : Option Refusal :=
  match o with
  | .next _ => none
  | .fault _ => none
  | .refused r => some r

/-- The fault of an outcome, if it is one. -/
def faultOf (o : Host.Outcome State Fault Refusal) : Option Fault :=
  match o with
  | .next _ => none
  | .fault f => some f
  | .refused _ => none

/-- An idle instance at reset, with a script of answers to `TrySend`. -/
def idle (v : Variant) (idleHigh hasRx : Bool) (tx : Script TxAnswer) : State :=
  { State.reset with cfg := ⟨v, idleHigh, hasRx⟩, tx := tx, rx := ⟨[.err 9, .ok 0x5A#8], .wouldBlock⟩ }

/-- An instance in the middle of a WRITE, at a position, holding the pixel of S5 or S6 and an accumulator. -/
def mid (v : Variant) (idleHigh hasRx : Bool) (q : Seq) (acc : Triplet) (tx : Script TxAnswer) : State :=
  { idle v idleHigh hasRx tx with
    seq := q, acc := .holds acc
    pix := match v with | .grb3 => .holds (.rgb ⟨1, 2, 3⟩) | .grbw4 => .holds (.rgbw ⟨1, 2, 3, 4⟩) }

/-- Answers that are always the same. -/
def always (a : TxAnswer) : Script TxAnswer := ⟨[], a⟩

/-- `n` answers `Ok`, then the one given at every attempt. -/
def okThen (n : Nat) (a : TxAnswer) : Script TxAnswer := ⟨List.replicate n .ok, a⟩

/-- Wire, pulled count and result register of an outcome. -/
def summary (o : Host.Outcome State Fault Refusal) : Option (List Byte × Nat × ResultReg) :=
  (after o).map fun s => (wireOf s.trace, (pulledOf s.trace).length, s.res)

/-! ### Well-formedness (R10, R68, R110 to R113) -/

theorem test_wf_pixelGrb_on_grbw4 : WellFormed ⟨.grbw4, false, true⟩ (.pixelGrb 1 2 3) = false := by decide
theorem test_wf_pixelGrbw_on_grb3 : WellFormed ⟨.grb3, false, true⟩ (.pixelGrbw 1 2 3 4) = false := by decide
theorem test_wf_writeGrb_on_grbw4 : WellFormed ⟨.grbw4, false, true⟩ (.writeGrb []) = false := by decide
theorem test_wf_writeGrbw_on_grb3 : WellFormed ⟨.grb3, false, true⟩ (.writeGrbw []) = false := by decide
theorem test_wf_flush_on_both : WellFormed ⟨.grb3, false, true⟩ .flush = true ∧ WellFormed ⟨.grbw4, true, false⟩ .flush = true := by
  decide
theorem test_raw_channel_count : RawCfg.build? ⟨5, [.g, .r, .b], 3000000, false, true⟩ = none := by decide
theorem test_raw_order : RawCfg.build? ⟨3, [.r, .g, .b], 3000000, false, true⟩ = none := by decide
theorem test_raw_clock : RawCfg.build? ⟨4, [.g, .r, .b, .w], 3000000, false, true⟩ = none := by decide
theorem test_raw_good : RawCfg.build? ⟨4, [.g, .r, .b, .w], 4000000, true, false⟩ = some ⟨.grbw4, true, false⟩ := by decide

/-! ### Decoding: words written out from R61 to R66 -/

/-- R61: `100`. -/
theorem test_decode_sym0 : decode .sym [0b00000100#8] = .ok .sym0 := by decide
/-- R61: `110`. -/
theorem test_decode_sym1 : decode .sym [0b00000110#8] = .ok .sym1 := by decide
/-- R62 for `0xA5`, symbols `110 100 110 100 100 110 100 110`; `T`'s pattern is `ENCODE`'s (R67). -/
theorem test_decode_t : decode ((Instr.t 0xA5).format ⟨.grb3, false, true⟩) [0b11010011#8, 0b01001001#8, 0b10100110#8] =
    .ok (.encode 0xA5) := by decide
/-- R62 for `0x20`: the one data bit set is the lowest bit of byte 0 (V2.5). -/
theorem test_decode_encode : decode .triplet [0b10010011#8, 0b01001001#8, 0b00100100#8] = .ok (.encode 0x20) := by decide
/-- R67: the byte itself. -/
theorem test_decode_send : decode .byte [0b10010010#8] = .ok (.send 0x92) := by decide
/-- R67: nothing. -/
theorem test_decode_drain : decode .empty [] = .ok .drain := by decide
/-- R65: twenty zero bytes. -/
theorem test_decode_flush : decode .flushf
    [0, 0, 0, 0, 0, 0, 0, 0, 0, 0, 0, 0, 0, 0, 0, 0, 0, 0, 0, 0] = .ok .flush := by decide
/-- R64 for pure red (V5.4): the red triplet is second. -/
theorem test_decode_pixelGrb : decode .pixel3 [0x92, 0x49, 0x24, 0xDB, 0x6D, 0xB6, 0x92, 0x49, 0x24] =
    .ok (.pixelGrb 0xFF 0 0) := by decide
/-- R64 for white only (V5.12): the white triplet is last. -/
theorem test_decode_pixelGrbw : decode .pixel4 [0x92, 0x49, 0x24, 0x92, 0x49, 0x24, 0x92, 0x49, 0x24, 0xDB, 0x6D, 0xB6] =
    .ok (.pixelGrbw 0 0 0 0xFF) := by decide
/-- R66 with the pre-flush (V6.6). -/
theorem test_decode_writeGrb : decode (.frame .grb3 true)
    (List.replicate 20 0 ++ [0x92, 0x49, 0x34, 0x92, 0x49, 0x26, 0x92, 0x49, 0x36] ++ List.replicate 20 0) =
    .ok (.writeGrb [⟨1, 2, 3⟩]) := by decide +kernel
/-- R66 without (V6.7). -/
theorem test_decode_writeGrbw : decode (.frame .grbw4 false)
    ([0x92, 0x49, 0x34, 0x92, 0x49, 0x26, 0x92, 0x49, 0x36, 0x92, 0x49, 0xA4] ++ List.replicate 20 0) =
    .ok (.writeGrbw [⟨1, 2, 3, 4⟩]) := by decide +kernel
/-- R69, negative vectors of V2: an always-zero bit set, an always-one bit cleared. -/
theorem test_decode_refuses : decode .triplet [0x92, 0x49, 0x25] = .error .notATriplet ∧
    decode .triplet [0x82, 0x49, 0x24] = .error .notATriplet ∧ decode .sym [0b101] = .error .notASymbol := by decide

/-! ### Table words and the bench -/

theorem test_word_sym0 : decodeTableWord 3 0x4 = some .sym0 ∧ decodeTableWord 3 0x5 = none := by decide
theorem test_word_sym1 : decodeTableWord 3 0x6 = some .sym1 ∧ decodeTableWord 3 0xE = none := by decide
/-- R67: width 8 is SEND `v` for every `v`. -/
theorem test_word_send : ∀ v : Byte, decodeTableWord 8 v.toNat = some (.send v) := by decide +kernel
/-- R67: no row is 5 or 157 bits wide. -/
theorem test_word_no_row : decodeTableWord 5 0x4 = none ∧ decodeTableWord 157 0 = none := by decide
theorem test_word_encode : decodeTableWord 24 0xD349A6 = some (.encode 0xA5) := by decide
theorem test_word_pixelGrbw : decodeTableWord 96 0x9249349249269249369249A4 = some (.pixelGrbw 1 2 3 4) := by
  decide +kernel

/-- The bench runs ENCODE as the first operation after reset (S2: `0x00` gives `92 49 24`). -/
theorem test_bench_encode : summary (step (State.reset.withFetchWord 24 0x924924)) =
    some ([0x92, 0x49, 0x24], 0, .none) := by decide +kernel
/-- ... and a symbol. -/
theorem test_bench_sym1 : (after (step (State.reset.withFetchWord 3 0x6))).map (·.ret) = some (.symbol 0b110) := by decide

/-! ### Operations -/

/-- R61. -/
theorem test_sym0 : (after (exec .sym0 State.reset)).map (·.ret) = some (.symbol 4) := by decide
/-- R61. -/
theorem test_sym1 : (after (exec .sym1 State.reset)).map (·.ret) = some (.symbol 6) := by decide
/-- V2.10. -/
theorem test_t : (after (exec (.t 0xA5) State.reset)).map (·.ret) = some (.triplet 0xD349A6) := by decide
/-- V2.6: data bit 2 is the highest bit of byte 2. -/
theorem test_t_straddles : tripletOf 0x04 = 0x9249A4 ∧ tripletOf 0x10 = 0x926924 := by decide
/-- V3.2. -/
theorem test_send_retries : (after (exec (.send 0x92) (idle .grb3 false true ⟨[.wouldBlock, .wouldBlock], .ok⟩))).map
    (·.trace) = some [.txwb 0x92, .txwb 0x92, .tx 0x92] := by decide +kernel
/-- V3.3, with the abort's delivery (R146). -/
theorem test_send_fails : (after (exec (.send 0x92) (idle .grb3 false true ⟨[.wouldBlock], .err 5⟩))).map
    (fun s => (s.trace, s.res)) = some ([.txwb 0x92, .txerr 0x92 5, .done (.err 5)], .err 5) := by decide +kernel
/-- V3.7: the answer is an error, and it is dropped. -/
theorem test_drain : (after (exec .drain (idle .grb3 false true (always .ok)))).map (fun s => (s.trace, s.res, s.seq)) =
    some ([.rx], .none, .idle) := by decide +kernel
/-- V3.8. -/
theorem test_drain_absent : (after (exec .drain (idle .grb3 false false (always .ok)))).map (·.trace) = some [] := by decide
/-- V3.14. -/
theorem test_encode_retries : (after (exec (.encode 0x80)
      (idle .grb3 false true ⟨[.ok, .wouldBlock, .wouldBlock, .wouldBlock], .ok⟩))).map (·.trace) =
    some [.tx 0xD2, .rx, .txwb 0x49, .txwb 0x49, .txwb 0x49, .tx 0x49, .rx, .tx 0x24] := by decide +kernel
/-- V3.17, with the abort's delivery: no drain after the failed byte, `ACC` kept. -/
theorem test_encode_fails : (after (exec (.encode 0xA5) (idle .grb3 false true (okThen 2 (.err 5))))).map
      (fun s => (s.trace, s.acc, s.res)) =
    some ([.tx 0xD3, .rx, .tx 0x49, .rx, .txerr 0xA6 5, .done (.err 5)], .holds 0xD349A6, .err 5) := by decide +kernel
/-- V4.4: seven zero bytes, each drained, then the failure. -/
theorem test_flush_fails : (after (exec .flush (idle .grb3 false true (okThen 7 (.err 5))))).map
      (fun s => (wireOf s.trace, rxCount s.trace, s.ret)) = some (List.replicate 7 0, 7, .err 5) := by decide +kernel
/-- V4.2. -/
theorem test_flush_no_rx : (after (exec .flush (idle .grbw4 true false (always .ok)))).map (·.trace) =
    some (List.replicate 20 (.tx 0)) := by decide +kernel
/-- V5.7: the triplet of `0x34` first. -/
theorem test_pixelGrb_order : (after (exec (.pixelGrb 0x12 0x34 0x56) (idle .grb3 false false (always .ok)))).map
    (fun s => wireOf s.trace) = some [0x93, 0x69, 0xA4, 0x92, 0x69, 0x34, 0x9A, 0x69, 0xB4] := by decide +kernel
/-- V5, "Failure inside a pixel": c = 1, j = 2. -/
theorem test_pixelGrb_fails : (after (exec (.pixelGrb 1 2 3) (idle .grb3 false true (okThen 5 (.err 5))))).map
      (fun s => ioOf s.trace) =
    some [.tx 0x92, .rx, .tx 0x49, .rx, .tx 0x34, .tx 0x92, .rx, .tx 0x49, .rx, .txerr 0x26 5] := by decide +kernel
/-- V5.14. -/
theorem test_pixelGrbw_order : (after (exec (.pixelGrbw 0x12 0x34 0x56 0x78) (idle .grbw4 false false (always .ok)))).map
      (fun s => wireOf s.trace) =
    some [0x93, 0x69, 0xA4, 0x92, 0x69, 0x34, 0x9A, 0x69, 0xB4, 0x9B, 0x6D, 0x24] := by decide +kernel
/-- R111: "Exists only when `VARIANT = GRBW4`". -/
theorem test_pixelGrbw_absent : refusal (exec (.pixelGrbw 1 2 3 4) (idle .grb3 false false (always .ok))) =
    some .notOfThisVariant := by decide
/-- Program P4: the abort inside the second pixel, no final flush, `ACC` and `PIX` of the failing channel kept. -/
theorem test_writeGrb_p4 : (after (exec (.writeGrb [⟨1, 2, 3⟩, ⟨4, 5, 6⟩, ⟨7, 8, 9⟩])
      (idle .grb3 false true (okThen 13 (.err 5))))).map (fun s => (wireOf s.trace, pulledOf s.trace, rxCount s.trace)) =
    some ([0x92, 0x49, 0x34, 0x92, 0x49, 0x26, 0x92, 0x49, 0x36, 0x92, 0x49, 0xA6, 0x92],
      [.rgb ⟨1, 2, 3⟩, .rgb ⟨4, 5, 6⟩], 9) := by decide +kernel
/-- Program P1: its wire and its end state. -/
theorem test_writeGrb_p1 : (after (exec (.writeGrb [⟨1, 2, 3⟩]) (idle .grb3 false true (always .ok)))).map
      (fun s => (wireOf s.trace, s.res, s.acc, s.pix, rxCount s.trace)) =
    some ([0x92, 0x49, 0x34, 0x92, 0x49, 0x26, 0x92, 0x49, 0x36] ++ List.replicate 20 0,
      .ok, .holds 0x924936, .holds (.rgb ⟨1, 2, 3⟩), 26) := by decide +kernel
/-- Program P5a: the failure in the pre-flush, nothing pulled, `ACC` and `PIX` still unwritten. -/
theorem test_writeGrbw_p5a : (after (exec (.writeGrbw [⟨1, 2, 3, 4⟩]) (idle .grbw4 true true (okThen 5 (.err 5))))).map
      (fun s => (wireOf s.trace, pulledOf s.trace, s.res, s.acc, s.pix)) =
    some (List.replicate 5 0, [], .err 5, .unwritten, .unwritten) := by decide +kernel
/-- Program P3b: `pull(end)`, twenty zero bytes, `done(Ok)`. -/
theorem test_writeGrbw_p3b : (after (exec (.writeGrbw []) (idle .grbw4 false false (always .ok)))).map (·.trace) =
    some ([.pullEnd] ++ List.replicate 20 (.tx 0) ++ [.done .ok]) := by decide +kernel

/-! ### Single transitions (V8) -/

/-- V8.1, V8.2: `Start` by `IDLE_HIGH`, clearing `RES`. -/
theorem test_start : (after (step (State.launch ⟨.grb3, false, true⟩ ⟨[], none⟩ (always .ok) ⟨[], .wouldBlock⟩))).map
      (fun s => (s.seq, s.res)) = some (.fetch, .none) ∧
    (after (step { idle .grb3 true true (always .ok) with res := .err 5, host := [.start ⟨[], none⟩] })).map
      (fun s => (s.seq, s.res)) = some (.flSend .pre 0, .none) := by decide
/-- V8.3: no such transition. -/
theorem test_start_busy : refusal (step { mid .grb3 false true .fetch 0 (always .ok) with host := [.start ⟨[], none⟩] }) =
    some .busy := by decide
/-- V8.8, V8.9: the last byte of the pre-flush. -/
theorem test_pre_flush_ends :
    (after (step (mid .grb3 true true (.flDrain .pre 19) 0 (always .ok)))).map (·.seq) = some .fetch ∧
    (after (step (mid .grb3 true false (.flSend .pre 19) 0 (always .ok)))).map (·.seq) = some .fetch := by decide
/-- V8.10, V8.11: `Finish`. -/
theorem test_finish :
    (after (step (mid .grb3 false true (.flDrain .post 19) 0 (always .ok)))).map (fun s => (s.seq, s.res, s.trace)) =
      some (.idle, .ok, [.rx, .done .ok]) ∧
    (after (step (mid .grb3 false false (.flSend .post 19) 0 (always .ok)))).map (fun s => (s.seq, s.res, s.trace)) =
      some (.idle, .ok, [.tx 0, .done .ok]) := by decide
/-- V8.14, V8.15, V8.16, V8.17: green, red, blue, white. -/
theorem test_enc :
    (after (step (mid .grb3 false true (.enc 0) 0 (always .ok)))).map (·.acc) = some (.holds 0x924934) ∧
    (after (step (mid .grb3 false true (.enc 1) 0 (always .ok)))).map (·.acc) = some (.holds 0x924926) ∧
    (after (step (mid .grb3 false true (.enc 2) 0 (always .ok)))).map (·.acc) = some (.holds 0x924936) ∧
    (after (step (mid .grbw4 false true (.enc 3) 0 (always .ok)))).map (·.acc) = some (.holds 0x9249A4) := by decide
/-- V8.18, V8.19, V8.21: byte 0 with and without a receive side; byte 2 is not drained. -/
theorem test_sym_send :
    (after (step (mid .grb3 false true (.symSend 0 0) 0x924934 (always .ok)))).map (·.seq) = some (.symDrain 0 0) ∧
    (after (step (mid .grb3 false false (.symSend 0 0) 0x924934 (always .ok)))).map (·.seq) = some (.symSend 0 1) ∧
    (after (step (mid .grb3 false true (.symSend 0 2) 0x924934 (always .ok)))).map (fun s => (s.seq, s.trace)) =
      some (.enc 1, [.tx 0x34]) := by decide
/-- V8.22, V8.23, V8.24: the last channel of either variant. -/
theorem test_last_channel :
    (after (step (mid .grb3 false true (.symSend 2 2) 0x924936 (always .ok)))).map (·.seq) = some .fetch ∧
    (after (step (mid .grbw4 false true (.symSend 2 2) 0x924936 (always .ok)))).map (·.seq) = some (.enc 3) ∧
    (after (step (mid .grbw4 false true (.symSend 3 2) 0x9249A4 (always .ok)))).map (·.seq) = some .fetch := by decide
/-- V8.25, V8.26: retry, abort. -/
theorem test_retry_and_abort :
    (after (step (mid .grb3 false true (.symSend 1 1) 0x924926 (always .wouldBlock)))).map (fun s => (s.seq, s.trace)) =
      some (.symSend 1 1, [.txwb 0x49]) ∧
    (after (step (mid .grb3 false true (.symSend 1 1) 0x924926 (always (.err 5))))).map (fun s => (s.seq, s.res, s.acc)) =
      some (.idle, .err 5, .holds 0x924926) := by decide
/-- V8.27. -/
theorem test_reset_move :
    (after (step { mid .grb3 false true (.symSend 1 1) 0x924926 (always .ok) with host := [.reset] })).map
      (fun s => (s.seq, s.res, s.trace)) = some (Seq.idle, ResultReg.none, ([] : List Event)) ∧
    (after (step { mid .grb3 false true (.symSend 1 1) 0x924926 (always .ok) with host := [.reset] })).map
      (fun s => (s.acc, s.pix)) = some ((Reg.unwritten : Reg Triplet), (Reg.unwritten : Reg Color)) := by decide

/-! ### Witnesses: the hypotheses of every statement that has some -/

theorem witness_TripletOfEveryChannelByte :
    (mid .grbw4 false true (.enc 3) 0 (always .ok)).takeMove = (.quiet, mid .grbw4 false true (.enc 3) 0 (always .ok)) ∧
    (mid .grbw4 false true (.enc 3) 0 (always .ok)).pix = .holds (.rgbw ⟨1, 2, 3, 4⟩) ∧
    variantOf (.rgbw ⟨1, 2, 3, 4⟩) = .grbw4 ∧ (colorBytes (.rgbw ⟨1, 2, 3, 4⟩))[3]? = some 4 ∧
    tripletOf 0xA5 = tripletOf 0xA5 := by decide

theorem witness_LegalTripletsAreTheTriplets :
    (0x924924#24 &&& 0xB6DB6D#24 = 0x924924#24) ∧ (0xDB6DB6#24 &&& 0xB6DB6D#24 = 0x924924#24) := by decide

theorem witness_DecodeInvertsEncode :
    WellFormed ⟨.grb3, true, false⟩ (.writeGrb [⟨0, 255, 1⟩]) = true ∧
    WellFormed ⟨.grbw4, false, true⟩ (.pixelGrbw 0 255 1 2) = true ∧ WellFormed ⟨.grb3, false, true⟩ (.t 255) = true := by decide

theorem witness_EncodeInvertsDecode :
    decode (.frame .grb3 true) (List.replicate 40 0) = .ok (.writeGrb []) ∧
    decode .triplet [0xDB, 0x6D, 0xB6] = .ok (.encode 0xFF) := by decide +kernel

theorem witness_DecoderRefusesOtherPatterns :
    ((0x00#8 ++ 0x00#8 ++ 0x00#8 : Triplet) &&& 0xB6DB6D#24 ≠ 0x924924#24) ∧
    ((0x05#8 ≠ 0b100#8) ∧ (0x05#8 ≠ 0b110#8)) ∧ ((0 : Nat) < 20 ∧ (19 : Nat) < 20 ∧ (0xFF#8 ≠ 0x00#8)) ∧
    (([4, 4] : List Byte).length ≠ 1 ∧ ([] : List Byte).length ≠ 1 ∧ ([0] : List Byte) ≠ []) ∧
    (([0x92, 0x49] : List Byte).length < 3) ∧ (19 ≠ 20 ∧ 21 ≠ 20) := by decide

/-- A wrong length of each format, the nearest below or above a right one; for frames 19, 21 and 28 bytes, and 39 with
the pre-flush. -/
theorem witness_DecoderRefusesOtherPatterns_lengths :
    ¬ formatHasLength .sym 2 ∧ ¬ formatHasLength .byte 0 ∧ ¬ formatHasLength .empty 1 ∧ ¬ formatHasLength .triplet 4 ∧
    ¬ formatHasLength .flushf 19 ∧ ¬ formatHasLength .pixel3 8 ∧ ¬ formatHasLength .pixel4 13 ∧
    ¬ formatHasLength (.frame .grb3 false) 19 ∧ ¬ formatHasLength (.frame .grb3 false) 21 ∧
    ¬ formatHasLength (.frame .grbw4 false) 28 ∧ ¬ formatHasLength (.frame .grbw4 true) 39 := by
  refine ⟨?_, ?_, ?_, ?_, ?_, ?_, ?_, ?_, ?_, ?_, ?_⟩ <;> (simp [formatHasLength, chCount]; try omega)

theorem witness_FramePlacesEveryByte :
    (∀ c ∈ ([.rgbw ⟨1, 2, 3, 4⟩, .rgbw ⟨5, 6, 7, 8⟩] : List Color), variantOf c = (⟨.grbw4, true, true⟩ : Cfg).variant) ∧
    ([.rgbw ⟨1, 2, 3, 4⟩, .rgbw ⟨5, 6, 7, 8⟩] : List Color)[1]? = some (.rgbw ⟨5, 6, 7, 8⟩) ∧
    (colorBytes (.rgbw ⟨5, 6, 7, 8⟩))[3]? = some 8 ∧ 2 < 3 := by decide

theorem witness_StepPerformsTheDecodedOperation :
    ({ idle .grb3 false true (always .ok) with host := [.perform .triplet [0x92, 0x49, 0x24]] } : State).host =
      .perform .triplet [0x92, 0x49, 0x24] :: [] ∧
    ({ idle .grb3 false true (always .ok) with host := [.perform .triplet [0x92, 0x49, 0x24]] } : State).seq = .idle ∧
    decode .triplet [0x92, 0x49, 0x24] = .ok (.encode 0) ∧ decodeTableWord 24 0x924924 = some (.encode 0) := by decide

theorem witness_StartBeginsAWrite :
    (({ idle .grb3 true true (always .ok) with host := [.start ⟨[], none⟩] } : State).takeMove =
      (.start ⟨[], none⟩, idle .grb3 true true (always .ok)) ∧ (idle .grb3 true true (always .ok)).seq = .idle) ∧
    (({ mid .grb3 true true .fetch 0 (always .ok) with host := [.start ⟨[], none⟩] } : State).takeMove =
      (.start ⟨[], none⟩, mid .grb3 true true .fetch 0 (always .ok)) ∧
      (mid .grb3 true true .fetch 0 (always .ok)).seq ≠ .idle) := by decide

theorem witness_HardwareReset :
    ({ mid .grb3 false true .fetch 0 (always .ok) with host := [.reset] } : State).takeMove =
      (.reset, mid .grb3 false true .fetch 0 (always .ok)) := by decide

theorem witness_IdleBlockWaits :
    ({ idle .grb3 false true (always .ok) with host := [.quiet] } : State).takeMove =
      (.quiet, idle .grb3 false true (always .ok)) ∧ (idle .grb3 false true (always .ok)).seq = .idle ∧
    (idle .grb3 false true (always .ok)).takeMove = (.quiet, idle .grb3 false true (always .ok)) := by decide

/-- A position with no host move: the hypotheses of the statements about the block's own steps. -/
def quietAt (s : State) (q : Seq) : Bool := s.takeMove == (.quiet, s) && s.seq == q && s.seq.existsIn s.cfg

theorem witness_FlushSendStep :
    quietAt (mid .grb3 true true (.flSend .pre 0) 0 (always .ok)) (.flSend .pre 0) ∧
    quietAt (mid .grb3 false false (.flSend .post 19) 0 (always .ok)) (.flSend .post 19) ∧
    quietAt (mid .grb3 false true (.flSend .post 5) 0 (always .wouldBlock)) (.flSend .post 5) ∧
    quietAt (mid .grb3 false true (.flSend .post 5) 0 (always (.err 5))) (.flSend .post 5) := by decide

theorem witness_FlushDrainStep :
    quietAt (mid .grb3 true true (.flDrain .pre 19) 0 (always .ok)) (.flDrain .pre 19) ∧
    quietAt (mid .grbw4 false true (.flDrain .post 0) 0 (always .ok)) (.flDrain .post 0) := by decide

theorem witness_AfterFlushPositions :
    ((18 : Fin 20).val < 19 ∧ (0 : Fin 20).val < 19) ∧ ((19 : Fin 20).val = 19 ∧ Which.pre = .pre) ∧
    ((19 : Fin 20).val = 19 ∧ Which.post = .post) := by decide

theorem witness_FetchStep :
    (quietAt { mid .grb3 false true .fetch 0 (always .ok) with colors := ⟨[.rgb ⟨1, 2, 3⟩], none⟩ } .fetch ∧
      (ColorSource.mk [.rgb ⟨1, 2, 3⟩] none).draw = (some (.rgb ⟨1, 2, 3⟩), ⟨[], none⟩) ∧
      variantOf (.rgb ⟨1, 2, 3⟩) = .grb3) ∧
    (quietAt (mid .grb3 false true .fetch 0 (always .ok)) .fetch ∧ (ColorSource.mk [] none).draw = (none, ⟨[], none⟩)) := by decide

theorem witness_EncodeStep :
    (quietAt (mid .grb3 false true (.enc 2) 0 (always .ok)) (.enc 2) ∧
      (mid .grb3 false true (.enc 2) 0 (always .ok)).pix = .holds (.rgb ⟨1, 2, 3⟩) ∧ ([2, 1, 3] : List Byte)[2]? = some 3) ∧
    (quietAt (mid .grbw4 false true (.enc 3) 0 (always .ok)) (.enc 3) ∧
      (mid .grbw4 false true (.enc 3) 0 (always .ok)).pix = .holds (.rgbw ⟨1, 2, 3, 4⟩) ∧
      ([2, 1, 3, 4] : List Byte)[3]? = some 4) := by decide

theorem witness_SymbolSendStep :
    (quietAt (mid .grb3 false true (.symSend 0 0) 0x924934 (always .ok)) (.symSend 0 0) ∧
      (mid .grb3 false true (.symSend 0 0) 0x924934 (always .ok)).acc = .holds 0x924934 ∧
      [(0x924934#24).extractLsb' 16 8, (0x924934#24).extractLsb' 8 8, (0x924934#24).extractLsb' 0 8][0]? = some 0x92#8) ∧
    quietAt (mid .grbw4 false true (.symSend 3 2) 0x9249A4 (always .ok)) (.symSend 3 2) ∧
    quietAt (mid .grb3 false true (.symSend 1 1) 0x924926 (always .wouldBlock)) (.symSend 1 1) ∧
    quietAt (mid .grb3 false true (.symSend 1 1) 0x924926 (always (.err 5))) (.symSend 1 1) := by decide

/-- The registers as reset leaves them, at the first and the last position that reads them. -/
theorem witness_UnwrittenRegistersDoNotStop :
    (quietAt { idle .grb3 false true (always .ok) with seq := .symSend 0 0 } (.symSend 0 0) ∧
      quietAt { idle .grbw4 false true (always (.err 5)) with seq := .symSend 3 2 } (.symSend 3 2) ∧
      ({ idle .grb3 false true (always .ok) with seq := .symSend 0 0 } : State).acc = .unwritten ∧
      ∃ b, [(Config.unwrittenAcc 0).extractLsb' 16 8, (Config.unwrittenAcc 0).extractLsb' 8 8,
        (Config.unwrittenAcc 0).extractLsb' 0 8][(0 : Fin 3).val]? = some b) ∧
    (quietAt { idle .grbw4 false true (always .ok) with seq := .enc 3 } (.enc 3) ∧
      ({ idle .grbw4 false true (always .ok) with seq := .enc 3 } : State).pix = .unwritten ∧
      (order .grbw4)[(3 : Fin 4).val]? = some .w) :=
  ⟨⟨by decide, by decide, rfl, _, rfl⟩, by decide, rfl, rfl⟩

/-- V8's positions, entered with nothing written since reset: the step is made. -/
theorem test_unwritten_runs :
    (after (step { idle .grb3 false true (always .ok) with seq := .symSend 0 2 })).map (·.seq) = some (.enc 1) ∧
    (after (step { idle .grb3 false true (always .ok) with seq := .enc 1 })).map (·.seq) = some (.symSend 1 0) :=
  ⟨rfl, rfl⟩

theorem witness_SymbolDrainStep :
    quietAt (mid .grb3 false true (.symDrain 0 1) 0x924934 (always .ok)) (.symDrain 0 1) ∧
    quietAt (mid .grbw4 false true (.symDrain 3 0) 0x9249A4 (always .ok)) (.symDrain 3 0) := by decide

theorem witness_AfterSymbolPositions :
    ((2 : Fin 4).val < chCount (mid .grb3 false true .fetch 0 (always .ok)).cfg.variant ∧ (1 : Fin 3).val < 2) ∧
    ((2 : Fin 4).val < chCount .grbw4 - 1 ∧ (2 : Fin 3).val = 2 ∧ (3 : Fin 4).val = (2 : Fin 4).val + 1) ∧
    ((2 : Fin 4).val = chCount .grb3 - 1 ∧ (3 : Fin 4).val = chCount .grbw4 - 1) := by decide

theorem witness_FailedSendAborts :
    (quietAt (mid .grb3 false true (.symSend 1 1) 0x924926 (always (.err 5))) (.symSend 1 1) ∧
      (mid .grb3 false true (.symSend 1 1) 0x924926 (always (.err 5))).offeredByte = some 0x49 ∧
      (always (.err 5)).draw = (.err 5, always (.err 5)) ∧
      (mid .grb3 false true (.symSend 1 1) 0x924926 (always (.err 5))).host = []) ∧
    (quietAt (mid .grb3 true true (.flSend .pre 19) 0 (always (.err 0))) (.flSend .pre 19) ∧
      (mid .grb3 true true (.flSend .pre 19) 0 (always (.err 0))).offeredByte = some 0x00 ∧
      (always (.err 0)).draw = (.err 0, always (.err 0))) := by decide

theorem witness_MeaninglessStepsAreRefused :
    ((mid .grb3 false true (.enc 3) 0 (always .ok)).takeMove = (.quiet, mid .grb3 false true (.enc 3) 0 (always .ok)) ∧
      (mid .grb3 false true (.enc 3) 0 (always .ok)).seq.existsIn (mid .grb3 false true (.enc 3) 0 (always .ok)).cfg = false) ∧
    ((mid .grb3 false true (.flDrain .pre 0) 0 (always .ok)).takeMove =
        (.quiet, mid .grb3 false true (.flDrain .pre 0) 0 (always .ok)) ∧
      (mid .grb3 false true (.flDrain .pre 0) 0 (always .ok)).cfg.hasRx = true ∧
      (mid .grb3 false true (.flDrain .pre 0) 0 (always .ok)).cfg.idleHigh = false ∧
      (mid .grb3 false true (.flDrain .pre 0) 0 (always .ok)).seq.existsIn ⟨.grb3, false, true⟩ = false) ∧
    ((ColorSource.mk [.rgbw ⟨1, 2, 3, 4⟩] none).draw.1 = some (.rgbw ⟨1, 2, 3, 4⟩) ∧ variantOf (.rgbw ⟨1, 2, 3, 4⟩) ≠ .grb3 ∧
      quietAt { mid .grb3 false true .fetch 0 (always .ok) with colors := ⟨[.rgbw ⟨1, 2, 3, 4⟩], none⟩ } .fetch) ∧
    (({ mid .grb3 false true .fetch 0 (always .ok) with host := [.perform .empty []] } : State).takeMove =
      (.perform .empty [], mid .grb3 false true .fetch 0 (always .ok))) ∧
    (({ idle .grb3 false true (always .ok) with host := [.perform .sym [5]] } : State).takeMove =
      (.perform .sym [5], idle .grb3 false true (always .ok)) ∧ decode .sym [5] = .error .notASymbol) := by decide

theorem witness_EveryPositionHasAStep :
    (mid .grb3 false true (.symSend 1 1) 0x924926 (always .wouldBlock)).inv = true ∧
    (mid .grb3 false true (.symSend 1 1) 0x924926 (always .wouldBlock)).disciplined = true ∧
    (mid .grbw4 true true (.enc 3) 0 (always (.err 5))).inv = true ∧
    (mid .grbw4 true true (.enc 3) 0 (always (.err 5))).disciplined = true := by decide

theorem witness_StepsMoveOnOrRetry :
    (∃ t, step (mid .grb3 false true (.symSend 1 1) 0x924926 (always .wouldBlock)) = .next t ∧
      (Seq.symSend 1 1).isSend = true ∧ (always .wouldBlock).draw.1 = .wouldBlock) ∧
    (∃ t, step (mid .grb3 false true (.symSend 1 1) 0x924926 (always .ok)) = .next t ∧
      Seq.symSend 1 1 ≠ .idle ∧ ¬ ((Seq.symSend 1 1).isSend = true ∧ (always .ok).draw.1 = .wouldBlock)) :=
  ⟨⟨_, rfl, rfl, rfl⟩, ⟨_, rfl, by decide, by decide⟩⟩

theorem witness_ConfigurationIsFixed : ∃ t, step (mid .grb3 false true .fetch 0 (always .ok)) = .next t := ⟨_, rfl⟩

/-- The channel count of one variant with the order of the other, and neither. -/
theorem witness_ConfigurationsOutsideTheTableAreRefused :
    (¬ ((⟨3, [.g, .r, .b, .w], 3000000, false, true⟩ : RawCfg).chCount = 3 ∧
        (⟨3, [.g, .r, .b, .w], 3000000, false, true⟩ : RawCfg).order = [.g, .r, .b]) ∧
      ¬ ((⟨3, [.g, .r, .b, .w], 3000000, false, true⟩ : RawCfg).chCount = 4 ∧
        (⟨3, [.g, .r, .b, .w], 3000000, false, true⟩ : RawCfg).order = [.g, .r, .b, .w])) ∧
    (¬ ((⟨5, [.r], 0, false, true⟩ : RawCfg).chCount = 3 ∧ (⟨5, [.r], 0, false, true⟩ : RawCfg).order = [.g, .r, .b]) ∧
      ¬ ((⟨5, [.r], 0, false, true⟩ : RawCfg).chCount = 4 ∧
        (⟨5, [.r], 0, false, true⟩ : RawCfg).order = [.g, .r, .b, .w])) := by decide

theorem witness_OneInteractionPerStep :
    (mid .grb3 false true (.flDrain .post 19) 0 (always .ok)).disciplined = true ∧
    (mid .grb3 false true (.flDrain .post 19) 0 (always .ok)).takeMove.1 ≠ .reset ∧
    ∃ t, step (mid .grb3 false true (.flDrain .post 19) 0 (always .ok)) = .next t :=
  ⟨by decide, by decide, _, rfl⟩

theorem witness_ErrorsComeFromSends :
    (mid .grb3 false true (.symSend 1 1) 0x924926 (always (.err 5))).disciplined = true ∧
    ∃ t, step (mid .grb3 false true (.symSend 1 1) 0x924926 (always (.err 5))) = .next t ∧ t.res = .err 5 ∧
      (mid .grb3 false true (.symSend 1 1) 0x924926 (always (.err 5))).res ≠ .err 5 :=
  ⟨by decide, _, rfl, by decide, by decide⟩

/-- A step of each writer: `ENC`, `FETCH`, `Start`, `Finish`, abort. -/
theorem witness_RegistersHaveOneWriter :
    (∃ t, step (mid .grb3 false true (.enc 0) 7 (always .ok)) = .next t ∧ t.acc ≠ .holds 7) ∧
    (∃ t, step { mid .grb3 false true .fetch 0 (always .ok) with colors := ⟨[.rgb ⟨9, 9, 9⟩], none⟩ } = .next t ∧
      t.pix ≠ .holds (.rgb ⟨1, 2, 3⟩)) ∧
    (∃ t, step { idle .grb3 false true (always .ok) with res := .ok, host := [.start ⟨[], none⟩] } = .next t ∧ t.res ≠ .ok) ∧
    (∃ t, step (mid .grb3 false false (.flSend .post 19) 0 (always .ok)) = .next t ∧ t.res ≠ .none) ∧
    (∃ t, step (mid .grb3 false false (.flSend .post 19) 0 (always (.err 5))) = .next t ∧ t.res ≠ .none) ∧
    (mid .grb3 false true (.enc 0) 7 (always .ok)).disciplined = true ∧
    ({ idle .grb3 false true (always .ok) with res := .ok, host := [.start ⟨[], none⟩] } : State).disciplined = true ∧
    (mid .grb3 false true (.enc 0) 7 (always .ok)).takeMove.1 ≠ .reset :=
  ⟨⟨_, rfl, by decide⟩, ⟨_, rfl, by decide⟩, ⟨_, rfl, by decide⟩, ⟨_, rfl, by decide⟩, ⟨_, rfl, by decide⟩,
    by decide, by decide, by decide⟩

theorem witness_DeliveryEndsTheWrite :
    (mid .grb3 false true (.flDrain .post 19) 0 (always .ok)).disciplined = true ∧
    (mid .grb3 false true (.flDrain .post 19) 0 (always .ok)).takeMove.1 ≠ .reset ∧
    (∃ t, step (mid .grb3 false true (.flDrain .post 19) 0 (always .ok)) = .next t ∧ t.seq = .idle) ∧
    (∃ t, step (mid .grb3 false true (.flDrain .post 18) 0 (always .ok)) = .next t ∧ t.seq ≠ .idle) :=
  ⟨by decide, by decide, ⟨_, rfl, by decide⟩, ⟨_, rfl, by decide⟩⟩

theorem witness_WireBytesAreLegal :
    ((mid .grb3 false true (.symSend 0 2) 0x924934 (always .ok)).inv = true ∧
      (mid .grb3 false true (.symSend 0 2) 0x924934 (always .ok)).disciplined = true ∧
      ∃ t, step (mid .grb3 false true (.symSend 0 2) 0x924934 (always .ok)) = .next t) ∧
    ((mid .grb3 true true (.flSend .pre 0) 0 (always .ok)).inv = true ∧
      ∃ t, step (mid .grb3 true true (.flSend .pre 0) 0 (always .ok)) = .next t) ∧
    ((mid .grb3 true true .fetch 0 (always .ok)).inv = true ∧
      ∃ t, step (mid .grb3 true true .fetch 0 (always .ok)) = .next t) :=
  ⟨⟨by decide, by decide, _, rfl⟩, ⟨by decide, _, rfl⟩, ⟨by decide, _, rfl⟩⟩

theorem witness_ResetMeetsTheInvariant :
    ([.start ⟨[.rgb ⟨1, 2, 3⟩], none⟩, .quiet, .reset] : List HostMove).all (fun m => m.fits .grb3) = true := by decide

theorem witness_StepKeepsTheInvariant :
    (mid .grbw4 false true (.symSend 3 2) 0x9249A4 (always .ok)).inv = true ∧
    ∃ t, step (mid .grbw4 false true (.symSend 3 2) 0x9249A4 (always .ok)) = .next t :=
  ⟨by decide, _, rfl⟩

/-- A state for each clause; the fault is a bench SEND that never returns. -/
theorem witness_NoStepReadsAnUnwrittenRegister :
    ((mid .grbw4 false true (.enc 3) 0 (always .ok)).inv = true ∧ (mid .grb3 false true (.enc 2) 0 (always .ok)).inv = true) ∧
    ((mid .grb3 false true (.symSend 2 2) 0x924936 (always .ok)).inv = true ∧
      (mid .grb3 false true (.symDrain 0 1) 0x924934 (always .ok)).inv = true) ∧
    (({ idle .grb3 false true (always .wouldBlock) with host := [.perform .byte [7]] } : State).inv = true ∧
      faultOf (step { idle .grb3 false true (always .wouldBlock) with host := [.perform .byte [7]] }) = some .neverEnds) := by
  decide

theorem witness_NoRunReadsAnUnwrittenRegister :
    ([.start ⟨[.rgb ⟨1, 2, 3⟩], none⟩] : List HostMove).all (fun m => m.fits .grb3) = true ∧
    ∃ t : State, Host.Core.run Sys2Proof.core 3
      ({ State.reset with host := [.start ⟨[.rgb ⟨1, 2, 3⟩], none⟩] } : State) = .next t ∧ t.seq = .symSend 0 0 :=
  ⟨by decide, _, rfl, by decide⟩

theorem witness_SendOutcomes :
    settle ⟨[.wouldBlock, .wouldBlock], .ok⟩ = some (2, .ok, ⟨[], .ok⟩) ∧
    settle ⟨[.err 5], .ok⟩ = some (0, .err 5, ⟨[], .ok⟩) ∧ (idle .grb3 false true (always .ok)).seq = .idle := by decide

theorem witness_DrainOutcome :
    (idle .grb3 false false (always .ok)).cfg.hasRx = false ∧ (idle .grb3 false true (always .ok)).cfg.hasRx = true ∧
    (idle .grb3 false true (always .ok)).seq = .idle := by decide

theorem witness_EncodeOutcomes :
    ((idle .grb3 false true (okThen 3 .wouldBlock)).seq = .idle ∧ okBefore (okThen 3 .wouldBlock) 3) ∧
    ((mid .grbw4 false true (.enc 3) 0 (okThen 2 (.err 5))).seq = .enc 3 ∧ (encodePlan 0xA5)[2]? = some (0xA6, false) ∧
      okBefore (okThen 2 (.err 5)) 2 ∧ offer (okThen 2 (.err 5)) 2 = .err 5) ∧
    ((encodePlan 0xA5)[0]? = some (0xD3, true) ∧ okBefore (always (.err 5)) 0 ∧ offer (always (.err 5)) 0 = .err 5) := by decide

theorem witness_FlushOutcomes :
    ((idle .grb3 false true (okThen 20 .wouldBlock)).seq = .idle ∧ okBefore (okThen 20 .wouldBlock) 20) ∧
    (mid .grb3 true true (.flSend .pre 0) 0 (always .ok)).seq = .flSend .pre 0 ∧
    (mid .grb3 false false (.flSend .post 0) 0 (always .ok)).seq = .flSend .post 0 ∧
    (19 < 20 ∧ okBefore (okThen 19 (.err 5)) 19 ∧ offer (okThen 19 (.err 5)) 19 = .err 5) ∧
    (0 < 20 ∧ okBefore (always (.err 5)) 0 ∧ offer (always (.err 5)) 0 = .err 5) := by decide +kernel

theorem witness_PixelGrbOutcomes :
    ((idle .grbw4 false true (always .ok)).seq = .idle ∧ (idle .grbw4 false true (always .ok)).cfg.variant ≠ .grb3) ∧
    ((mid .grb3 false true (.enc 0) 0 (okThen 9 .wouldBlock)).seq = .enc 0 ∧ okBefore (okThen 9 .wouldBlock) 9) ∧
    ((idle .grb3 false true (okThen 8 (.err 5))).cfg.variant = .grb3 ∧ 2 < 3 ∧ okBefore (okThen 8 (.err 5)) (3 * 2 + 2) ∧
      offer (okThen 8 (.err 5)) (3 * 2 + 2) = .err 5) ∧
    (okBefore (always (.err 5)) (3 * 0 + 0) ∧ offer (always (.err 5)) (3 * 0 + 0) = .err 5) := by decide +kernel

theorem witness_PixelGrbwOutcomes :
    ((idle .grb3 false true (always .ok)).seq = .idle ∧ (idle .grb3 false true (always .ok)).cfg.variant ≠ .grbw4) ∧
    ((mid .grbw4 false true (.enc 0) 0 (okThen 12 .wouldBlock)).seq = .enc 0 ∧ okBefore (okThen 12 .wouldBlock) 12) ∧
    ((idle .grbw4 false true (okThen 11 (.err 5))).cfg.variant = .grbw4 ∧ 3 < 4 ∧ 2 < 3 ∧
      okBefore (okThen 11 (.err 5)) (3 * 3 + 2) ∧ offer (okThen 11 (.err 5)) (3 * 3 + 2) = .err 5) ∧
    (okBefore (always (.err 5)) (3 * 0 + 0) ∧ offer (always (.err 5)) (3 * 0 + 0) = .err 5) := by decide +kernel

theorem witness_OperationsThatNeverReturn :
    settle ⟨[.wouldBlock], .wouldBlock⟩ = none ∧ (idle .grb3 false true (always .wouldBlock)).seq = .idle ∧
    (okBefore (always .wouldBlock) 0 ∧ offer (always .wouldBlock) 0 = .wouldBlock) ∧
    (okBefore (okThen 2 .wouldBlock) 2 ∧ offer (okThen 2 .wouldBlock) 2 = .wouldBlock) ∧
    (okBefore (okThen 8 .wouldBlock) 8 ∧ offer (okThen 8 .wouldBlock) 8 = .wouldBlock) ∧
    (okBefore (okThen 11 .wouldBlock) 11 ∧ offer (okThen 11 .wouldBlock) 11 = .wouldBlock) ∧
    (okBefore (okThen 19 .wouldBlock) 19 ∧ offer (okThen 19 .wouldBlock) 19 = .wouldBlock) := by decide +kernel

theorem witness_GrbWriteCompletes :
    (idle .grb3 true true (okThen 49 .wouldBlock)).cfg.variant = .grb3 ∧
    (idle .grb3 true true (okThen 49 .wouldBlock)).seq = .idle ∧
    okBefore (okThen 49 .wouldBlock) (preLength ⟨.grb3, true, true⟩ + 9 * ([⟨1, 2, 3⟩] : List Rgb).length + 20) := by decide +kernel

theorem witness_GrbwWriteCompletes :
    (idle .grbw4 false false (okThen 32 .wouldBlock)).cfg.variant = .grbw4 ∧
    (idle .grbw4 false false (okThen 32 .wouldBlock)).seq = .idle ∧
    okBefore (okThen 32 .wouldBlock) (preLength ⟨.grbw4, false, false⟩ + 12 * ([⟨1, 2, 3, 4⟩] : List Rgbw).length + 20) := by
  decide +kernel

/-- The frame of P1, 29 bytes: all answered; the first, the last and a byte of the pixel data failed; a byte never
settled. -/
theorem witness_WriteIsAFunctionOfItsEnvironment :
    writesOf (.writeGrb [⟨1, 2, 3⟩]) = some ((idle .grb3 false true (always .ok)).cfg.variant, [.rgb ⟨1, 2, 3⟩]) ∧
    (idle .grb3 false true (always .ok)).seq = .idle ∧
    (frameOf ⟨.grb3, false, true⟩ [.rgb ⟨1, 2, 3⟩]).length = 29 ∧ okBefore (okThen 29 .wouldBlock) 29 ∧
    (0 < 29 ∧ okBefore (always (.err 5)) 0 ∧ offer (always (.err 5)) 0 = .err 5) ∧
    (28 < 29 ∧ okBefore (okThen 28 (.err 5)) 28 ∧ offer (okThen 28 (.err 5)) 28 = .err 5) ∧
    (8 < 29 ∧ preLength ⟨.grb3, false, true⟩ ≤ 8 ∧ 8 < preLength ⟨.grb3, false, true⟩ + 3 * chCount .grb3 * 1 ∧
      okBefore (okThen 8 (.err 5)) 8 ∧ offer (okThen 8 (.err 5)) 8 = .err 5) ∧
    (([.rgb ⟨1, 2, 3⟩, .rgb ⟨7, 7, 7⟩] : List Color).take (pulledBefore ⟨.grb3, false, true⟩ 1 8) =
      ([.rgb ⟨1, 2, 3⟩] : List Color).take (pulledBefore ⟨.grb3, false, true⟩ 1 8)) ∧
    (okBefore (okThen 28 .wouldBlock) 28 ∧ offer (okThen 28 .wouldBlock) 28 = .wouldBlock) := by decide +kernel

theorem witness_WriteByteAndReceiveCounts :
    ∃ t, exec (.writeGrb [⟨1, 2, 3⟩]) (idle .grb3 false true (always .ok)) = .next t ∧ t.res = .ok ∧
      (idle .grb3 false true (always .ok)).seq = .idle ∧ (idle .grb3 false true (always .ok)).cfg.hasRx = true ∧
      (idle .grb3 false false (always .ok)).cfg.hasRx = false ∧
      writesOf (.writeGrb [⟨1, 2, 3⟩]) = some ((idle .grb3 false true (always .ok)).cfg.variant, [.rgb ⟨1, 2, 3⟩]) :=
  ⟨_, rfl, by decide +kernel, by decide, by decide, by decide, by decide⟩

theorem witness_WriteOutsideItsConditionsIsRefused :
    writesOf (.writeGrb []) = some (.grb3, []) ∧ (idle .grbw4 false true (always .ok)).cfg.variant ≠ .grb3 ∧
    (mid .grb3 false true .fetch 0 (always .ok)).cfg.variant = .grb3 ∧ (mid .grb3 false true .fetch 0 (always .ok)).seq ≠ .idle := by
  decide

theorem witness_FunctionalAndStepFormsAgree :
    writesOf (.writeGrbw []) = some ((idle .grbw4 false true (always .ok)).cfg.variant, []) ∧
    (idle .grbw4 false true (always .ok)).seq = .idle ∧ (idle .grbw4 false true (always .ok)).host = [] ∧
    (after (exec (.writeGrbw []) (idle .grbw4 false true (always .ok)))).isSome = true ∧
    faultOf (exec (.writeGrbw []) (idle .grbw4 false true (always .wouldBlock))) = some .neverEnds := by decide +kernel

theorem witness_DrainAnswersInfluenceNothing :
    sameButRx (mid .grb3 false true (.symDrain 0 1) 0x924934 (always .ok))
      { mid .grb3 false true (.symDrain 0 1) 0x924934 (always .ok) with rx := ⟨[.ok 7], .err 3⟩ } := by decide

theorem witness_WriteDependsOnFinalAnswersOnly :
    writesOf (.writeGrb [⟨1, 2, 3⟩]) = some (.grb3, [.rgb ⟨1, 2, 3⟩]) ∧
    (idle .grb3 false true ⟨[.wouldBlock], .ok⟩).cfg.variant = (mid .grb3 false false .idle 7 (always .ok)).cfg.variant ∧
    (idle .grb3 false true ⟨[.wouldBlock], .ok⟩).cfg.idleHigh = (mid .grb3 false false .idle 7 (always .ok)).cfg.idleHigh ∧
    (idle .grb3 false true ⟨[.wouldBlock], .ok⟩).seq = .idle ∧ (mid .grb3 false false .idle 7 (always .ok)).seq = .idle ∧
    (∀ n, offer ⟨[.wouldBlock], .ok⟩ n = offer (always .ok) n) ∧
    wireOf (idle .grb3 false true ⟨[.wouldBlock], .ok⟩).trace = wireOf (mid .grb3 false false .idle 7 (always .ok)).trace ∧
    pulledOf (idle .grb3 false true ⟨[.wouldBlock], .ok⟩).trace = pulledOf (mid .grb3 false false .idle 7 (always .ok)).trace :=
  ⟨by decide, by decide, by decide, by decide, by decide, fun _ => rfl, by decide, by decide⟩

theorem witness_AWriteNeedNotEnd :
    ((mid .grb3 false true (.symSend 1 1) 0x924926 (always .wouldBlock)).host = [] ∧
      quietAt (mid .grb3 false true (.symSend 1 1) 0x924926 (always .wouldBlock)) (.symSend 1 1) ∧
      (mid .grb3 false true (.symSend 1 1) 0x924926 (always .wouldBlock)).offeredByte = some 0x49 ∧
      (mid .grb3 false true (.symSend 1 1) 0x924926 (always .wouldBlock)).tx = ⟨[], .wouldBlock⟩) ∧
    (({ mid .grb3 false true .fetch 0 (always .ok) with colors := ⟨[], some (.rgb ⟨1, 2, 3⟩)⟩ } : State).inv = true ∧
      ∀ e : ErrTag, (always .ok).after ≠ .err e ∧ TxAnswer.err e ∉ (always .ok).answers) :=
  ⟨by decide, by decide, fun e => ⟨by simp [always], by simp [always]⟩⟩

end Sys2Proof.Tests
end

/-! Scope and configuration (spec/00_scope.md): which configurations are built, what the bench performs, that no step
changes `Cfg`, and that a step makes at most one interaction. -/

namespace Sys2Proof.Machine

/-! ### Building a configuration (R10, R68) -/

/-- A variant's count, order and clock build that variant, with the two flags. -/
theorem build?_of_row {c : RawCfg} (v : Variant) (hcount : c.chCount = chCount v) (horder : c.order = order v)
    (hclock : c.spiHz = Config.spiHz v) : c.build? = some ⟨v, c.idleHigh, c.hasRx⟩ := by
  cases v <;> simp [RawCfg.build?, hcount, horder, hclock, chCount, order]

/-- What is built has the count, order and clock of its variant, and the two flags. -/
theorem row_of_build? {c : RawCfg} {cfg : Cfg} (h : c.build? = some cfg) :
    c.chCount = chCount cfg.variant ∧ c.order = order cfg.variant ∧ c.spiHz = Config.spiHz cfg.variant ∧
      cfg.idleHigh = c.idleHigh ∧ cfg.hasRx = c.hasRx := by
  unfold RawCfg.build? at h
  split at h
  · rename_i hrow
    obtain ⟨hcount, horder, hclock⟩ := hrow
    cases h
    exact ⟨hcount, horder, hclock, rfl, rfl⟩
  · split at h
    · rename_i hrow
      obtain ⟨hcount, horder, hclock⟩ := hrow
      cases h
      exact ⟨hcount, horder, hclock, rfl, rfl⟩
    · cases h

/-- Settles O29: what is built fits its row, every row is built, and count and order alone decide a refusal. -/
theorem configurationsOutsideTheTableAreRefused : Obligations.ConfigurationsOutsideTheTableAreRefused := by
  intro c
  refine ⟨fun cfg => ⟨row_of_build?, ?_⟩, ?_⟩
  · rintro ⟨hcount, horder, hclock, hidle, hrx⟩
    rw [build?_of_row cfg.variant hcount horder hclock, ← hidle, ← hrx]
  · intro h3 h4
    cases hb : c.build? with
    | none => rfl
    | some cfg =>
      obtain ⟨hcount, horder, -⟩ := row_of_build? hb
      cases hv : cfg.variant with
      | grb3 => rw [hv] at hcount horder; exact absurd ⟨hcount, horder⟩ h3
      | grbw4 => rw [hv] at hcount horder; exact absurd ⟨hcount, horder⟩ h4

/-! ### The bench (notes/assumptions/5.md) -/

/-- The move at the head of the queue is the one taken. -/
theorem takeMove_cons {s : State} {m : HostMove} {rest : List HostMove} (h : s.host = m :: rest) :
    s.takeMove = (m, { s with host := rest }) := by
  simp [State.takeMove, h]

/-- A bench move on an idle block performs the operation its bytes decode to. -/
theorem step_perform {s s1 : State} {f : Format} {bs : List Byte} {i : Instr}
    (hm : s.takeMove = (.perform f bs, s1)) (hi : s1.seq = .idle) (hd : decode f bs = .ok i) :
    step s = exec i s1 := by
  have hb : s1.benchInstr f bs = .ok i := by
    simp [State.benchInstr, (busy_eq_false_iff s1).2 hi, hd]
  simp [step, hm, hb]

/-- A table word the decoder reads decodes in the format it is read in. -/
theorem decode_of_decodeTableWord {nbits w : Nat} {i : Instr} (h : decodeTableWord nbits w = some i) :
    decode (tableFormat nbits w) (tableBytes nbits w) = .ok i := by
  unfold decodeTableWord at h
  split at h
  · rename_i j hj
    cases h
    exact hj
  · cases h

/-- Settles O11: the bench move at the head of the queue is taken, and `withFetchWord` puts one there. -/
theorem stepPerformsTheDecodedOperation : Obligations.StepPerformsTheDecodedOperation := by
  refine ⟨?_, ?_⟩
  · intro s f bs rest i hh hi hd
    exact step_perform (takeMove_cons hh) hi hd
  · intro s nbits w i h
    exact step_perform (s := s.withFetchWord nbits w) (takeMove_cons rfl) rfl (decode_of_decodeTableWord h)

/-! ### `Cfg` along the functional forms -/

/-- Every state in which a flow ends, with `Ok` or after the abort, satisfies `P`. -/
def Flow.Ends (P : State → Prop) : Flow → Prop
  | .ok s => P s
  | .err _ s => P s
  | .never => True

theorem Flow.Ends.andThen {P : State → Prop} {f : Flow} {next : State → Flow} (hf : f.Ends P)
    (hnext : ∀ s, P s → (next s).Ends P) : (f.andThen next).Ends P := by
  cases f with
  | ok s => exact hnext s hf
  | err e s => exact hf
  | never => trivial

/-- What holds at every end of a flow, whatever the ghost `ret`, holds of the state answered. -/
theorem Flow.Ends.answer {P : State → Prop} {f : Flow} {t : State} (hf : f.Ends P)
    (hret : ∀ (s : State) (r : Returned), P s → P { s with ret := r }) (h : f.answer = .next t) : P t := by
  cases f with
  | ok s => cases h; exact hret s _ hf
  | err e s => cases h; exact hret s _ hf
  | never => cases h

/-- Every end of the flow has the configuration `c`. -/
abbrev Flow.HasCfg (c : Cfg) (f : Flow) : Prop := f.Ends fun t => t.cfg = c

theorem sendByte_hasCfg {c : Cfg} (v : Byte) {s : State} (h : s.cfg = c) : (s.sendByte v).HasCfg c := by
  rw [sendByte_eq]
  split <;> simp [Flow.Ends, h]

theorem encodeByte_hasCfg {c : Cfg} (b : Byte) {s : State} (h : s.cfg = c) : (s.encodeByte b).HasCfg c :=
  (sendByte_hasCfg _ (by simp [h])).andThen fun _ h1 =>
    (sendByte_hasCfg _ (by simp [h1])).andThen fun _ h2 => sendByte_hasCfg _ (by simp [h2])

theorem flushBytes_hasCfg {c : Cfg} (n : Nat) {s : State} (h : s.cfg = c) : (s.flushBytes n).HasCfg c := by
  induction n generalizing s with
  | zero => exact h
  | succ n ih => exact (sendByte_hasCfg _ h).andThen fun _ h1 => ih (by simp [h1])

theorem encodeAll_hasCfg {c : Cfg} (bs : List Byte) {s : State} (h : s.cfg = c) : (s.encodeAll bs).HasCfg c := by
  induction bs generalizing s with
  | nil => exact h
  | cons b bs ih => exact (encodeByte_hasCfg b h).andThen fun _ h1 => ih h1

theorem writeLoop_hasCfg {c : Cfg} (n : Nat) {s : State} (h : s.cfg = c) : (s.writeLoop n).HasCfg c := by
  induction n generalizing s with
  | zero => trivial
  | succ n ih =>
    have h1 : s.nextColor.2.cfg = c := by simp [h]
    unfold State.writeLoop
    rcases hn : s.nextColor with ⟨_ | p, s1⟩ <;> rw [hn] at h1
    · exact flushBytes_hasCfg _ h1
    · exact (encodeAll_hasCfg _ (s := s1.loadPix p) h1).andThen fun _ h2 => ih h2

theorem writeAll_hasCfg {c : Cfg} {s : State} (h : s.cfg = c) : s.writeAll.HasCfg c := by
  unfold State.writeAll
  split
  · exact (flushBytes_hasCfg _ h).andThen fun _ h1 => writeLoop_hasCfg _ h1
  · exact writeLoop_hasCfg _ h

theorem answer_cfg {f : Flow} {c : Cfg} {t : State} (hf : f.HasCfg c) (h : f.answer = .next t) : t.cfg = c :=
  hf.answer (fun _ _ hs => hs) h

theorem write_cfg {v : Variant} {cs : List Color} {s t : State} (h : s.write v cs = .next t) : t.cfg = s.cfg := by
  unfold State.write at h
  split at h
  · cases h
  · split at h
    · cases h
    · exact answer_cfg (writeAll_hasCfg (acceptStart_cfg s _)) h

/-- R27: no operation changes the configuration. -/
theorem exec_cfg {i : Instr} {s t : State} (h : exec i s = .next t) : t.cfg = s.cfg := by
  cases i with
  | sym0 => cases h; rfl
  | sym1 => cases h; rfl
  | t b => cases h; rfl
  | encode b => exact answer_cfg (encodeByte_hasCfg b rfl) h
  | send v => exact answer_cfg (sendByte_hasCfg v rfl) h
  | drain => cases h; exact drain_cfg s
  | flush => exact answer_cfg (flushBytes_hasCfg _ rfl) h
  | pixelGrb r g b =>
    simp only [exec, execPixelGrb] at h
    split at h
    · exact answer_cfg (encodeAll_hasCfg _ rfl) h
    · cases h
  | pixelGrbw r g b w =>
    simp only [exec, execPixelGrbw] at h
    split at h
    · exact answer_cfg (encodeAll_hasCfg _ rfl) h
    · cases h
  | writeGrb cs => exact write_cfg h
  | writeGrbw cs => exact write_cfg h

/-! ### `Cfg` along the step -/

@[simp] theorem attempt_cfg (v : Byte) (s : State) : (s.attempt v).2.cfg = s.cfg := by
  rw [attempt_eq]
  split <;> simp

@[simp] theorem takeMove_cfg (s : State) : s.takeMove.2.cfg = s.cfg := by
  rw [takeMove_state]

/-- R27: the block's own step keeps the configuration. -/
theorem stepOwn_cfg {s t : State} (h : s.stepOwn = .next t) : t.cfg = s.cfg := by
  obtain ⟨-, ⟨-, rfl⟩ | ⟨_, _, -, rfl⟩ | ⟨_, _, -, rfl⟩ | ⟨_, _, -, rfl⟩ | ⟨-, -, rfl⟩ | ⟨_, -, -, -, rfl⟩ |
    ⟨_, _, -, -, rfl⟩ | ⟨_, _, -, rfl⟩⟩ := stepOwn_next h <;> simp

/-- Settles O28, by the four kinds of step. -/
theorem configurationIsFixed : Obligations.ConfigurationIsFixed := by
  intro s t h
  rw [← takeMove_cfg s]
  obtain ⟨-, hown⟩ | ⟨source, -, -, rfl⟩ | ⟨-, rfl⟩ | ⟨f, bs, i, -, -, -, hexec⟩ := step_next h
  · exact stepOwn_cfg hown
  · rfl
  · rfl
  · exact exec_cfg hexec

/-! ### The events of one step (R7, R15) -/

/-- From `tr` to `tr'` at most a delivery of the result was added. -/
def AddsDelivery (tr tr' : List Event) : Prop := tr' = tr ∨ ∃ r : Delivered, tr' = tr ++ [.done r]

/-- From `tr` to `tr'` nothing was added, or one interaction and at most a delivery after it. -/
def AddsInteraction (tr tr' : List Event) : Prop :=
  tr' = tr ∨ ∃ ev : Event, deliveredOf [ev] = [] ∧ AddsDelivery (tr ++ [ev]) tr'

theorem afterFlush_addsDelivery (s : State) (w : Which) (k : Fin 20) :
    AddsDelivery s.trace (s.afterFlush w k).trace := by
  unfold State.afterFlush
  split
  · exact .inl rfl
  · cases w with
    | pre => exact .inl rfl
    | post => exact .inr ⟨.ok, rfl⟩

theorem afterSend_addsDelivery (s : State) : AddsDelivery s.trace s.afterSend.trace := by
  cases hq : s.seq with
  | flSend w k =>
    rw [afterSend_flSend s w k hq]
    split
    · exact .inl rfl
    · exact afterFlush_addsDelivery s w k
  | symSend c j =>
    rw [afterSend_symSend s c j hq]
    split
    · exact .inl rfl
    · exact .inl (afterSym_trace s c j)
  | _ => exact .inl (by simp [State.afterSend, hq])

theorem afterDrain_addsDelivery (s : State) : AddsDelivery s.trace s.afterDrain.trace := by
  cases hq : s.seq with
  | flDrain w k => rw [afterDrain_flDrain s w k hq]; exact afterFlush_addsDelivery s w k
  | symDrain c j => rw [afterDrain_symDrain s c j hq]; exact .inl (afterSym_trace s c _)
  | _ => exact .inl (by simp [State.afterDrain, hq])

/-- An attempt is the interaction; moving on or the abort may deliver. -/
theorem attempt_addsInteraction (v : Byte) (s : State) : AddsInteraction s.trace (s.attempt v).2.trace := by
  rw [attempt_eq]
  split
  · exact .inr ⟨.tx v, rfl, afterSend_addsDelivery _⟩
  · exact .inr ⟨.txwb v, rfl, .inl rfl⟩
  · exact .inr ⟨.txerr v _, rfl, .inr ⟨_, rfl⟩⟩

theorem nextColor_addsInteraction (s : State) : AddsInteraction s.trace s.nextColor.2.trace := by
  unfold State.nextColor
  split
  · exact .inr ⟨.pull _, rfl, .inl rfl⟩
  · exact .inr ⟨.pullEnd, rfl, .inl rfl⟩

theorem tryRecv_afterDrain_addsInteraction (s : State) : AddsInteraction s.trace s.tryRecv.afterDrain.trace :=
  .inr ⟨.rx, rfl, afterDrain_addsDelivery s.tryRecv⟩

/-- R7: the block's own step makes at most one interaction. -/
theorem stepOwn_addsInteraction {s t : State} (h : s.stepOwn = .next t) : AddsInteraction s.trace t.trace := by
  obtain ⟨-, ⟨-, rfl⟩ | ⟨_, _, -, rfl⟩ | ⟨_, _, -, rfl⟩ | ⟨_, _, -, rfl⟩ | ⟨-, -, rfl⟩ | ⟨_, -, -, -, rfl⟩ |
    ⟨_, _, -, -, rfl⟩ | ⟨_, _, -, rfl⟩⟩ := stepOwn_next h
  · exact .inl rfl
  · exact attempt_addsInteraction _ s
  · exact tryRecv_afterDrain_addsInteraction s
  · exact tryRecv_afterDrain_addsInteraction s
  · exact nextColor_addsInteraction s
  · exact nextColor_addsInteraction s
  · exact .inl (loadAcc_trace s _)
  · exact attempt_addsInteraction _ s

@[simp] theorem takeMove_trace (s : State) : s.takeMove.2.trace = s.trace := by
  rw [takeMove_state]

/-- A step under R170's discipline is the block's own, an accepted `Start`, or a reset. -/
theorem step_next_of_disciplined {s t : State} (hd : s.disciplined = true) (h : step s = .next t) :
    (s.takeMove.1 = .quiet ∧ s.takeMove.2.stepOwn = .next t) ∨
    (∃ source, s.takeMove.1 = .start source ∧ s.takeMove.2.seq = .idle ∧ t = s.takeMove.2.acceptStart source) ∨
    (s.takeMove.1 = .reset ∧ t = s.takeMove.2.hwReset) := by
  obtain hown | hstart | hreset | ⟨f, bs, i, hm, -⟩ := step_next h
  · exact .inl hown
  · exact .inr (.inl hstart)
  · exact .inr (.inr hreset)
  · simp [State.disciplined, hm] at hd

/-- A disciplined step that is no reset adds at most one interaction and one delivery. -/
theorem step_addsInteraction {s t : State} (hd : s.disciplined = true) (hr : s.takeMove.1 ≠ .reset)
    (h : step s = .next t) : AddsInteraction s.trace t.trace := by
  rw [← takeMove_trace s]
  obtain ⟨-, hown⟩ | ⟨source, -, -, rfl⟩ | ⟨hm, -⟩ := step_next_of_disciplined hd h
  · exact stepOwn_addsInteraction hown
  · exact .inl rfl
  · exact absurd hm hr

/-- Settles O30: nothing added, one interaction alone, or one with a delivery after it. -/
theorem oneInteractionPerStep : Obligations.OneInteractionPerStep := by
  intro s t hd hr h
  obtain htr | ⟨ev, hev, htr | ⟨r, htr⟩⟩ := step_addsInteraction hd hr h
  · exact ⟨[], by simp [htr]⟩
  · exact ⟨[ev], by simp [htr, hev]⟩
  · exact ⟨[ev, .done r], by simp [htr, hev]⟩

end Sys2Proof.Machine

/-! The state of the block (spec/10_state.md): the moves of `SEQ` by cases, the invariant of R24, R29, R23 and R170 kept
by every step and carried to runs, the one writer of each register, and the steps that have no meaning. -/

namespace Sys2Proof.Machine

/-! ### Moves of `SEQ`, by where they lead (R123, R129) -/

/-- R123: on to the next zero byte, or after the last one to `FETCH` or to `Finish`. -/
theorem afterFlush_cases (s : State) (w : Which) (k : Fin 20) :
    (∃ k' : Fin 20, k'.val = k.val + 1 ∧ s.afterFlush w k = { s with seq := .flSend w k' }) ∨
    (w = .pre ∧ s.afterFlush w k = { s with seq := .fetch }) ∨
    (w = .post ∧ s.afterFlush w k = s.finish) := by
  unfold State.afterFlush
  split
  · exact .inl ⟨_, rfl, rfl⟩
  · cases w with
    | pre => exact .inr (.inl ⟨rfl, rfl⟩)
    | post => exact .inr (.inr ⟨rfl, rfl⟩)

/-- R129: on to the next byte, to the variant's next channel, or to `FETCH`. -/
theorem afterSym_cases (s : State) (c : Fin 4) (j : Fin 3) :
    (∃ j' : Fin 3, j'.val = j.val + 1 ∧ s.afterSym c j = { s with seq := .symSend c j' }) ∨
    (∃ c' : Fin 4, c'.val = c.val + 1 ∧ c'.val < chCount s.cfg.variant ∧ s.afterSym c j = { s with seq := .enc c' }) ∨
    s.afterSym c j = { s with seq := .fetch } := by
  unfold State.afterSym
  split
  · exact .inl ⟨_, rfl, rfl⟩
  · split
    · rename_i hc
      exact .inr (.inl ⟨_, rfl, hc.2, rfl⟩)
    · exact .inr (.inr rfl)

/-! ### What lies in `PIX` and `ACC` -/

/-- The channel bytes in transmission order are `PIX[ORDER[0]]`, `PIX[ORDER[1]]`, ... (R13, R49). -/
theorem colorBytes_getElem? (p : Color) (c : Fin 4) :
    (colorBytes p)[c.val]? = (orderAt (variantOf p) c).bind (channelOf p) := by
  cases p <;> fin_cases c <;> rfl

theorem colorBytes_length (p : Color) : (colorBytes p).length = chCount (variantOf p) := by
  cases p <;> rfl

theorem channelByte_eq_some_iff {s : State} {c : Fin 4} {b : Byte} :
    s.channelByte c = some b ↔
      ∃ p, s.pix = .holds p ∧ (orderAt s.cfg.variant c).bind (channelOf p) = some b := by
  unfold State.channelByte
  split <;> simp_all

theorem accInStep_iff {s : State} {c : Fin 4} :
    s.accInStep c = true ↔ ∃ b, s.channelByte c = some b ∧ s.acc = .holds (tripletOf b) := by
  unfold State.accInStep
  split <;> simp_all

/-! ### Color sources that fit the variant (R41, R170) -/

theorem draw_fits {v : Variant} {q : ColorSource} (h : q.fits v = true) :
    q.draw.2.fits v = true ∧ ∀ p, q.draw.1 = some p → variantOf p = v := by
  obtain ⟨colors, endless⟩ := q
  cases colors with
  | nil =>
    refine ⟨h, fun p hp => ?_⟩
    obtain rfl : endless = some p := hp
    simpa [ColorSource.fits] using h
  | cons p rest => simp_all [ColorSource.fits, ColorSource.draw]

theorem fits_of_forall {v : Variant} {cs : List Color} (h : ∀ p ∈ cs, variantOf p = v) :
    (ColorSource.mk cs none).fits v = true := by
  simpa [ColorSource.fits] using h

/-! ### The invariant in two parts -/

/-- The part of the invariant that is no matter of `SEQ`: what `PIX` holds and what is to come fits the variant. -/
structure DataFits (s : State) : Prop where
  pix    : s.pixFits = true
  colors : s.colors.fits s.cfg.variant = true
  host   : s.host.all (fun m => m.fits s.cfg.variant) = true

/-- The part of the invariant that speaks of the position: the configuration has it, what it reads is there, and
`RES` is `NONE` while the block is busy. -/
structure PositionReady (s : State) : Prop where
  isPosition : s.seq.existsIn s.cfg = true
  dataReady  : s.dataReady = true
  resNone    : s.seq ≠ .idle → s.res = .none

theorem inv_iff {s : State} : s.inv = true ↔ DataFits s ∧ PositionReady s := by
  have hres : (!s.busy || s.res == .none) = true ↔ (s.seq ≠ .idle → s.res = .none) := by
    simp [State.busy, or_iff_not_imp_left]
  simp only [State.inv, Bool.and_eq_true, hres]
  constructor
  · rintro ⟨⟨⟨⟨⟨hx, hp⟩, hd⟩, hr⟩, hc⟩, hh⟩
    exact ⟨⟨hp, hc, hh⟩, ⟨hx, hd, hr⟩⟩
  · rintro ⟨⟨hp, hc, hh⟩, ⟨hx, hd, hr⟩⟩
    exact ⟨⟨⟨⟨⟨hx, hp⟩, hd⟩, hr⟩, hc⟩, hh⟩

theorem DataFits.of_frame {s t : State} (h : DataFits s) (hf : SameFrame s t) : DataFits t := by
  obtain ⟨hcfg, hpix, hhost, hcolors⟩ := hf
  refine ⟨?_, ?_, ?_⟩
  · simpa only [State.pixFits, hpix, hcfg] using h.pix
  · simpa only [hcolors, hcfg] using h.colors
  · simpa only [hhost, hcfg] using h.host

theorem DataFits.variantOf_pix {s : State} {p : Color} (h : DataFits s) (hp : s.pix = .holds p) :
    variantOf p = s.cfg.variant := by
  simpa [State.pixFits, hp] using h.pix

/-- A written `PIX` of the variant has a byte in every channel place of the variant. -/
theorem DataFits.channelByte_isSome {s : State} {p : Color} {c : Fin 4} (h : DataFits s) (hp : s.pix = .holds p)
    (hc : c.val < chCount s.cfg.variant) : (s.channelByte c).isSome = true := by
  have hv := h.variantOf_pix hp
  have hlen : c.val < (colorBytes p).length := by rw [colorBytes_length, hv]; exact hc
  rw [Option.isSome_iff_exists]
  refine ⟨(colorBytes p)[c.val], channelByte_eq_some_iff.2 ⟨p, hp, ?_⟩⟩
  rw [← hv, ← colorBytes_getElem?, List.getElem?_eq_getElem hlen]

/-- R29, as the statements write it: the channel byte in place `c` is a byte of the tuple in `PIX`. -/
theorem DataFits.exists_colorByte {s : State} {c : Fin 4} {b : Byte} (h : DataFits s)
    (hb : s.channelByte c = some b) : ∃ p, s.pix = .holds p ∧ (colorBytes p)[c.val]? = some b := by
  obtain ⟨p, hp, hget⟩ := channelByte_eq_some_iff.1 hb
  exact ⟨p, hp, by rw [colorBytes_getElem?, h.variantOf_pix hp]; exact hget⟩

/-- A state at rest: `SEQ = IDLE`, and what it holds and what is to come fits the variant. -/
structure Rests (s : State) : Prop where
  fits : DataFits s
  idle : s.seq = .idle

theorem Rests.inv {s : State} (h : Rests s) : s.inv = true :=
  inv_iff.2 ⟨h.fits, by simp [h.idle, Seq.existsIn], by simp [State.dataReady, h.idle], fun hn => absurd h.idle hn⟩

/-- A busy block moves to a position that exists and whose data is ready. -/
theorem inv_of_move {s : State} (hd : DataFits s) (hr : s.res = .none) (q : Seq) (hx : q.existsIn s.cfg = true)
    (hq : ({ s with seq := q } : State).dataReady = true) : ({ s with seq := q } : State).inv = true :=
  inv_iff.2 ⟨hd.of_frame ⟨rfl, rfl, rfl, rfl⟩, hx, hq, fun _ => hr⟩

/-! ### The block's own step keeps the invariant -/

theorem finish_rests {s : State} (hd : DataFits s) : Rests s.finish := ⟨hd.of_frame ⟨rfl, rfl, rfl, rfl⟩, rfl⟩

theorem abort_rests {s : State} (hd : DataFits s) (e : ErrTag) : Rests (s.abort e) :=
  ⟨hd.of_frame ⟨rfl, rfl, rfl, rfl⟩, rfl⟩

theorem afterFlush_inv {s : State} {w : Which} {k : Fin 20} (hd : DataFits s) (hr : s.res = .none)
    (hx : (Seq.flSend w k).existsIn s.cfg = true) : (s.afterFlush w k).inv = true := by
  obtain ⟨k', -, h⟩ | ⟨-, h⟩ | ⟨-, h⟩ := afterFlush_cases s w k <;> rw [h]
  · exact inv_of_move hd hr _ (by cases w <;> exact hx) rfl
  · exact inv_of_move hd hr _ rfl rfl
  · exact (finish_rests hd).inv

theorem afterSym_inv {s : State} {c : Fin 4} {j : Fin 3} (hd : DataFits s) (hr : s.res = .none)
    (hc : c.val < chCount s.cfg.variant) (hacc : s.accInStep c = true) : (s.afterSym c j).inv = true := by
  obtain ⟨j', -, h⟩ | ⟨c', -, hc', h⟩ | h := afterSym_cases s c j <;> rw [h]
  · exact inv_of_move hd hr _ (decide_eq_true hc) hacc
  · obtain ⟨b, hb, -⟩ := accInStep_iff.1 hacc
    obtain ⟨p, hp, -⟩ := channelByte_eq_some_iff.1 hb
    exact inv_of_move hd hr _ (decide_eq_true hc') (hd.channelByte_isSome hp hc')
  · exact inv_of_move hd hr _ rfl rfl

/-- R121, R127: moving on after a byte answered `Ok`. -/
theorem afterSend_inv {s : State} (h : s.inv = true) : s.afterSend.inv = true := by
  obtain ⟨hd, hx, hready, hr⟩ := inv_iff.1 h
  cases hq : s.seq with
  | flSend w k =>
    rw [hq] at hx hr
    rw [afterSend_flSend s w k hq]
    split
    · rename_i hrx
      exact inv_of_move hd (hr nofun) _ (by cases w <;> simp_all [Seq.existsIn]) rfl
    · exact afterFlush_inv hd (hr nofun) hx
  | symSend c j =>
    rw [hq] at hx hr
    have hc : c.val < chCount s.cfg.variant := of_decide_eq_true hx
    have hacc : s.accInStep c = true := by simpa [State.dataReady, hq] using hready
    rw [afterSend_symSend s c j hq]
    split
    · rename_i hrx
      exact inv_of_move hd (hr nofun) _ (by simp [Seq.existsIn, hrx.1, hc]) hacc
    · exact afterSym_inv hd (hr nofun) hc hacc
  | _ => simpa [State.afterSend, hq] using h

/-- R122, R128: moving on after a receive attempt. -/
theorem afterDrain_inv {s : State} (h : s.inv = true) : s.afterDrain.inv = true := by
  obtain ⟨hd, hx, hready, hr⟩ := inv_iff.1 h
  cases hq : s.seq with
  | flDrain w k =>
    rw [hq] at hx hr
    rw [afterDrain_flDrain s w k hq]
    exact afterFlush_inv hd (hr nofun) (by cases w <;> simp_all [Seq.existsIn])
  | symDrain c j =>
    rw [hq] at hx hr
    have hacc : s.accInStep c = true := by simpa [State.dataReady, hq] using hready
    rw [afterDrain_symDrain s c j hq]
    exact afterSym_inv hd (hr nofun) (by simp_all [Seq.existsIn]) hacc
  | _ => simpa [State.afterDrain, hq] using h

/-- One attempt at any position (R121, R127, R146). -/
theorem attempt_inv {s : State} (v : Byte) (h : s.inv = true) : (s.attempt v).2.inv = true := by
  rw [attempt_eq]
  split
  · exact afterSend_inv h
  · exact h
  · exact (abort_rests (inv_iff.1 h).1 _).inv

/-- R125: at `FETCH`, whatever the source answers. -/
theorem nextColor_fits {s : State} (hd : DataFits s) : DataFits s.nextColor.2 :=
  ⟨by simpa [State.pixFits] using hd.pix, by simpa using (draw_fits hd.colors).1, by simpa using hd.host⟩

theorem loadPix_fits {s : State} {p : Color} (hd : DataFits s) (hv : variantOf p = s.cfg.variant) :
    DataFits (s.loadPix p) :=
  ⟨by simp [State.pixFits, hv], hd.colors, hd.host⟩

theorem loadPix_inv {s : State} {p : Color} (hd : DataFits s) (hr : s.res = .none)
    (hv : variantOf p = s.cfg.variant) : (s.loadPix p).inv = true := by
  have h0 : (0 : Fin 4).val < chCount s.cfg.variant := by cases s.cfg.variant <;> decide
  have hd' := loadPix_fits hd hv
  exact inv_iff.2 ⟨hd', decide_eq_true h0, hd'.channelByte_isSome rfl h0, fun _ => hr⟩

/-- Under the invariant the channel that `ENC(c)` reads is the byte of `PIX`, and no free value. -/
theorem inv_enc_readPix {s : State} {c : Fin 4} (h : s.inv = true) (hq : s.seq = .enc c) :
    ∃ b, s.channelByte c = some b ∧ (orderAt s.cfg.variant c).bind (fun ch => s.readPix ch) = some b := by
  obtain ⟨-, -, hready, -⟩ := inv_iff.1 h
  have hsome : (s.channelByte c).isSome = true := by simpa [State.dataReady, hq] using hready
  obtain ⟨b, hb⟩ := Option.isSome_iff_exists.1 hsome
  obtain ⟨p, hp, hget⟩ := channelByte_eq_some_iff.1 hb
  have hread : (fun ch => s.readPix ch) = channelOf p := funext fun ch => readPix_holds s p ch hp
  exact ⟨b, hb, by rw [hread]; exact hget⟩

/-- R126: at `ENC(c)`, with the channel byte in place `c` loaded. -/
theorem loadAcc_inv {s : State} {c : Fin 4} {b : Byte} (h : s.inv = true) (hq : s.seq = .enc c)
    (hb : s.channelByte c = some b) : (s.loadAcc (tripletOf b)).inv = true := by
  obtain ⟨hd, hx, -, hr⟩ := inv_iff.1 h
  rw [hq] at hx hr
  rw [loadAcc_enc s _ c hq]
  refine inv_iff.2 ⟨hd.of_frame ⟨rfl, rfl, rfl, rfl⟩, hx, ?_, fun _ => hr nofun⟩
  exact accInStep_iff.2 ⟨b, hb, rfl⟩

/-- R24, R29, R130: the block's own step keeps the invariant, position by position. -/
theorem stepOwn_inv {s t : State} (h : s.inv = true) (hs : s.stepOwn = .next t) : t.inv = true := by
  obtain ⟨hd, -, -, hr⟩ := inv_iff.1 h
  obtain ⟨-, ⟨-, rfl⟩ | ⟨_, _, -, rfl⟩ | ⟨_, _, -, rfl⟩ | ⟨_, _, -, rfl⟩ | ⟨hq, -, rfl⟩ | ⟨p, hq, -, hv, rfl⟩ |
    ⟨c, b, hq, hread, rfl⟩ | ⟨_, _, -, rfl⟩⟩ := stepOwn_next hs
  · exact h
  · exact attempt_inv _ h
  · exact afterDrain_inv (s := s.tryRecv) h
  · exact afterDrain_inv (s := s.tryRecv) h
  · exact inv_of_move (nextColor_fits hd) (by simp [hr, hq]) _ rfl rfl
  · exact loadPix_inv (nextColor_fits hd) (by simp [hr, hq]) (by simpa using hv)
  · obtain ⟨b', hb', hread'⟩ := inv_enc_readPix h hq
    obtain rfl : b' = b := Option.some.inj (hread'.symm.trans hread)
    exact loadAcc_inv h hq hb'
  · exact attempt_inv _ h

/-! ### The operations of the bench leave the block at rest -/

/-- How a flow may end: with `Ok` in a state of `good`, after the abort in one of `failed`, or never (`Flow.Ends` with
two predicates, for the abort leads to `IDLE` from any position). -/
def Flow.EndsAs (good failed : State → Prop) : Flow → Prop
  | .ok s => good s
  | .err _ s => failed s
  | .never => True

theorem Flow.EndsAs.andThen {mid good failed : State → Prop} {f : Flow} {next : State → Flow}
    (hf : f.EndsAs mid failed) (hnext : ∀ s, mid s → (next s).EndsAs good failed) :
    (f.andThen next).EndsAs good failed := by
  cases f with
  | ok s => exact hnext s hf
  | err e s => exact hf
  | never => trivial

theorem Flow.EndsAs.mono {good good' failed failed' : State → Prop} {f : Flow} (hf : f.EndsAs good failed)
    (hg : ∀ s, good s → good' s) (hfail : ∀ s, failed s → failed' s) : f.EndsAs good' failed' := by
  cases f with
  | ok s => exact hg s hf
  | err e s => exact hfail s hf
  | never => trivial

/-- The three moves that ENCODE, FLUSH and the pixels are made of keep `good`, and a failed send ends in `failed`. -/
structure SendsKeep (good failed : State → Prop) : Prop where
  send  : ∀ (v : Byte) (s : State), good s → (s.sendByte v).EndsAs good failed
  drain : ∀ s : State, good s → good s.drain
  load  : ∀ (v : Triplet) (s : State), good s → good (s.loadAcc v)

namespace SendsKeep

variable {good failed : State → Prop} (hk : SendsKeep good failed)
include hk

theorem encodeByte (b : Byte) {s : State} (h : good s) : (s.encodeByte b).EndsAs good failed :=
  (hk.send _ _ (hk.load _ _ h)).andThen fun _ h1 =>
    (hk.send _ _ (hk.drain _ h1)).andThen fun _ h2 => hk.send _ _ (hk.drain _ h2)

theorem flushBytes (n : Nat) {s : State} (h : good s) : (s.flushBytes n).EndsAs good failed := by
  induction n generalizing s with
  | zero => exact h
  | succ n ih => exact (hk.send _ _ h).andThen fun _ h1 => ih (hk.drain _ h1)

theorem encodeAll (bs : List Byte) {s : State} (h : good s) : (s.encodeAll bs).EndsAs good failed := by
  induction bs generalizing s with
  | nil => exact h
  | cons b bs ih => exact (hk.encodeByte b h).andThen fun _ h1 => ih h1

end SendsKeep

/-- How a flow that follows a plan ends: by its first offer that is not answered `Ok`, if there is one. -/
theorem Follows.endsAs {p : Plan} {s : State} {f : Flow} {post fail : State → Prop} (h : Follows p s f post fail) :
    f.EndsAs (fun t => Carried p s t ∧ post t) (fun t => SameFrame s t ∧ t.seq = .idle ∧ fail t) := by
  by_cases hok : okBefore s.tx p.length
  · obtain ⟨t, rfl, hcarried, hpost⟩ := h.full hok
    exact ⟨hcarried, hpost⟩
  · have hex : ∃ n, n < p.length ∧ offer s.tx n ≠ .ok := by simpa [okBefore] using hok
    obtain ⟨hlt, hne⟩ := Nat.find_spec hex
    have hbefore : okBefore s.tx (Nat.find hex) := fun m hm => by
      by_contra hm'
      exact Nat.find_min hex hm ⟨by omega, hm'⟩
    cases hoffer : offer s.tx (Nat.find hex) with
    | ok => exact absurd hoffer hne
    | wouldBlock => rw [h.never _ hlt hbefore hoffer]; trivial
    | err e =>
      obtain ⟨t, rfl, hfailed, hfail⟩ :=
        h.part _ _ _ e (List.getElem?_eq_getElem hlt) hbefore hoffer
      exact ⟨hfailed.frame, hfailed.seq, hfail⟩

/-- At any position what fits goes on to fit, and a failed send leaves the block at rest. -/
theorem sendsKeep_dataFits : SendsKeep DataFits Rests where
  send v s hd := by
    rw [sendByte_eq]
    split
    · trivial
    · exact hd.of_frame (by constructor <;> simp)
    · trivial
    · exact ⟨hd.of_frame ⟨rfl, rfl, rfl, rfl⟩, rfl⟩
  drain s hd := hd.of_frame (by constructor <;> simp)
  load v s hd := hd.of_frame (by constructor <;> simp)

/-- In isolation the block stays at rest (notes/assumptions/8.md). -/
theorem sendsKeep_rests : SendsKeep Rests Rests where
  send v s h := by
    have hends := (follows_send_idle v false s h.idle).endsAs
    simp only [Bool.false_eq_true, if_false, andThen_ok_self] at hends
    exact hends.mono (fun _ ⟨hcarried, hquiet⟩ => ⟨h.fits.of_frame hcarried.frame, hquiet.seq⟩)
      (fun _ ⟨hframe, hidle, _⟩ => ⟨h.fits.of_frame hframe, hidle⟩)
  drain s h := by
    refine ⟨sendsKeep_dataFits.drain s h.fits, ?_⟩
    rw [drain_eq]
    split
    · rw [afterDrain_idle _ (by exact h.idle)]; exact h.idle
    · exact h.idle
  load v s h := ⟨sendsKeep_dataFits.load v s h.fits, by rw [loadAcc_idle s v h.idle]; exact h.idle⟩

/-- R124: the final flush ends at `IDLE`, by `Finish` or by the abort. -/
theorem finalFlush_rests {s : State} (hd : DataFits s) (hq : s.seq = .flSend .post 0) : s.flush.EndsAs Rests Rests :=
  (follows_flushBytes_flSend 19 s .post 0 hq rfl).endsAs.mono
    (fun _ ⟨hcarried, hflushed⟩ => ⟨hd.of_frame hcarried.frame, (hflushed.post rfl).1⟩)
    (fun _ ⟨hframe, hidle, _⟩ => ⟨hd.of_frame hframe, hidle⟩)

/-- R112, R113: the colors and the final flush. -/
theorem writeLoop_rests (n : Nat) {s : State} (hd : DataFits s) : (s.writeLoop n).EndsAs Rests Rests := by
  induction n generalizing s with
  | zero => trivial
  | succ n ih =>
    have hd1 := nextColor_fits hd
    have hv := (draw_fits hd.colors).2
    rw [← nextColor_answer, ← nextColor_cfg] at hv
    unfold State.writeLoop
    rcases hn : s.nextColor with ⟨_ | p, s1⟩ <;> simp only [hn] at hd1 hv
    · exact finalFlush_rests (hd1.of_frame ⟨rfl, rfl, rfl, rfl⟩) rfl
    · exact (sendsKeep_dataFits.encodeAll _ (loadPix_fits hd1 (hv p rfl))).andThen fun _ h2 => ih h2

theorem writeAll_rests {s : State} (hd : DataFits s) : s.writeAll.EndsAs Rests Rests := by
  unfold State.writeAll
  split
  · exact (sendsKeep_dataFits.flushBytes _ hd).andThen fun _ h1 => writeLoop_rests _ h1
  · exact writeLoop_rests _ hd

theorem answer_rests {f : Flow} {t : State} (hf : f.EndsAs Rests Rests) (h : f.answer = .next t) : Rests t := by
  cases f with
  | ok s => cases h; exact ⟨hf.fits.of_frame ⟨rfl, rfl, rfl, rfl⟩, hf.idle⟩
  | err e s => cases h; exact ⟨hf.fits.of_frame ⟨rfl, rfl, rfl, rfl⟩, hf.idle⟩
  | never => cases h

theorem acceptStart_fits {s : State} {source : ColorSource} (hd : DataFits s)
    (hs : source.fits s.cfg.variant = true) : DataFits (s.acceptStart source) :=
  ⟨hd.pix, hs, hd.host⟩

theorem write_rests {v : Variant} {cs : List Color} {s t : State} (hcs : ∀ p ∈ cs, variantOf p = v)
    (hd : DataFits s) (h : s.write v cs = .next t) : Rests t := by
  unfold State.write at h
  split at h
  · cases h
  · rename_i hv
    split at h
    · cases h
    · have hfits := acceptStart_fits hd (fits_of_forall (v := s.cfg.variant) (by simpa [not_not.1 hv] using hcs))
      exact answer_rests (writeAll_rests hfits) h

/-- An operation performed on a block at rest leaves it at rest. -/
theorem exec_rests {i : Instr} {s t : State} (hs : Rests s) (h : exec i s = .next t) : Rests t := by
  cases i with
  | sym0 => cases h; exact ⟨hs.fits.of_frame ⟨rfl, rfl, rfl, rfl⟩, hs.idle⟩
  | sym1 => cases h; exact ⟨hs.fits.of_frame ⟨rfl, rfl, rfl, rfl⟩, hs.idle⟩
  | t b => cases h; exact ⟨hs.fits.of_frame ⟨rfl, rfl, rfl, rfl⟩, hs.idle⟩
  | encode b => exact answer_rests (sendsKeep_rests.encodeByte b hs) h
  | send v => exact answer_rests (sendsKeep_rests.send v s hs) h
  | drain =>
    cases h
    have hdrain := sendsKeep_rests.drain s hs
    exact ⟨hdrain.fits.of_frame ⟨rfl, rfl, rfl, rfl⟩, hdrain.idle⟩
  | flush => exact answer_rests (sendsKeep_rests.flushBytes _ hs) h
  | pixelGrb r g b =>
    simp only [exec, execPixelGrb] at h
    split at h
    · exact answer_rests (sendsKeep_rests.encodeAll _ hs) h
    · cases h
  | pixelGrbw r g b w =>
    simp only [exec, execPixelGrbw] at h
    split at h
    · exact answer_rests (sendsKeep_rests.encodeAll _ hs) h
    · cases h
  | writeGrb cs => exact write_rests (by simp [variantOf]) hs.fits h
  | writeGrbw cs => exact write_rests (by simp [variantOf]) hs.fits h

/-! ### Every step keeps the invariant -/

/-- Taking the host move keeps the invariant, and a source it hands over fits the variant. -/
theorem takeMove_inv {s : State} (h : s.inv = true) :
    s.takeMove.2.inv = true ∧ ∀ source, s.takeMove.1 = .start source → source.fits s.cfg.variant = true := by
  unfold State.takeMove
  split
  · exact ⟨h, nofun⟩
  · rename_i m rest hhost
    obtain ⟨hd, hx, hready, hr⟩ := inv_iff.1 h
    obtain ⟨hm, hrest⟩ : m.fits s.cfg.variant = true ∧ rest.all (fun m => m.fits s.cfg.variant) = true := by
      simpa [hhost] using hd.host
    refine ⟨inv_iff.2 ⟨⟨hd.pix, hd.colors, hrest⟩, hx, hready, hr⟩, ?_⟩
    rintro source rfl
    exact hm

/-- R120: an accepted `Start` with a fitting source. -/
theorem acceptStart_inv {s : State} {source : ColorSource} (hd : DataFits s)
    (hs : source.fits s.cfg.variant = true) : (s.acceptStart source).inv = true := by
  refine inv_iff.2 ⟨acceptStart_fits hd hs, ?_, ?_, fun _ => rfl⟩
  · rw [acceptStart_seq, acceptStart_cfg]
    split
    · assumption
    · rfl
  · unfold State.dataReady
    rw [acceptStart_seq]
    cases s.cfg.idleHigh <;> rfl

theorem hwReset_rests {s : State} (hd : DataFits s) : Rests s.hwReset := ⟨⟨rfl, hd.colors, hd.host⟩, rfl⟩

/-- Settles O36, by the four kinds of step. -/
theorem stepKeepsTheInvariant : Obligations.StepKeepsTheInvariant := by
  intro s t h hstep
  obtain ⟨h1, hsource⟩ := takeMove_inv h
  have hd1 := (inv_iff.1 h1).1
  obtain ⟨-, hown⟩ | ⟨source, hm, -, rfl⟩ | ⟨-, rfl⟩ | ⟨f, bs, i, -, hidle, -, hexec⟩ := step_next hstep
  · exact stepOwn_inv h1 hown
  · exact acceptStart_inv hd1 (by simpa using hsource source hm)
  · exact (hwReset_rests hd1).inv
  · exact (exec_rests ⟨hd1, hidle⟩ hexec).inv

/-! ### The invariant at reset and along runs (R29, R32) -/

/-- Settles O35: the block is at rest after reset, and every source handed over fits. -/
theorem resetMeetsTheInvariant : Obligations.ResetMeetsTheInvariant :=
  ⟨Rests.inv ⟨⟨rfl, rfl, rfl⟩, rfl⟩, fun _ _ _ _ hhost => Rests.inv ⟨⟨rfl, rfl, hhost⟩, rfl⟩⟩

theorem answer_fault {f : Flow} {r : Fault} (h : f.answer = .fault r) : r = .neverEnds := by
  cases f <;> cases h
  rfl

theorem write_fault {v : Variant} {cs : List Color} {s : State} {r : Fault} (h : s.write v cs = .fault r) :
    r = .neverEnds := by
  unfold State.write at h
  split at h
  · cases h
  · split at h
    · cases h
    · exact answer_fault h

/-- An operation stops by a fault only where it never ends (notes/assumptions/8.md). -/
theorem exec_fault {i : Instr} {s : State} {r : Fault} (h : exec i s = .fault r) : r = .neverEnds := by
  cases i with
  | sym0 => cases h
  | sym1 => cases h
  | t b => cases h
  | encode b => exact answer_fault h
  | send v => exact answer_fault h
  | drain => cases h
  | flush => exact answer_fault h
  | pixelGrb r g b =>
    simp only [exec, execPixelGrb] at h
    split at h
    · exact answer_fault h
    · cases h
  | pixelGrbw r g b w =>
    simp only [exec, execPixelGrbw] at h
    split at h
    · exact answer_fault h
    · cases h
  | writeGrb cs => exact write_fault h
  | writeGrbw cs => exact write_fault h

/-- The block's own step stops by a fault only at an `ENC(c)` whose channel `PIX` does not have (R22). -/
theorem stepOwn_fault {s : State} {r : Fault} (h : s.stepOwn = .fault r) :
    ∃ c, s.seq = .enc c ∧ (orderAt s.cfg.variant c).bind (fun ch => s.readPix ch) = none := by
  unfold State.stepOwn at h
  split at h
  · cases hq : s.seq with
    | enc c =>
      cases hb : (orderAt s.cfg.variant c).bind (fun ch => s.readPix ch) with
      | none => exact ⟨c, rfl, hb⟩
      | some b => simp [hq, State.stepEnc, hb] at h
    | fetch =>
      simp only [hq, State.stepFetch] at h
      split at h
      · cases h
      · split at h <;> cases h
    | _ => simp [hq, State.stepFlSend, State.stepDrain, State.stepSymSend] at h
  · cases h

/-- What a step that stops by a fault was: the block's own, or a bench operation. -/
theorem step_fault {s : State} {r : Fault} (h : step s = .fault r) :
    s.takeMove.2.stepOwn = .fault r ∨ ∃ i, exec i s.takeMove.2 = .fault r := by
  unfold step at h
  split at h
  · rename_i hm; rw [hm]; exact .inl h
  · rename_i source s1 _
    unfold State.stepStart at h
    split at h <;> cases h
  · cases h
  · rename_i hm
    split at h
    · rename_i i _
      rw [hm]; exact .inr ⟨i, h⟩
    · cases h

theorem inv_step_fault {s : State} {r : Fault} (h : s.inv = true) (hs : step s = .fault r) : r = .neverEnds := by
  obtain hown | ⟨i, hexec⟩ := step_fault hs
  · obtain ⟨c, hq, hnone⟩ := stepOwn_fault hown
    obtain ⟨b, -, hsome⟩ := inv_enc_readPix (takeMove_inv h).1 hq
    rw [hnone] at hsome
    cases hsome
  · exact exec_fault hexec

/-- At `ENC(c)` the tuple in `PIX` has a byte in place `c` (R29). -/
theorem inv_enc_written {s : State} {c : Fin 4} (h : s.inv = true) (hq : s.seq = .enc c) :
    ∃ (p : Color) (b : Byte), s.pix = .holds p ∧ (colorBytes p)[c.val]? = some b := by
  obtain ⟨b, hb, -⟩ := inv_enc_readPix h hq
  obtain ⟨p, hp, hget⟩ := (inv_iff.1 h).1.exists_colorByte hb
  exact ⟨p, b, hp, hget⟩

/-- Where `ACC` is in step it is the triplet of the byte in place `c` (R29). -/
theorem inv_acc_written {s : State} {c : Fin 4} (h : s.inv = true) (hacc : s.accInStep c = true) :
    ∃ (p : Color) (b : Byte), s.pix = .holds p ∧ (colorBytes p)[c.val]? = some b ∧ s.acc = .holds (tripletOf b) := by
  obtain ⟨b, hb, hholds⟩ := accInStep_iff.1 hacc
  obtain ⟨p, hp, hget⟩ := (inv_iff.1 h).1.exists_colorByte hb
  exact ⟨p, b, hp, hget, hholds⟩

theorem inv_symSend_accInStep {s : State} {c : Fin 4} {j : Fin 3} (h : s.inv = true) (hq : s.seq = .symSend c j) :
    s.accInStep c = true := by
  simpa [State.dataReady, hq] using (inv_iff.1 h).2.dataReady

theorem inv_symDrain_accInStep {s : State} {c : Fin 4} {j : Fin 2} (h : s.inv = true) (hq : s.seq = .symDrain c j) :
    s.accInStep c = true := by
  simpa [State.dataReady, hq] using (inv_iff.1 h).2.dataReady

/-- Settles O37: the invariant says what each reading position has, so no step misses a channel. -/
theorem noStepReadsAnUnwrittenRegister : Obligations.NoStepReadsAnUnwrittenRegister := fun _ h =>
  ⟨fun _ hs => inv_step_fault h hs, fun _ hq => inv_enc_written h hq,
    fun _ _ hq => inv_acc_written h (inv_symSend_accInStep h hq),
    fun _ _ hq => inv_acc_written h (inv_symDrain_accInStep h hq)⟩

/-- What every step keeps holds at the end of a run, and at the state whose step stops it by a fault. -/
theorem run_keeps {P : State → Prop} (hkeep : ∀ s t, P s → step s = .next t → P t) (n : Nat) {s : State} (hs : P s) :
    (∀ t, Host.Core.run Sys2Proof.core n s = .next t → P t) ∧
    (∀ r, Host.Core.run Sys2Proof.core n s = .fault r → ∃ u, P u ∧ step u = .fault r) := by
  induction n generalizing s with
  | zero => exact ⟨fun t h => by cases h; exact hs, nofun⟩
  | succ n ih =>
    cases hstep : step s with
    | next t => rw [run_succ_next hstep]; exact ih (hkeep s t hs hstep)
    | fault r =>
      have hrun := run_succ_fault hstep n
      refine ⟨fun t h => ?_, fun r' h => ?_⟩ <;> rw [hrun] at h <;> cases h
      exact ⟨s, hs, hstep⟩
    | refused r =>
      have hrun := run_succ_refused hstep n
      refine ⟨fun t h => ?_, fun r' h => ?_⟩ <;> rw [hrun] at h <;> cases h

/-- Settles O38: the invariant holds at reset and along the run, and says what each reading position has. -/
theorem noRunReadsAnUnwrittenRegister : Obligations.NoRunReadsAnUnwrittenRegister := by
  intro cfg host tx rx n hhost
  obtain ⟨hnext, hfault⟩ := run_keeps stepKeepsTheInvariant n (resetMeetsTheInvariant.2 cfg host tx rx hhost)
  refine ⟨fun r hr => ?_, fun t ht => ?_⟩
  · obtain ⟨u, hu, hstep⟩ := hfault r hr
    exact inv_step_fault hu hstep
  · have h := hnext t ht
    refine ⟨fun c hq => ?_, fun c j hq => inv_acc_written h (inv_symSend_accInStep h hq),
      fun c j hq => inv_acc_written h (inv_symDrain_accInStep h hq)⟩
    obtain ⟨p, -, hp, -⟩ := inv_enc_written h hq
    exact ⟨p, hp⟩

/-! ### A step moves `SEQ` or is a retry (R25) -/

theorem afterFlush_seq_ne (s : State) (w : Which) (k : Fin 20) :
    (s.afterFlush w k).seq ≠ .flSend w k ∧ (s.afterFlush w k).seq ≠ .flDrain w k := by
  obtain ⟨k', hk, h⟩ | ⟨-, h⟩ | ⟨-, h⟩ := afterFlush_cases s w k <;> rw [h]
  · refine ⟨fun hq => ?_, nofun⟩
    obtain rfl : k' = k := by injection hq
    omega
  · exact ⟨nofun, nofun⟩
  · exact ⟨nofun, nofun⟩

theorem afterSym_seq_ne (s : State) (c : Fin 4) (j : Fin 3) :
    (s.afterSym c j).seq ≠ .symSend c j ∧ ∀ i, (s.afterSym c j).seq ≠ .symDrain c i := by
  obtain ⟨j', hj, h⟩ | ⟨c', -, -, h⟩ | h := afterSym_cases s c j <;> rw [h]
  · refine ⟨fun hq => ?_, nofun⟩
    obtain rfl : j' = j := by injection hq
    omega
  · exact ⟨nofun, nofun⟩
  · exact ⟨nofun, nofun⟩

/-- R121, R127: `Ok` moves `SEQ` on. -/
theorem afterSend_seq_ne {s : State} (h : s.seq.isSend = true) : s.afterSend.seq ≠ s.seq := by
  cases hq : s.seq with
  | flSend w k =>
    rw [afterSend_flSend s w k hq]
    split
    · exact nofun
    · exact (afterFlush_seq_ne s w k).1
  | symSend c j =>
    rw [afterSend_symSend s c j hq]
    split
    · exact nofun
    · exact (afterSym_seq_ne s c j).1
  | _ => simp [hq, Seq.isSend] at h

/-- A retry leaves the block's state as it was; it changes the environment and the trace only. -/
theorem attempt_wouldBlock {v : Byte} {s : State} (h : s.tx.draw.1 = .wouldBlock) :
    (s.attempt v).2 = { s with tx := s.tx.draw.2, trace := s.trace ++ [.txwb v] } := by
  rw [attempt_eq]
  rcases hd : s.tx.draw with ⟨a, q⟩
  obtain rfl : a = .wouldBlock := by rw [← h, hd]
  rfl

/-- An attempt that is no retry moves `SEQ`. -/
theorem attempt_seq_ne {v : Byte} {s : State} (hsend : s.seq.isSend = true) (h : s.tx.draw.1 ≠ .wouldBlock) :
    (s.attempt v).2.seq ≠ s.seq := by
  rw [attempt_eq]
  split
  · exact afterSend_seq_ne (s := { s with tx := _, trace := _ }) hsend
  · rename_i hd
    exact absurd (by rw [hd]) h
  · intro hidle
    rw [← hidle] at hsend
    cases hsend

/-- R25: a busy block's own step that is no retry moves `SEQ`. -/
theorem stepOwn_seq_ne {s t : State} (hs : s.stepOwn = .next t) (hbusy : s.seq ≠ .idle)
    (hretry : ¬ (s.seq.isSend = true ∧ s.tx.draw.1 = .wouldBlock)) : t.seq ≠ s.seq := by
  obtain ⟨-, ⟨hq, -⟩ | ⟨w, k, hq, rfl⟩ | ⟨w, k, hq, rfl⟩ | ⟨c, j, hq, rfl⟩ | ⟨hq, -, rfl⟩ | ⟨p, hq, -, -, rfl⟩ |
    ⟨c, b, hq, -, rfl⟩ | ⟨c, j, hq, rfl⟩⟩ := stepOwn_next hs
  · exact absurd hq hbusy
  · have hsend : s.seq.isSend = true := by rw [hq]; rfl
    exact attempt_seq_ne hsend fun hd => hretry ⟨hsend, hd⟩
  · rw [hq, afterDrain_flDrain s.tryRecv w k hq]
    exact (afterFlush_seq_ne _ w k).2
  · rw [hq, afterDrain_symDrain s.tryRecv c j hq]
    exact (afterSym_seq_ne _ c _).2 j
  · rw [hq]; exact nofun
  · rw [hq]; exact nofun
  · rw [hq, loadAcc_enc s _ c hq]; exact nofun
  · have hsend : s.seq.isSend = true := by rw [hq]; rfl
    exact attempt_seq_ne hsend fun hd => hretry ⟨hsend, hd⟩

/-- The own step at a position that sends is an attempt (R121, R127). -/
theorem stepOwn_isSend {s t : State} (hs : s.stepOwn = .next t) (hsend : s.seq.isSend = true) :
    ∃ v, t = (s.attempt v).2 := by
  obtain ⟨-, ⟨hq, -⟩ | ⟨w, k, -, rfl⟩ | ⟨w, k, hq, -⟩ | ⟨c, j, hq, -⟩ | ⟨hq, -, -⟩ | ⟨p, hq, -, -, -⟩ |
    ⟨c, b, hq, -, -⟩ | ⟨c, j, -, rfl⟩⟩ := stepOwn_next hs
  · rw [hq] at hsend; cases hsend
  · exact ⟨flushByte, rfl⟩
  · rw [hq] at hsend; cases hsend
  · rw [hq] at hsend; cases hsend
  · rw [hq] at hsend; cases hsend
  · rw [hq] at hsend; cases hsend
  · rw [hq] at hsend; cases hsend
  · exact ⟨tripletByte s.readAcc j, rfl⟩

/-- Settles O27: a retry is an attempt answered `WouldBlock`; every other own step moves `SEQ`. -/
theorem stepsMoveOnOrRetry : Obligations.StepsMoveOnOrRetry := by
  intro s s1 t hm hstep
  have hown : s1.stepOwn = .next t := by simpa [step, hm] using hstep
  refine ⟨fun hsend hwb => ?_, stepOwn_seq_ne hown, busy_iff s1⟩
  obtain ⟨v, rfl⟩ := stepOwn_isSend hown hsend
  rw [attempt_wouldBlock hwb]
  exact ⟨rfl, rfl, rfl, rfl, rfl⟩

/-! ### The writers of `ACC`, `PIX` and `RES` (R21, R22, R23) -/

@[simp] theorem attempt_acc (v : Byte) (s : State) : (s.attempt v).2.acc = s.acc := by
  rw [attempt_eq]
  split <;> simp

@[simp] theorem attempt_pix (v : Byte) (s : State) : (s.attempt v).2.pix = s.pix := by
  rw [attempt_eq]
  split <;> simp

/-- R21: the own step writes `ACC` at `ENC(c)` only. -/
theorem stepOwn_acc {s t : State} (hs : s.stepOwn = .next t) : t.acc = s.acc ∨ ∃ c, s.seq = .enc c := by
  obtain ⟨-, ⟨-, rfl⟩ | ⟨_, _, -, rfl⟩ | ⟨_, _, -, rfl⟩ | ⟨_, _, -, rfl⟩ | ⟨-, -, rfl⟩ | ⟨_, -, -, -, rfl⟩ |
    ⟨c, _, hq, -, -⟩ | ⟨_, _, -, rfl⟩⟩ := stepOwn_next hs
  · exact .inl rfl
  · exact .inl (attempt_acc _ s)
  · exact .inl (afterDrain_acc s.tryRecv)
  · exact .inl (afterDrain_acc s.tryRecv)
  · exact .inl (nextColor_acc s)
  · exact .inl (nextColor_acc s)
  · exact .inr ⟨c, hq⟩
  · exact .inl (attempt_acc _ s)

/-- R22: the own step writes `PIX` at `FETCH` only, with the color pulled. -/
theorem stepOwn_pix {s t : State} (hs : s.stepOwn = .next t) :
    t.pix = s.pix ∨ (s.seq = .fetch ∧ ∃ p, s.colors.draw.1 = some p ∧ t.pix = .holds p) := by
  obtain ⟨-, ⟨-, rfl⟩ | ⟨_, _, -, rfl⟩ | ⟨_, _, -, rfl⟩ | ⟨_, _, -, rfl⟩ | ⟨-, -, rfl⟩ | ⟨p, hq, hp, -, rfl⟩ |
    ⟨_, _, -, -, rfl⟩ | ⟨_, _, -, rfl⟩⟩ := stepOwn_next hs
  · exact .inl rfl
  · exact .inl (attempt_pix _ s)
  · exact .inl (afterDrain_pix s.tryRecv)
  · exact .inl (afterDrain_pix s.tryRecv)
  · exact .inl (nextColor_pix s)
  · exact .inr ⟨hq, p, hp, rfl⟩
  · exact .inl (loadAcc_pix s _)
  · exact .inl (attempt_pix _ s)

/-- From `s` to `t` the result register was left alone, or written by `Finish` (R124). -/
def ResKeptOrOk (s t : State) : Prop := t.res = s.res ∨ (t.seq = .idle ∧ t.res = .ok)

theorem afterFlush_resKeptOrOk (s : State) (w : Which) (k : Fin 20) : ResKeptOrOk s (s.afterFlush w k) := by
  obtain ⟨_, -, h⟩ | ⟨-, h⟩ | ⟨-, h⟩ := afterFlush_cases s w k <;> rw [h]
  · exact .inl rfl
  · exact .inl rfl
  · exact .inr ⟨rfl, rfl⟩

theorem afterSend_resKeptOrOk (s : State) : ResKeptOrOk s s.afterSend := by
  cases hq : s.seq with
  | flSend w k =>
    rw [afterSend_flSend s w k hq]
    split
    · exact .inl rfl
    · exact afterFlush_resKeptOrOk s w k
  | symSend c j =>
    rw [afterSend_symSend s c j hq]
    split
    · exact .inl rfl
    · exact .inl (afterSym_res s c j)
  | _ => exact .inl (by simp [State.afterSend, hq])

theorem afterDrain_resKeptOrOk (s : State) : ResKeptOrOk s s.afterDrain := by
  cases hq : s.seq with
  | flDrain w k => rw [afterDrain_flDrain s w k hq]; exact afterFlush_resKeptOrOk s w k
  | symDrain c j => rw [afterDrain_symDrain s c j hq]; exact .inl (afterSym_res s c _)
  | _ => exact .inl (by simp [State.afterDrain, hq])

theorem attempt_res (v : Byte) (s : State) :
    ResKeptOrOk s (s.attempt v).2 ∨
      ∃ e, s.tx.draw.1 = .err e ∧ (s.attempt v).2.seq = .idle ∧ (s.attempt v).2.res = .err e := by
  rw [attempt_eq]
  split
  · exact .inl (afterSend_resKeptOrOk { s with tx := _, trace := _ })
  · exact .inl (.inl rfl)
  · rename_i e q hd
    exact .inr ⟨e, by rw [hd], rfl, rfl⟩

/-- R23: the own step writes `RES` by `Finish`, or by the abort of a failed send. -/
theorem stepOwn_res {s t : State} (hs : s.stepOwn = .next t) :
    ResKeptOrOk s t ∨
      ∃ e, s.seq.isSend = true ∧ s.tx.draw.1 = .err e ∧ t.seq = .idle ∧ t.res = .err e := by
  by_cases hsend : s.seq.isSend = true
  · obtain ⟨v, rfl⟩ := stepOwn_isSend hs hsend
    obtain hkept | ⟨e, herr⟩ := attempt_res v s
    · exact .inl hkept
    · exact .inr ⟨e, hsend, herr⟩
  · left
    obtain ⟨-, ⟨-, rfl⟩ | ⟨w, k, hq, -⟩ | ⟨_, _, -, rfl⟩ | ⟨_, _, -, rfl⟩ | ⟨-, -, rfl⟩ | ⟨_, -, -, -, rfl⟩ |
      ⟨_, _, -, -, rfl⟩ | ⟨c, j, hq, -⟩⟩ := stepOwn_next hs
    · exact .inl rfl
    · exact absurd (by rw [hq]; rfl) hsend
    · exact afterDrain_resKeptOrOk s.tryRecv
    · exact afterDrain_resKeptOrOk s.tryRecv
    · exact .inl (nextColor_res s)
    · exact .inl (nextColor_res s)
    · exact .inl (loadAcc_res s _)
    · exact absurd (by rw [hq]; rfl) hsend

/-- R130: at `IDLE` the own step changes nothing. -/
theorem stepOwn_idle {s t : State} (hs : s.stepOwn = .next t) (hq : s.seq = .idle) : t = s := by
  have hwait : s.stepOwn = .next s := by simp [State.stepOwn, hq, Seq.existsIn]
  rw [hwait] at hs
  cases hs
  rfl

@[simp] theorem takeMove_seq (s : State) : s.takeMove.2.seq = s.seq := by rw [takeMove_state]
@[simp] theorem takeMove_acc (s : State) : s.takeMove.2.acc = s.acc := by rw [takeMove_state]
@[simp] theorem takeMove_pix (s : State) : s.takeMove.2.pix = s.pix := by rw [takeMove_state]
@[simp] theorem takeMove_res (s : State) : s.takeMove.2.res = s.res := by rw [takeMove_state]
@[simp] theorem takeMove_colors (s : State) : s.takeMove.2.colors = s.colors := by rw [takeMove_state]
@[simp] theorem takeMove_tx (s : State) : s.takeMove.2.tx = s.tx := by rw [takeMove_state]

/-- Settles O32: the own step's writers, and `Start`, which writes `RES` alone. -/
theorem registersHaveOneWriter : Obligations.RegistersHaveOneWriter := by
  intro s t hd hr hstep
  obtain ⟨-, hown⟩ | ⟨source, hm, hidle, rfl⟩ | ⟨hm, -⟩ := step_next_of_disciplined hd hstep
  · refine ⟨fun hne => ?_, fun hne => ?_, fun hne => ?_⟩
    · simpa [hne] using stepOwn_acc hown
    · simpa [hne] using stepOwn_pix hown
    · have hbusy : s.seq ≠ .idle := fun hq => hne (by rw [stepOwn_idle hown (by simpa using hq), takeMove_res])
      have hres := stepOwn_res hown
      simp only [ResKeptOrOk, takeMove_res, takeMove_seq, takeMove_tx, hne, false_or] at hres
      obtain ⟨hidle, hok⟩ | herr := hres
      · exact .inr (.inl ⟨hbusy, hidle, hok⟩)
      · exact .inr (.inr herr)
  · refine ⟨fun hne => absurd ?_ hne, fun hne => absurd ?_ hne, fun _ => .inl ⟨source, hm, ?_, rfl⟩⟩
    · simp
    · simp
    · simpa using hidle
  · exact absurd hm hr

/-! ### Steps without a meaning are refused (R130, R150) -/

theorem step_quiet {s s1 : State} (hm : s.takeMove = (.quiet, s1)) : step s = s1.stepOwn := by
  simp [step, hm]

theorem stepOwn_noSuchPosition {s : State} (hx : s.seq.existsIn s.cfg = false) :
    s.stepOwn = .refused .noSuchPosition := by
  simp [State.stepOwn, hx]

theorem stepOwn_tupleOfOtherVariant {s : State} {p : Color} (hq : s.seq = .fetch) (hp : s.colors.draw.1 = some p)
    (hv : variantOf p ≠ s.cfg.variant) : s.stepOwn = .refused .tupleOfOtherVariant := by
  simp [State.stepOwn, hq, Seq.existsIn, State.stepFetch, State.nextColor, hp, hv]

/-- A bench move whose operation is refused. -/
theorem step_bench_refused {s s1 : State} {f : Format} {bs : List Byte} {r : Refusal}
    (hm : s.takeMove = (.perform f bs, s1)) (hb : s1.benchInstr f bs = .error r) : step s = .refused r := by
  simp [step, hm, hb]

/-- Settles O25: each stop where the step raises it. -/
theorem meaninglessStepsAreRefused : Obligations.MeaninglessStepsAreRefused := by
  refine ⟨?_, ?_, ?_, ?_, ?_⟩
  · intro s s1 hm hx
    rw [step_quiet hm, stepOwn_noSuchPosition hx]
  · intro s s1 k hm hq hidle
    rw [step_quiet hm, stepOwn_noSuchPosition (by simp [hq, Seq.existsIn, hidle])]
  · intro s s1 p hm hq hp hv
    rw [step_quiet hm, stepOwn_tupleOfOtherVariant hq hp hv]
  · intro s s1 f bs hm hq
    exact step_bench_refused hm (by simp [State.benchInstr, (busy_iff s1).2 hq])
  · intro s s1 f bs e hm hq hdecode
    exact step_bench_refused hm (by simp [State.benchInstr, (busy_eq_false_iff s1).2 hq, hdecode])

end Sys2Proof.Machine

/-! Memory and interfaces (spec/20_memory.md): what `TryRecv` answers influences nothing, and the result is delivered
by the step that ends the WRITE. -/

namespace Sys2Proof.Machine

/-! ### Two states that differ in the answers of `TryRecv` alone (R43)

Every update of the state is carried out on both states at once, and relates what it makes of them. -/

section SameButRx
variable {s t : State}

/-- The second state is the first with a receive script of its own. -/
theorem exists_rx_of_sameButRx (h : sameButRx s t) : ∃ q : Script RxAnswer, t = { s with rx := q } :=
  ⟨t.rx, h.symm⟩

theorem sameButRx_cfg (h : sameButRx s t) : t.cfg = s.cfg := by rw [← h]
theorem sameButRx_seq (h : sameButRx s t) : t.seq = s.seq := by rw [← h]
theorem sameButRx_colors (h : sameButRx s t) : t.colors = s.colors := by rw [← h]
theorem sameButRx_readAcc (h : sameButRx s t) : t.readAcc = s.readAcc := by rw [← h]; rfl
theorem sameButRx_readPix (h : sameButRx s t) (ch : Channel) : t.readPix ch = s.readPix ch := by rw [← h]; rfl
theorem sameButRx_busy (h : sameButRx s t) : t.busy = s.busy := by rw [← h]; rfl

/-- An update keeps the two states related if it does so for a state and the same state with another script. -/
theorem sameButRx_map {f : State → State}
    (hf : ∀ (u : State) (q : Script RxAnswer), sameButRx (f u) (f { u with rx := q })) (h : sameButRx s t) :
    sameButRx (f s) (f t) := by
  obtain ⟨q, rfl⟩ := exists_rx_of_sameButRx h
  exact hf s q

theorem sameButRx_setRet (h : sameButRx s t) (r : Returned) : sameButRx { s with ret := r } { t with ret := r } :=
  sameButRx_map (f := fun u => { u with ret := r }) (fun _ _ => rfl) h

theorem sameButRx_setSeq (h : sameButRx s t) (q : Seq) : sameButRx { s with seq := q } { t with seq := q } :=
  sameButRx_map (f := fun u => { u with seq := q }) (fun _ _ => rfl) h

/-- The same host move is taken. -/
theorem sameButRx_takeMove (h : sameButRx s t) :
    ∃ (m : HostMove) (s1 t1 : State), s.takeMove = (m, s1) ∧ t.takeMove = (m, t1) ∧ sameButRx s1 t1 := by
  obtain ⟨q, rfl⟩ := exists_rx_of_sameButRx h
  unfold State.takeMove
  dsimp only
  split
  · exact ⟨_, _, _, rfl, rfl, h⟩
  · exact ⟨_, _, _, rfl, rfl, rfl⟩

/-- The same color is pulled. -/
theorem sameButRx_nextColor (h : sameButRx s t) :
    ∃ (p : Option Color) (s1 t1 : State), s.nextColor = (p, s1) ∧ t.nextColor = (p, t1) ∧ sameButRx s1 t1 := by
  obtain ⟨q, rfl⟩ := exists_rx_of_sameButRx h
  unfold State.nextColor
  cases s.colors.draw.1 with
  | none => exact ⟨_, _, _, rfl, rfl, rfl⟩
  | some p => exact ⟨_, _, _, rfl, rfl, rfl⟩

theorem sameButRx_loadAcc (h : sameButRx s t) (v : Triplet) : sameButRx (s.loadAcc v) (t.loadAcc v) := by
  obtain ⟨q, rfl⟩ := exists_rx_of_sameButRx h
  unfold State.loadAcc
  cases s.seq <;> rfl

theorem sameButRx_afterFlush (h : sameButRx s t) (w : Which) (k : Fin 20) :
    sameButRx (s.afterFlush w k) (t.afterFlush w k) := by
  obtain ⟨q, rfl⟩ := exists_rx_of_sameButRx h
  unfold State.afterFlush
  split
  · rfl
  · cases w <;> rfl

theorem sameButRx_afterSym (h : sameButRx s t) (c : Fin 4) (j : Fin 3) :
    sameButRx (s.afterSym c j) (t.afterSym c j) := by
  obtain ⟨q, rfl⟩ := exists_rx_of_sameButRx h
  unfold State.afterSym
  split
  · rfl
  · split <;> rfl

theorem sameButRx_afterSend (h : sameButRx s t) : sameButRx s.afterSend t.afterSend := by
  have hseq := sameButRx_seq h
  have hrx : t.cfg.hasRx = s.cfg.hasRx := by rw [sameButRx_cfg h]
  cases hq : s.seq with
  | flSend w k =>
    rw [afterSend_flSend s w k hq, afterSend_flSend t w k (hseq.trans hq), hrx]
    split
    · exact sameButRx_setSeq h _
    · exact sameButRx_afterFlush h w k
  | symSend c j =>
    rw [afterSend_symSend s c j hq, afterSend_symSend t c j (hseq.trans hq), hrx]
    split
    · exact sameButRx_setSeq h _
    · exact sameButRx_afterSym h c j
  | _ => simpa only [State.afterSend, hseq, hq] using h

theorem sameButRx_afterDrain (h : sameButRx s t) : sameButRx s.afterDrain t.afterDrain := by
  have hseq := sameButRx_seq h
  cases hq : s.seq with
  | flDrain w k =>
    rw [afterDrain_flDrain s w k hq, afterDrain_flDrain t w k (hseq.trans hq)]
    exact sameButRx_afterFlush h w k
  | symDrain c j =>
    rw [afterDrain_symDrain s c j hq, afterDrain_symDrain t c j (hseq.trans hq)]
    exact sameButRx_afterSym h c _
  | _ => simpa only [State.afterDrain, hseq, hq] using h

/-- R43: the answer drawn is dropped, so the two scripts go their own ways and nothing else does. -/
theorem sameButRx_tryRecv (h : sameButRx s t) : sameButRx s.tryRecv t.tryRecv :=
  sameButRx_map (fun _ _ => rfl) h

/-- R84: whether there is a receive attempt is up to the configuration. -/
theorem sameButRx_drain (h : sameButRx s t) : sameButRx s.drain t.drain := by
  unfold State.drain
  rw [sameButRx_cfg h]
  split
  · exact sameButRx_afterDrain (sameButRx_tryRecv h)
  · exact h

theorem sameButRx_attempt (h : sameButRx s t) (v : Byte) : sameButRx (s.attempt v).2 (t.attempt v).2 := by
  obtain ⟨q, rfl⟩ := exists_rx_of_sameButRx h
  rw [attempt_eq, attempt_eq]
  dsimp only
  split
  · exact sameButRx_afterSend rfl
  · rfl
  · rfl

end SameButRx

/-! ### The functional forms on two related states -/

/-- Two flows of one kind: the same end, with states that `rel` relates, or no end in both. -/
inductive FlowsAgree (rel : State → State → Prop) : Flow → Flow → Prop where
  | ok {s t : State} (h : rel s t) : FlowsAgree rel (.ok s) (.ok t)
  | err (e : ErrTag) {s t : State} (h : rel s t) : FlowsAgree rel (.err e s) (.err e t)
  | never : FlowsAgree rel .never .never

theorem FlowsAgree.andThen {rel : State → State → Prop} {f g : Flow} {next : State → Flow} (hfg : FlowsAgree rel f g)
    (hnext : ∀ s t : State, rel s t → FlowsAgree rel (next s) (next t)) :
    FlowsAgree rel (f.andThen next) (g.andThen next) := by
  cases hfg with
  | ok h => exact hnext _ _ h
  | err e h => exact .err e h
  | never => exact .never

theorem FlowsAgree.answer {f g : Flow} (hfg : FlowsAgree sameButRx f g) :
    outcomesAgree sameButRx f.answer g.answer := by
  cases hfg with
  | ok h => exact sameButRx_setRet h _
  | err e h => exact sameButRx_setRet h _
  | never => rfl

section Related
variable {s t : State}

theorem sendByte_flowsAgree (v : Byte) (h : sameButRx s t) : FlowsAgree sameButRx (s.sendByte v) (t.sendByte v) := by
  obtain ⟨q, rfl⟩ := exists_rx_of_sameButRx h
  rw [sendByte_eq, sendByte_eq]
  dsimp only
  split
  · exact .never
  · exact .ok (sameButRx_afterSend rfl)
  · exact .never
  · exact .err _ rfl

theorem encodeByte_flowsAgree (b : Byte) (h : sameButRx s t) :
    FlowsAgree sameButRx (s.encodeByte b) (t.encodeByte b) :=
  (sendByte_flowsAgree _ (sameButRx_loadAcc h _)).andThen fun _ _ h1 =>
    (sendByte_flowsAgree _ (sameButRx_drain h1)).andThen fun _ _ h2 => sendByte_flowsAgree _ (sameButRx_drain h2)

theorem flushBytes_flowsAgree (n : Nat) (h : sameButRx s t) :
    FlowsAgree sameButRx (s.flushBytes n) (t.flushBytes n) := by
  induction n generalizing s t with
  | zero => exact .ok h
  | succ n ih => exact (sendByte_flowsAgree _ h).andThen fun _ _ h1 => ih (sameButRx_drain h1)

theorem encodeAll_flowsAgree (bs : List Byte) (h : sameButRx s t) :
    FlowsAgree sameButRx (s.encodeAll bs) (t.encodeAll bs) := by
  induction bs generalizing s t with
  | nil => exact .ok h
  | cons b bs ih => exact (encodeByte_flowsAgree b h).andThen fun _ _ h1 => ih h1

/-- Step 2 of R112 and R113: both states pull the same color, and the loop goes on from related states. -/
theorem writeLoop_flowsAgree (n : Nat) (h : sameButRx s t) :
    FlowsAgree sameButRx (s.writeLoop n) (t.writeLoop n) := by
  induction n generalizing s t with
  | zero => exact .never
  | succ n ih =>
    obtain ⟨a, s1, t1, hs, ht, hnext⟩ := sameButRx_nextColor h
    unfold State.writeLoop
    rw [hs, ht]
    cases a with
    | none => exact flushBytes_flowsAgree _ (sameButRx_map (fun _ _ => rfl) hnext)
    | some p =>
      exact (encodeAll_flowsAgree _ (sameButRx_map (fun _ _ => rfl) hnext)).andThen fun _ _ h2 => ih h2

theorem writeLoop_colors_flowsAgree (h : sameButRx s t) :
    FlowsAgree sameButRx (s.writeLoop (s.colors.colors.length + 1)) (t.writeLoop (t.colors.colors.length + 1)) := by
  rw [sameButRx_colors h]
  exact writeLoop_flowsAgree _ h

theorem writeAll_flowsAgree (h : sameButRx s t) : FlowsAgree sameButRx s.writeAll t.writeAll := by
  unfold State.writeAll
  rw [sameButRx_cfg h]
  split
  · exact (flushBytes_flowsAgree _ h).andThen fun _ _ h1 => writeLoop_colors_flowsAgree h1
  · exact writeLoop_colors_flowsAgree h

theorem write_outcomesAgree (v : Variant) (cs : List Color) (h : sameButRx s t) :
    outcomesAgree sameButRx (s.write v cs) (t.write v cs) := by
  unfold State.write
  rw [sameButRx_cfg h, sameButRx_busy h]
  split
  · rfl
  · split
    · rfl
    · exact (writeAll_flowsAgree (sameButRx_map (fun _ _ => rfl) h)).answer

/-- A pixel is encoded in both states, or refused in both: their variant is the same (R110, R111). -/
theorem pixel_outcomesAgree (v : Variant) (bs : List Byte) (h : sameButRx s t) :
    outcomesAgree sameButRx (if s.cfg.variant = v then (s.encodeAll bs).answer else .refused .notOfThisVariant)
      (if t.cfg.variant = v then (t.encodeAll bs).answer else .refused .notOfThisVariant) := by
  rw [sameButRx_cfg h]
  split
  · exact (encodeAll_flowsAgree bs h).answer
  · rfl

theorem exec_outcomesAgree (i : Instr) (h : sameButRx s t) : outcomesAgree sameButRx (exec i s) (exec i t) := by
  cases i with
  | sym0 => exact sameButRx_setRet h _
  | sym1 => exact sameButRx_setRet h _
  | t b => exact sameButRx_setRet h _
  | encode b => exact (encodeByte_flowsAgree b h).answer
  | send v => exact (sendByte_flowsAgree v h).answer
  | drain => exact sameButRx_setRet (sameButRx_drain h) _
  | flush => exact (flushBytes_flowsAgree _ h).answer
  | pixelGrb r g b => exact pixel_outcomesAgree .grb3 (pixelBytes3 r g b) h
  | pixelGrbw r g b w => exact pixel_outcomesAgree .grbw4 (pixelBytes4 r g b w) h
  | writeGrb cs => exact write_outcomesAgree _ _ h
  | writeGrbw cs => exact write_outcomesAgree _ _ h

/-! ### The step on two related states -/

theorem stepFetch_outcomesAgree (h : sameButRx s t) : outcomesAgree sameButRx s.stepFetch t.stepFetch := by
  obtain ⟨a, s1, t1, hs, ht, hnext⟩ := sameButRx_nextColor h
  unfold State.stepFetch
  rw [hs, ht, sameButRx_cfg h]
  cases a with
  | none => exact sameButRx_map (fun _ _ => rfl) hnext
  | some p =>
    dsimp only
    split
    · exact sameButRx_map (f := State.loadPix p) (fun _ _ => rfl) hnext
    · rfl

theorem stepEnc_outcomesAgree (c : Fin 4) (h : sameButRx s t) :
    outcomesAgree sameButRx (s.stepEnc c) (t.stepEnc c) := by
  unfold State.stepEnc
  simp only [sameButRx_cfg h, sameButRx_readPix h]
  split
  · rfl
  · exact sameButRx_loadAcc h _

theorem stepSymSend_outcomesAgree (j : Fin 3) (h : sameButRx s t) :
    outcomesAgree sameButRx (s.stepSymSend j) (t.stepSymSend j) := by
  unfold State.stepSymSend
  rw [sameButRx_readAcc h]
  exact sameButRx_attempt h _

/-- The own step: the two states are at the same position, and the one rule of the position relates what it gives. -/
theorem stepOwn_outcomesAgree (h : sameButRx s t) : outcomesAgree sameButRx s.stepOwn t.stepOwn := by
  unfold State.stepOwn
  rw [sameButRx_cfg h, sameButRx_seq h]
  split
  · cases s.seq with
    | idle => exact h
    | flSend w k => exact sameButRx_attempt h _
    | flDrain w k => exact sameButRx_afterDrain (sameButRx_tryRecv h)
    | fetch => exact stepFetch_outcomesAgree h
    | enc c => exact stepEnc_outcomesAgree c h
    | symSend c j => exact stepSymSend_outcomesAgree j h
    | symDrain c j => exact sameButRx_afterDrain (sameButRx_tryRecv h)
  · rfl

theorem stepStart_outcomesAgree (source : ColorSource) (h : sameButRx s t) :
    outcomesAgree sameButRx (s.stepStart source) (t.stepStart source) := by
  unfold State.stepStart
  rw [sameButRx_busy h]
  split
  · rfl
  · exact sameButRx_map (f := State.acceptStart source) (fun _ _ => rfl) h

theorem sameButRx_benchInstr (f : Format) (bs : List Byte) (h : sameButRx s t) :
    t.benchInstr f bs = s.benchInstr f bs := by
  unfold State.benchInstr
  rw [sameButRx_busy h]

end Related

/-- Settles O52, by the four kinds of step. -/
theorem drainAnswersInfluenceNothing : Obligations.DrainAnswersInfluenceNothing := by
  intro s t h
  obtain ⟨m, s1, t1, hs, ht, hst⟩ := sameButRx_takeMove h
  unfold step
  rw [hs, ht]
  cases m with
  | quiet => exact stepOwn_outcomesAgree hst
  | start source => exact stepStart_outcomesAgree source hst
  | reset => exact sameButRx_map (f := State.hwReset) (fun _ _ => rfl) hst
  | perform f bs =>
    dsimp only
    rw [sameButRx_benchInstr f bs hst]
    split
    · exact exec_outcomesAgree _ hst
    · rfl

/-! ### The result is delivered where the WRITE ends (R44, R134) -/

/-- What `RES` holds of a result (R23). -/
def Delivered.reg : Delivered → ResultReg
  | .ok => .ok
  | .err e => .err e

/-- After the deliveries `before`: the WRITE goes on and delivers nothing, or it ends in `t` with one more delivery, of
the result that `RES` holds. -/
def GoesOnOrDelivers (before : List Delivered) (t : State) : Prop :=
  (t.seq ≠ .idle ∧ deliveredOf t.trace = before) ∨
    ∃ r : Delivered, t.seq = .idle ∧ deliveredOf t.trace = before ++ [r] ∧ t.res = r.reg

theorem finish_goesOnOrDelivers (s : State) : GoesOnOrDelivers (deliveredOf s.trace) s.finish :=
  .inr ⟨.ok, rfl, by simp, rfl⟩

theorem abort_goesOnOrDelivers (s : State) (e : ErrTag) : GoesOnOrDelivers (deliveredOf s.trace) (s.abort e) :=
  .inr ⟨.err e, rfl, by simp, rfl⟩

theorem afterFlush_goesOnOrDelivers (s : State) (w : Which) (k : Fin 20) :
    GoesOnOrDelivers (deliveredOf s.trace) (s.afterFlush w k) := by
  obtain ⟨k', -, h⟩ | ⟨-, h⟩ | ⟨-, h⟩ := afterFlush_cases s w k <;> rw [h]
  · exact .inl ⟨nofun, rfl⟩
  · exact .inl ⟨nofun, rfl⟩
  · exact finish_goesOnOrDelivers s

theorem afterSym_goesOnOrDelivers (s : State) (c : Fin 4) (j : Fin 3) :
    GoesOnOrDelivers (deliveredOf s.trace) (s.afterSym c j) := by
  obtain ⟨j', -, h⟩ | ⟨c', -, -, h⟩ | h := afterSym_cases s c j <;> rw [h]
  · exact .inl ⟨nofun, rfl⟩
  · exact .inl ⟨nofun, rfl⟩
  · exact .inl ⟨nofun, rfl⟩

theorem afterSend_goesOnOrDelivers {s : State} (hbusy : s.seq ≠ .idle) :
    GoesOnOrDelivers (deliveredOf s.trace) s.afterSend := by
  cases hq : s.seq with
  | idle => exact absurd hq hbusy
  | flSend w k =>
    rw [afterSend_flSend s w k hq]
    split
    · exact .inl ⟨nofun, rfl⟩
    · exact afterFlush_goesOnOrDelivers s w k
  | symSend c j =>
    rw [afterSend_symSend s c j hq]
    split
    · exact .inl ⟨nofun, rfl⟩
    · exact afterSym_goesOnOrDelivers s c j
  | _ => exact .inl (by simp [State.afterSend, hq])

theorem afterDrain_goesOnOrDelivers {s : State} (hbusy : s.seq ≠ .idle) :
    GoesOnOrDelivers (deliveredOf s.trace) s.afterDrain := by
  cases hq : s.seq with
  | idle => exact absurd hq hbusy
  | flDrain w k => rw [afterDrain_flDrain s w k hq]; exact afterFlush_goesOnOrDelivers s w k
  | symDrain c j => rw [afterDrain_symDrain s c j hq]; exact afterSym_goesOnOrDelivers s c _
  | _ => exact .inl (by simp [State.afterDrain, hq])

theorem attempt_goesOnOrDelivers (v : Byte) {s : State} (hbusy : s.seq ≠ .idle) :
    GoesOnOrDelivers (deliveredOf s.trace) (s.attempt v).2 := by
  rw [attempt_eq]
  split
  · simpa using afterSend_goesOnOrDelivers (s := { s with tx := _, trace := s.trace ++ [.tx v] }) hbusy
  · exact .inl ⟨hbusy, by simp⟩
  · simpa using abort_goesOnOrDelivers { s with tx := _, trace := s.trace ++ [.txerr v _] } _

theorem tryRecv_afterDrain_goesOnOrDelivers {s : State} (hbusy : s.seq ≠ .idle) :
    GoesOnOrDelivers (deliveredOf s.trace) s.tryRecv.afterDrain := by
  simpa using afterDrain_goesOnOrDelivers (s := s.tryRecv) hbusy

theorem deliveredOf_nextColor (s : State) : deliveredOf s.nextColor.2.trace = deliveredOf s.trace := by
  unfold State.nextColor
  split <;> simp

/-- R134: a busy block's own step ends the WRITE with its delivery, or delivers nothing. -/
theorem stepOwn_goesOnOrDelivers {s t : State} (hs : s.stepOwn = .next t) (hbusy : s.seq ≠ .idle) :
    GoesOnOrDelivers (deliveredOf s.trace) t := by
  obtain ⟨-, ⟨hq, -⟩ | ⟨_, _, -, rfl⟩ | ⟨_, _, -, rfl⟩ | ⟨_, _, -, rfl⟩ | ⟨-, -, rfl⟩ | ⟨_, -, -, -, rfl⟩ |
    ⟨c, _, hq, -, rfl⟩ | ⟨_, _, -, rfl⟩⟩ := stepOwn_next hs
  · exact absurd hq hbusy
  · exact attempt_goesOnOrDelivers _ hbusy
  · exact tryRecv_afterDrain_goesOnOrDelivers hbusy
  · exact tryRecv_afterDrain_goesOnOrDelivers hbusy
  · exact .inl ⟨nofun, deliveredOf_nextColor s⟩
  · exact .inl ⟨nofun, deliveredOf_nextColor s⟩
  · rw [loadAcc_enc s _ c hq]
    exact .inl ⟨nofun, rfl⟩
  · exact attempt_goesOnOrDelivers _ hbusy

theorem readRes_of_idle {s : State} (hidle : s.seq = .idle) : s.readRes = some s.res := by
  simp [State.readRes, hidle]

/-- Settles O33: a busy block's own step ends the WRITE or goes on; an idle block waits or accepts a `Start`. -/
theorem deliveryEndsTheWrite : Obligations.DeliveryEndsTheWrite := by
  intro s t hd hr hstep
  rw [← takeMove_seq s, ← takeMove_trace s]
  obtain ⟨-, hown⟩ | ⟨source, -, hidle, rfl⟩ | ⟨hm, -⟩ := step_next_of_disciplined hd hstep
  · by_cases hq : s.takeMove.2.seq = .idle
    · obtain rfl := stepOwn_idle hown hq
      exact ⟨fun hbusy => absurd hq hbusy, fun _ => rfl⟩
    · obtain ⟨hbusy, hnone⟩ | ⟨r, hidle, hone, hres⟩ := stepOwn_goesOnOrDelivers hown hq
      · exact ⟨fun _ hidle => absurd hidle hbusy, fun _ => hnone⟩
      · refine ⟨fun _ _ => ⟨r, hone, ?_, readRes_of_idle hidle⟩, fun h => absurd hidle (h.resolve_left hq)⟩
        cases r <;> exact hres
  · exact ⟨fun hbusy => absurd hidle hbusy, fun _ => rfl⟩
  · exact absurd hm hr

end Sys2Proof.Machine

/-! Encodings (spec/30_encoding.md): the bits of a triplet, what the decoder reads in each format and what it refuses,
where the bytes of a frame stand, and the bytes a step puts on the wire. -/

namespace Sys2Proof.Machine

/-! ### The 24 bits of a triplet (R62, R63) -/

/-- Two triplets with the same eight symbols are equal. -/
theorem triplet_eq_of_symbols {v w : Triplet}
    (h : ∀ i : Fin 8, v.getLsbD (3 * i.val + 2) = w.getLsbD (3 * i.val + 2) ∧
      v.getLsbD (3 * i.val + 1) = w.getLsbD (3 * i.val + 1) ∧ v.getLsbD (3 * i.val) = w.getLsbD (3 * i.val)) :
    v = w := by
  refine BitVec.eq_of_getLsbD_eq fun n hn => ?_
  obtain ⟨h2, h1, h0⟩ := h ⟨n / 3, by omega⟩
  obtain hr | hr | hr : n = 3 * (n / 3) ∨ n = 3 * (n / 3) + 1 ∨ n = 3 * (n / 3) + 2 := by omega
  · rw [hr]; exact h0
  · rw [hr]; exact h1
  · rw [hr]; exact h2

theorem getLsbD_dataBit (b : Byte) (i n : Nat) (hi : i < 8) :
    (dataBit b i).getLsbD n = (decide (n = 3 * i + 1) && b.getLsbD i) := by
  unfold dataBit
  cases b.getLsbD i with
  | false => simp
  | true =>
    have hbit : 1#24 <<< (3 * i + 1) = BitVec.twoPow 24 (3 * i + 1) := rfl
    rw [if_pos rfl, hbit, BitVec.getLsbD_twoPow]
    grind

/-- R62: the symbol of data bit `i` is `1`, the bit, `0`. -/
theorem tripletBits_symbol (b : Byte) (i : Fin 8) :
    (tripletBits b).getLsbD (3 * i.val + 2) = true ∧ (tripletBits b).getLsbD (3 * i.val + 1) = b.getLsbD i.val ∧
      (tripletBits b).getLsbD (3 * i.val) = false := by
  simp only [tripletBits, BitVec.getLsbD_or, getLsbD_dataBit, Nat.reduceLT]
  fin_cases i <;> simp

/-- R62: a value is a legal triplet when the always-one and the always-zero bit of each symbol are. -/
theorem legal_iff_symbols (v : Triplet) :
    v &&& 0xB6DB6D#24 = 0x924924#24 ↔
      ∀ i : Fin 8, v.getLsbD (3 * i.val + 2) = true ∧ v.getLsbD (3 * i.val) = false := by
  have hmask : ∀ i : Fin 8, (0xB6DB6D#24).getLsbD (3 * i.val + 2) = true ∧
      (0xB6DB6D#24).getLsbD (3 * i.val + 1) = false ∧ (0xB6DB6D#24).getLsbD (3 * i.val) = true := by decide
  have hones : ∀ i : Fin 8, (0x924924#24).getLsbD (3 * i.val + 2) = true ∧
      (0x924924#24).getLsbD (3 * i.val + 1) = false ∧ (0x924924#24).getLsbD (3 * i.val) = false := by decide
  constructor
  · intro h i
    have hbit : ∀ n, (v.getLsbD n && (0xB6DB6D#24).getLsbD n) = (0x924924#24).getLsbD n := fun n => by
      rw [← BitVec.getLsbD_and, h]
    exact ⟨by simpa only [hmask, hones, Bool.and_true] using hbit (3 * i.val + 2),
      by simpa only [hmask, hones, Bool.and_true] using hbit (3 * i.val)⟩
  · intro h
    refine triplet_eq_of_symbols fun i => ?_
    simp only [BitVec.getLsbD_and, hmask, hones, h, Bool.and_true, Bool.and_false, and_self]

/-- R63: `b[i] = v[3i+1]`. -/
theorem recoverByte_getLsbD (v : Triplet) (i : Fin 8) :
    (recoverByte v).getLsbD i.val = v.getLsbD (3 * i.val + 1) := by
  unfold recoverByte
  rw [BitVec.getLsbD_append]
  simp only [BitVec.getLsbD_append, BitVec.getLsbD_ofBool]
  fin_cases i <;> simp

/-- R63: encoding the byte recovered from a legal triplet gives the triplet back. -/
theorem tripletBits_recoverByte {v : Triplet} (h : v &&& 0xB6DB6D#24 = 0x924924#24) :
    tripletBits (recoverByte v) = v := by
  refine triplet_eq_of_symbols fun i => ?_
  obtain ⟨hone, hzero⟩ := (legal_iff_symbols v).1 h i
  obtain ⟨hone', hdata, hzero'⟩ := tripletBits_symbol (recoverByte v) i
  exact ⟨hone'.trans hone.symm, hdata.trans (recoverByte_getLsbD v i), hzero'.trans hzero.symm⟩

theorem legal_tripletBits (b : Byte) : tripletBits b &&& 0xB6DB6D#24 = 0x924924#24 :=
  (legal_iff_symbols _).2 fun i => ⟨(tripletBits_symbol b i).1, (tripletBits_symbol b i).2.2⟩

theorem tripletBits_injective : Function.Injective tripletBits :=
  Function.LeftInverse.injective fun b => (recoverByte_tripletBits b).1

/-- R62: the always-one and always-zero masks over the 24 bits and over each of the three bytes. -/
theorem tripletBits_masks : ∀ b : Byte,
    tripletBits b &&& 0x924924#24 = 0x924924#24 ∧ tripletBits b &&& 0x249249#24 = 0#24 ∧
    tripletByte (tripletBits b) 0 &&& 0x92#8 = 0x92#8 ∧ tripletByte (tripletBits b) 0 &&& 0x24#8 = 0#8 ∧
    tripletByte (tripletBits b) 1 &&& 0x49#8 = 0x49#8 ∧ tripletByte (tripletBits b) 1 &&& 0x92#8 = 0#8 ∧
    tripletByte (tripletBits b) 2 &&& 0x24#8 = 0x24#8 ∧ tripletByte (tripletBits b) 2 &&& 0x49#8 = 0#8 := by
  decide +kernel

/-- R46: bit `n` of byte `j`. -/
theorem tripletByte_getLsbD (v : Triplet) (j : Fin 3) (n : Nat) (hn : n < 8) :
    (tripletByte v j).getLsbD n = v.getLsbD (16 - 8 * j.val + n) := by
  fin_cases j <;> simp [tripletByte, hn]

/-- A data bit, read where byte `j` of the triplet has it. -/
theorem tripletByte_dataBit (b : Byte) (i : Fin 8) (j : Fin 3) (n : Nat) (hn : n < 8)
    (hpos : 16 - 8 * j.val + n = 3 * i.val + 1) : (tripletByte (tripletBits b) j).getLsbD n = b.getLsbD i.val := by
  rw [tripletByte_getLsbD _ j n hn, hpos]
  exact (tripletBits_symbol b i).2.1

/-- Settles O5, from the symbols: a legal triplet is fixed by its data bits. -/
theorem legalTripletsAreTheTriplets : Obligations.LegalTripletsAreTheTriplets := by
  refine ⟨tripletBits_symbol, tripletBits_masks, fun b => ?_, fun b => (recoverByte_tripletBits b).1,
    recoverByte_getLsbD, fun v => ⟨fun h => ⟨recoverByte v, (tripletBits_recoverByte h).symm⟩, ?_⟩,
    fun _ => tripletBits_recoverByte, fun _ _ h => tripletBits_injective h, tripletOf_eq_tripletBits⟩
  · refine ⟨?_, ?_, ?_, ?_, ?_, ?_, ?_, ?_⟩
    · exact tripletByte_dataBit b 7 0 6 (by decide) rfl
    · exact tripletByte_dataBit b 6 0 3 (by decide) rfl
    · exact tripletByte_dataBit b 5 0 0 (by decide) rfl
    · exact tripletByte_dataBit b 4 1 5 (by decide) rfl
    · exact tripletByte_dataBit b 3 1 2 (by decide) rfl
    · exact tripletByte_dataBit b 2 2 7 (by decide) rfl
    · exact tripletByte_dataBit b 1 2 4 (by decide) rfl
    · exact tripletByte_dataBit b 0 2 1 (by decide) rfl
  · rintro ⟨b, rfl⟩
    exact legal_tripletBits b

/-! ### The bytes of a triplet in wire order (R46) -/

theorem getLsbD_joined (b0 b1 b2 : Byte) (n : Nat) : (b0 ++ b1 ++ b2 : Triplet).getLsbD n =
    if n < 8 then b2.getLsbD n else if n - 8 < 8 then b1.getLsbD (n - 8) else b0.getLsbD (n - 8 - 8) := by
  rw [BitVec.getLsbD_append, BitVec.getLsbD_append]

theorem tripletToBytes_joined (b0 b1 b2 : Byte) : tripletToBytes (b0 ++ b1 ++ b2 : Triplet) = [b0, b1, b2] := by
  have h0 : (b0 ++ b1 ++ b2 : Triplet).extractLsb' 16 8 = b0 := by
    refine BitVec.eq_of_getLsbD_eq fun n hn => ?_
    rw [BitVec.getLsbD_extractLsb', getLsbD_joined]
    grind
  have h1 : (b0 ++ b1 ++ b2 : Triplet).extractLsb' 8 8 = b1 := by
    refine BitVec.eq_of_getLsbD_eq fun n hn => ?_
    rw [BitVec.getLsbD_extractLsb', getLsbD_joined]
    grind
  have h2 : (b0 ++ b1 ++ b2 : Triplet).extractLsb' 0 8 = b2 := BitVec.extractLsb'_append_eq_right
  rw [tripletToBytes, h0, h1, h2]

theorem joined_tripletBytes (v : Triplet) :
    v.extractLsb' 16 8 ++ v.extractLsb' 8 8 ++ v.extractLsb' 0 8 = v := by
  rw [BitVec.extractLsb'_append_extractLsb'_eq_extractLsb' (show 16 = 8 + 8 from rfl)]
  exact (BitVec.extractLsb'_append_extractLsb'_eq_extractLsb' rfl).trans BitVec.extractLsb'_eq_self

theorem legalTriplet_iff (v : Triplet) : legalTriplet v = true ↔ v &&& 0xB6DB6D#24 = 0x924924#24 := by
  simp [legalTriplet]

theorem takeTriplet_cons (b0 b1 b2 : Byte) (rest : List Byte) :
    takeTriplet (b0 :: b1 :: b2 :: rest) =
      if legalTriplet (b0 ++ b1 ++ b2) then .ok (recoverByte (b0 ++ b1 ++ b2), rest) else .error .notATriplet := rfl

theorem takeTriplet_of_length_lt {bs : List Byte} (h : bs.length < 3) : takeTriplet bs = .error .wrongLength := by
  match bs, h with
  | [], _ => rfl
  | [_], _ => rfl
  | [_, _], _ => rfl

/-! ### The readers of the decoder, each with the encoding it reads -/

theorem bind_eq_ok_iff {ε α β : Type} {x : Except ε α} {f : α → Except ε β} {b : β} :
    (x >>= f) = .ok b ↔ ∃ a, x = .ok a ∧ f a = .ok b := by
  cases x with
  | error e => exact ⟨nofun, nofun⟩
  | ok a => exact ⟨fun h => ⟨a, rfl, h⟩, fun ⟨_, ha, h⟩ => by cases ha; exact h⟩

/-- The reader `take` reads off the front of a byte stream exactly the encodings `enc`. -/
def Reads {α : Type} (take : List Byte → Except DecodeError (α × List Byte)) (enc : α → List Byte) : Prop :=
  ∀ (bs : List Byte) (a : α) (rest : List Byte), take bs = .ok (a, rest) ↔ bs = enc a ++ rest

/-- R62, R63: a triplet read is the encoding of the byte recovered. -/
theorem reads_takeTriplet : Reads takeTriplet encodeTriplet := by
  intro bs b rest
  constructor
  · intro h
    match bs, h with
    | b0 :: b1 :: b2 :: tail, h =>
      rw [takeTriplet_cons] at h
      split at h
      · rename_i hlegal
        cases h
        rw [encodeTriplet, tripletBits_recoverByte ((legalTriplet_iff _).1 hlegal), tripletToBytes_joined]
        rfl
      · cases h
  · rintro rfl
    obtain ⟨hrecover, hlegal⟩ := recoverByte_tripletBits b
    simp only [encodeTriplet, tripletToBytes, List.cons_append, List.nil_append]
    rw [takeTriplet_cons, joined_tripletBytes, if_pos hlegal, hrecover]

theorem takeZeros_eq_ok_iff {n : Nat} {bs rest : List Byte} :
    takeZeros n bs = .ok rest ↔ bs = List.replicate n 0x00#8 ++ rest := by
  induction n generalizing bs with
  | zero => simp [takeZeros]
  | succ n ih =>
    cases bs with
    | nil => simp [takeZeros, List.replicate_succ]
    | cons b bs =>
      by_cases hb : b = 0x00#8
      · simp [takeZeros, hb, ih, List.replicate_succ]
      · simp [takeZeros, hb, List.replicate_succ]

/-- R65: zeros short of a flush, and nothing after them. -/
theorem takeZeros_short {k n : Nat} (h : k < n) : takeZeros n (List.replicate k 0x00#8) = .error .wrongLength := by
  induction k generalizing n with
  | zero =>
    obtain ⟨n, rfl⟩ := Nat.exists_eq_add_of_lt h
    rfl
  | succ k ih =>
    obtain ⟨n, rfl⟩ : ∃ m, n = m + 1 := ⟨n - 1, by omega⟩
    simpa [takeZeros, List.replicate_succ] using ih (by omega)

/-- R65: a byte that is not zero among the first `n`. -/
theorem takeZeros_nonzero {k n : Nat} {b : Byte} (bs : List Byte) (h : k < n) (hb : b ≠ 0x00#8) :
    takeZeros n (List.replicate k 0x00#8 ++ b :: bs) = .error .notAFlush := by
  induction k generalizing n with
  | zero =>
    obtain ⟨n, rfl⟩ : ∃ m, n = m + 1 := ⟨n - 1, by omega⟩
    simp [takeZeros, hb]
  | succ k ih =>
    obtain ⟨n, rfl⟩ : ∃ m, n = m + 1 := ⟨n - 1, by omega⟩
    simpa [takeZeros, List.replicate_succ] using ih (by omega)

theorem expectEnd_eq_ok_iff {bs : List Byte} {u : Unit} : expectEnd bs = .ok u ↔ bs = [] := by
  simp [expectEnd]

/-- R64: green, red, blue. -/
theorem reads_takePixel3 : Reads takePixel3 fun c => encodePixel3 c.r c.g c.b := by
  intro bs c rest
  simp only [takePixel3, bind_eq_ok_iff, Prod.exists, reads_takeTriplet _ _ _]
  constructor
  · rintro ⟨g, _, rfl, r, _, rfl, b, _, rfl, h⟩
    cases h
    simp [encodePixel3]
  · rintro rfl
    exact ⟨c.g, _, by simp [encodePixel3], c.r, _, rfl, c.b, _, rfl, rfl⟩

/-- R64: green, red, blue, white. -/
theorem reads_takePixel4 : Reads takePixel4 fun c => encodePixel4 c.r c.g c.b c.w := by
  intro bs c rest
  simp only [takePixel4, bind_eq_ok_iff, Prod.exists, reads_takePixel3 _ _ _, reads_takeTriplet _ _ _]
  constructor
  · rintro ⟨p, _, rfl, w, _, rfl, h⟩
    cases h
    simp [encodePixel4]
  · rintro rfl
    exact ⟨⟨c.r, c.g, c.b⟩, _, by simp [encodePixel4], c.w, _, rfl, rfl⟩

/-- A list of items read is the items' encodings side by side. -/
theorem takeMany_eq_ok_iff {α : Type} {take : List Byte → Except DecodeError (α × List Byte)} {enc : α → List Byte}
    (hread : Reads take enc) {n : Nat} {bs rest : List Byte} {as : List α} :
    takeMany take n bs = .ok (as, rest) ↔ as.length = n ∧ bs = as.flatMap enc ++ rest := by
  induction n generalizing bs rest as with
  | zero =>
    cases as <;> simp [takeMany, eq_comm]
  | succ n ih =>
    simp only [takeMany, bind_eq_ok_iff, Prod.exists, hread _ _ _, ih]
    constructor
    · rintro ⟨a, _, rfl, as', _, ⟨hlen, rfl⟩, h⟩
      cases h
      simp [hlen]
    · rintro ⟨hlen, rfl⟩
      match as, hlen with
      | a :: as', hlen => exact ⟨a, _, by simp, as', _, ⟨by simpa using hlen, rfl⟩, rfl⟩

theorem preFlush_eq_ok_iff {idleHigh : Bool} {bs rest : List Byte} :
    (if idleHigh then takeZeros 20 bs else .ok bs) = .ok rest ↔
      bs = (if idleHigh then encodeFlush else []) ++ rest := by
  cases idleHigh with
  | false => simp
  | true => exact takeZeros_eq_ok_iff

/-- The reader of a frame, with the pre-flush read first in either case. -/
theorem takeFrame_eq {α : Type} (take : List Byte → Except DecodeError (α × List Byte)) (n : Nat) (idleHigh : Bool)
    (bs : List Byte) :
    takeFrame take n idleHigh bs =
      (if idleHigh then takeZeros 20 bs else .ok bs) >>= fun bs1 =>
        takeMany take ((bs1.length - 20) / n) bs1 >>= fun p =>
          takeZeros 20 p.2 >>= fun bs3 => expectEnd bs3 >>= fun _ => .ok p.1 := by
  cases idleHigh <;> rfl

/-- R66: a frame read is the encoding of its colors; the length alone says how many there are. -/
theorem takeFrame_eq_ok_iff {α : Type} {take : List Byte → Except DecodeError (α × List Byte)} {enc : α → List Byte}
    (hread : Reads take enc) {n : Nat} (hn : 0 < n) (hlen : ∀ as : List α, (as.flatMap enc).length = n * as.length)
    {idleHigh : Bool} {bs : List Byte} {as : List α} :
    takeFrame take n idleHigh bs = .ok as ↔ bs = encodeFrame idleHigh (as.flatMap enc) := by
  simp only [takeFrame_eq, bind_eq_ok_iff, Prod.exists, preFlush_eq_ok_iff, takeMany_eq_ok_iff hread,
    takeZeros_eq_ok_iff, expectEnd_eq_ok_iff]
  constructor
  · rintro ⟨_, rfl, as', _, ⟨-, rfl⟩, _, rfl, -, rfl, h⟩
    cases h
    simp [encodeFrame, encodeFlush]
  · rintro rfl
    refine ⟨as.flatMap enc ++ encodeFlush, by simp [encodeFrame], as, encodeFlush, ⟨?_, rfl⟩, [],
      by simp [encodeFlush], (), rfl, rfl⟩
    rw [List.length_append, hlen, Laws.encodeFlush_length, Nat.add_sub_cancel, Nat.mul_div_cancel_left _ hn]

/-! ### What decodes in each format -/

theorem decode_sym_eq_ok_iff {bs : List Byte} {i : Instr} :
    decode .sym bs = .ok i ↔ (bs = [0b100#8] ∧ .sym0 = i) ∨ (bs = [0b110#8] ∧ .sym1 = i) := by
  match bs with
  | [] => simp [decode]
  | [b] =>
    by_cases h0 : b = 0b100#8
    · simp [decode, h0]
    · by_cases h1 : b = 0b110#8
      · simp [decode, h1]
      · simp [decode, h0, h1]
  | _ :: _ :: _ => simp [decode]

theorem decode_triplet_eq_ok_iff {bs : List Byte} {i : Instr} :
    decode .triplet bs = .ok i ↔ ∃ b, bs = encodeTriplet b ∧ .encode b = i := by
  simp [decode, bind_eq_ok_iff, reads_takeTriplet _ _ _, expectEnd_eq_ok_iff]

theorem decode_byte_eq_ok_iff {bs : List Byte} {i : Instr} :
    decode .byte bs = .ok i ↔ ∃ v, bs = [v] ∧ .send v = i := by
  match bs with
  | [] => simp [decode]
  | [b] => simp [decode]
  | _ :: _ :: _ => simp [decode]

theorem decode_empty_eq_ok_iff {bs : List Byte} {i : Instr} : decode .empty bs = .ok i ↔ bs = [] ∧ .drain = i := by
  simp [decode, bind_eq_ok_iff, expectEnd_eq_ok_iff]

theorem decode_flushf_eq_ok_iff {bs : List Byte} {i : Instr} :
    decode .flushf bs = .ok i ↔ bs = encodeFlush ∧ .flush = i := by
  simp [decode, bind_eq_ok_iff, takeZeros_eq_ok_iff, expectEnd_eq_ok_iff, encodeFlush]

theorem decode_pixel3_eq_ok_iff {bs : List Byte} {i : Instr} :
    decode .pixel3 bs = .ok i ↔ ∃ c : Rgb, bs = encodePixel3 c.r c.g c.b ∧ .pixelGrb c.r c.g c.b = i := by
  simp [decode, bind_eq_ok_iff, reads_takePixel3 _ _ _, expectEnd_eq_ok_iff]

theorem decode_pixel4_eq_ok_iff {bs : List Byte} {i : Instr} :
    decode .pixel4 bs = .ok i ↔
      ∃ c : Rgbw, bs = encodePixel4 c.r c.g c.b c.w ∧ .pixelGrbw c.r c.g c.b c.w = i := by
  simp [decode, bind_eq_ok_iff, reads_takePixel4 _ _ _, expectEnd_eq_ok_iff]

theorem decode_frame_grb3_eq_ok_iff {idleHigh : Bool} {bs : List Byte} {i : Instr} :
    decode (.frame .grb3 idleHigh) bs = .ok i ↔
      ∃ cs, bs = encodeFrame idleHigh (encodePixels3 cs) ∧ .writeGrb cs = i := by
  simp [decode, bind_eq_ok_iff, takeFrame_eq_ok_iff reads_takePixel3 (Nat.succ_pos 8) Laws.encodePixels3_length,
    encodePixels3]

theorem decode_frame_grbw4_eq_ok_iff {idleHigh : Bool} {bs : List Byte} {i : Instr} :
    decode (.frame .grbw4 idleHigh) bs = .ok i ↔
      ∃ cs, bs = encodeFrame idleHigh (encodePixels4 cs) ∧ .writeGrbw cs = i := by
  simp [decode, bind_eq_ok_iff, takeFrame_eq_ok_iff reads_takePixel4 (Nat.succ_pos 11) Laws.encodePixels4_length,
    encodePixels4]

/-! ### The two directions -/

/-- Settles O6, by the operation: its encoding is among what its format reads. -/
theorem decodeInvertsEncode : Obligations.DecodeInvertsEncode := by
  intro cfg i _
  cases i with
  | sym0 => exact decode_sym_eq_ok_iff.2 (.inl ⟨rfl, rfl⟩)
  | sym1 => exact decode_sym_eq_ok_iff.2 (.inr ⟨rfl, rfl⟩)
  | t b => exact decode_triplet_eq_ok_iff.2 ⟨b, rfl, rfl⟩
  | encode b => exact decode_triplet_eq_ok_iff.2 ⟨b, rfl, rfl⟩
  | send v => exact decode_byte_eq_ok_iff.2 ⟨v, rfl, rfl⟩
  | drain => exact decode_empty_eq_ok_iff.2 ⟨rfl, rfl⟩
  | flush => exact decode_flushf_eq_ok_iff.2 ⟨rfl, rfl⟩
  | pixelGrb r g b => exact decode_pixel3_eq_ok_iff.2 ⟨⟨r, g, b⟩, rfl, rfl⟩
  | pixelGrbw r g b w => exact decode_pixel4_eq_ok_iff.2 ⟨⟨r, g, b, w⟩, rfl, rfl⟩
  | writeGrb cs => exact decode_frame_grb3_eq_ok_iff.2 ⟨cs, rfl, rfl⟩
  | writeGrbw cs => exact decode_frame_grbw4_eq_ok_iff.2 ⟨cs, rfl, rfl⟩

/-- Settles O7, by the format: what it reads are the encodings of its operations. -/
theorem encodeInvertsDecode : Obligations.EncodeInvertsDecode := by
  intro cfg f bs i h
  cases f with
  | sym =>
    obtain ⟨rfl, rfl⟩ | ⟨rfl, rfl⟩ := decode_sym_eq_ok_iff.1 h
    · exact ⟨rfl, rfl, rfl, rfl⟩
    · exact ⟨rfl, rfl, rfl, rfl⟩
  | triplet =>
    obtain ⟨b, rfl, rfl⟩ := decode_triplet_eq_ok_iff.1 h
    exact ⟨rfl, rfl, rfl, rfl⟩
  | byte =>
    obtain ⟨v, rfl, rfl⟩ := decode_byte_eq_ok_iff.1 h
    exact ⟨rfl, rfl, rfl, rfl⟩
  | empty =>
    obtain ⟨rfl, rfl⟩ := decode_empty_eq_ok_iff.1 h
    exact ⟨rfl, rfl, rfl, rfl⟩
  | flushf =>
    obtain ⟨rfl, rfl⟩ := decode_flushf_eq_ok_iff.1 h
    exact ⟨rfl, rfl, rfl, rfl⟩
  | pixel3 =>
    obtain ⟨c, rfl, rfl⟩ := decode_pixel3_eq_ok_iff.1 h
    exact ⟨rfl, rfl, rfl, rfl⟩
  | pixel4 =>
    obtain ⟨c, rfl, rfl⟩ := decode_pixel4_eq_ok_iff.1 h
    exact ⟨rfl, rfl, rfl, rfl⟩
  | frame v idleHigh =>
    cases v with
    | grb3 =>
      obtain ⟨cs, rfl, rfl⟩ := decode_frame_grb3_eq_ok_iff.1 h
      exact ⟨rfl, rfl, rfl, rfl⟩
    | grbw4 =>
      obtain ⟨cs, rfl, rfl⟩ := decode_frame_grbw4_eq_ok_iff.1 h
      exact ⟨rfl, rfl, rfl, rfl⟩

/-! ### What the decoder refuses -/

/-- R60, R66: the encoding of an operation has a length of its format. -/
theorem formatHasLength_encode (cfg : Cfg) (i : Instr) : formatHasLength (i.format cfg) (encode cfg i).length := by
  cases i with
  | writeGrb cs => exact ⟨cs.length, Laws.EncodedLength.writeGrb cs cfg⟩
  | writeGrbw cs => exact ⟨cs.length, Laws.EncodedLength.writeGrbw cs cfg⟩
  | flush => exact Laws.EncodedLength.flush cfg
  | _ => rfl

theorem formatHasLength_of_decode {f : Format} {bs : List Byte} {i : Instr} (h : decode f bs = .ok i) :
    formatHasLength f bs.length := by
  obtain ⟨rfl, hf, -⟩ := encodeInvertsDecode State.reset.cfg f bs i h
  simpa only [hf] using formatHasLength_encode (cfgForFormat State.reset.cfg f) i

theorem decode_triplet_three (b0 b1 b2 : Byte) :
    decode .triplet [b0, b1, b2] =
      if legalTriplet (b0 ++ b1 ++ b2) then .ok (.encode (recoverByte (b0 ++ b1 ++ b2))) else .error .notATriplet := by
  simp only [decode, takeTriplet_cons]
  split <;> rfl

/-- Settles O9: each refusal where the reader raises it, and the lengths from what decodes. -/
theorem decoderRefusesOtherPatterns : Obligations.DecoderRefusesOtherPatterns := by
  refine ⟨fun b0 b1 b2 => ?_, fun b h0 h1 => ?_, fun k b bs hk hb => ?_, fun f bs hlen => ?_, fun bs hlen => ?_,
    fun bs hne => ?_, fun bs hlen => ?_, fun b x bs => ?_, fun k hk => ?_, fun r g b x bs => ?_,
    fun r g b w x bs => ?_⟩
  · rw [decode_triplet_three, ne_eq, ← legalTriplet_iff]
    split <;> simp_all
  · simp [decode, h0, h1]
  · rw [decode, takeZeros_nonzero bs hk hb]
    rfl
  · cases hd : decode f bs with
    | error e => exact ⟨e, rfl⟩
    | ok i => exact absurd (formatHasLength_of_decode hd) hlen
  · match bs, hlen with
    | [], _ => exact ⟨rfl, rfl⟩
    | _ :: _ :: _, _ => exact ⟨rfl, rfl⟩
  · obtain ⟨b, bs, rfl⟩ := List.exists_cons_of_ne_nil hne
    rfl
  · rw [decode, takeTriplet_of_length_lt hlen]
    rfl
  · rw [decode, (reads_takeTriplet _ b (x :: bs)).2 rfl]
    rfl
  · obtain hk | hk := Nat.lt_or_gt_of_ne hk
    · rw [decode, takeZeros_short hk]
      rfl
    · obtain ⟨m, rfl⟩ := Nat.exists_eq_add_of_lt hk
      rw [Nat.add_assoc, decode, takeZeros_eq_ok_iff.2 (List.replicate_add 20 (m + 1) 0x00#8)]
      rfl
  · rw [decode, (reads_takePixel3 _ ⟨r, g, b⟩ (x :: bs)).2 rfl]
    rfl
  · rw [decode, (reads_takePixel4 _ ⟨r, g, b, w⟩ (x :: bs)).2 rfl]
    rfl

/-! ### Where the bytes of a frame stand (R66, R115) -/

section SideBySide

variable {α β : Type} {f : α → List β} {n : Nat} {l : List α} (h : ∀ a ∈ l, (f a).length = n)
include h

/-- Lists of one length side by side: the length of the whole. -/
theorem length_flatMap_of_length_eq : (l.flatMap f).length = n * l.length := by
  rw [List.length_flatMap, List.map_congr_left h, List.map_const', List.sum_replicate, smul_eq_mul, Nat.mul_comm]

/-- Lists of one length side by side: element `j` of list `m` stands at `n * m + j`. -/
theorem getElem?_flatMap_of_length_eq {m j : Nat} {a : α} (hm : l[m]? = some a) (hj : j < n) :
    (l.flatMap f)[n * m + j]? = (f a)[j]? := by
  induction l generalizing m with
  | nil => simp at hm
  | cons x l ih =>
    have hx : (f x).length = n := h x List.mem_cons_self
    rw [List.flatMap_cons]
    cases m with
    | zero =>
      obtain rfl : x = a := by simpa using hm
      rw [Nat.mul_zero, Nat.zero_add, List.getElem?_append_left (by omega)]
    | succ m =>
      have hpos : n * (m + 1) + j - n = n * m + j := by rw [Nat.mul_succ]; omega
      rw [List.getElem?_append_right (by rw [hx, Nat.mul_succ]; omega), hx, hpos]
      exact ih (fun b hb => h b (List.mem_cons_of_mem x hb)) (by simpa using hm)

end SideBySide

/-- R64: the wire bytes of a pixel are the triplets of its channel bytes in transmission order. -/
theorem pixelWire_eq_flatMap (c : Color) : pixelWire c = (colorBytes c).flatMap encodeTriplet := by
  cases c <;> rfl

theorem pixelWire_length (c : Color) : (pixelWire c).length = 3 * chCount (variantOf c) := by
  cases c <;> rfl

theorem pixelWire_getElem? {c : Color} {k j : Nat} {b : Byte} (hk : (colorBytes c)[k]? = some b) (hj : j < 3) :
    (pixelWire c)[3 * k + j]? = (encodeTriplet b)[j]? := by
  rw [pixelWire_eq_flatMap]
  exact getElem?_flatMap_of_length_eq (fun b _ => Laws.encodeTriplet_length b) hk hj

/-- The frame around its pixels: `20P` zeros before, 20 after. -/
theorem frameOf_eq (cfg : Cfg) (cs : List Color) :
    frameOf cfg cs =
      List.replicate (preLength cfg) 0x00#8 ++ (cs.flatMap pixelWire ++ List.replicate 20 0x00#8) := by
  unfold frameOf encodeFrame preLength
  cases cfg.idleHigh <;> simp [encodeFlush]

/-- Settles O10: the frame's three parts have the lengths named, and pixels and triplets stand side by side. -/
theorem framePlacesEveryByte : Obligations.FramePlacesEveryByte := by
  intro cfg cs hcs
  have hpixel : ∀ c ∈ cs, (pixelWire c).length = 3 * chCount cfg.variant := fun c hc => by
    rw [pixelWire_length, hcs c hc]
  have hlen := length_flatMap_of_length_eq hpixel
  rw [frameOf_eq]
  refine ⟨by simp [hlen, Nat.add_assoc], List.take_left' List.length_replicate, ?_, ?_⟩
  · rw [← List.append_assoc]
    exact List.drop_left' (by simp [hlen])
  · intro m k j c b hm hk hj
    obtain ⟨hmlt, hmc⟩ := List.getElem?_eq_some_iff.1 hm
    have hv : variantOf c = cfg.variant := hcs c (hmc ▸ List.getElem_mem hmlt)
    have hklt : k < chCount cfg.variant := by
      rw [← hv, ← colorBytes_length]
      exact (List.getElem?_eq_some_iff.1 hk).1
    have hin : 3 * k + j < 3 * chCount cfg.variant := by omega
    have hbound : 3 * chCount cfg.variant * m + (3 * k + j) < (cs.flatMap pixelWire).length := by
      have hle := Nat.mul_le_mul_left (3 * chCount cfg.variant) (Nat.succ_le_of_lt hmlt)
      rw [Nat.mul_succ] at hle
      omega
    have hat := getElem?_flatMap_of_length_eq hpixel hm hin
    rw [Nat.add_assoc, Nat.add_assoc, List.getElem?_append_right (by simp), List.length_replicate,
      Nat.add_sub_cancel_left, List.getElem?_append_left hbound, hat, pixelWire_getElem? hk hj]

/-! ### The bytes the block puts on the wire (R65, R69) -/

theorem wireOf_of_addsDelivery {tr tr' : List Event} (h : AddsDelivery tr tr') : wireOf tr' = wireOf tr := by
  obtain rfl | ⟨r, rfl⟩ := h
  · rfl
  · simp

/-- An attempt puts its byte on the wire, or nothing. -/
theorem attempt_wireOf (v : Byte) (s : State) :
    wireOf (s.attempt v).2.trace = wireOf s.trace ∨ wireOf (s.attempt v).2.trace = wireOf s.trace ++ [v] := by
  rw [attempt_eq]
  split
  · refine .inr ?_
    rw [wireOf_of_addsDelivery (afterSend_addsDelivery _)]
    simp
  · exact .inl (by simp)
  · exact .inl (by simp)

/-- The own step puts nothing on the wire, or the byte of its `..._SEND` position. -/
theorem stepOwn_wireOf {s t : State} (hs : s.stepOwn = .next t) :
    wireOf t.trace = wireOf s.trace ∨
    (∃ w k, s.seq = .flSend w k ∧ wireOf t.trace = wireOf s.trace ++ [flushByte]) ∨
    (∃ c j, s.seq = .symSend c j ∧ wireOf t.trace = wireOf s.trace ++ [tripletByte s.readAcc j]) := by
  have hnext : wireOf s.nextColor.2.trace = wireOf s.trace := by
    unfold State.nextColor
    split <;> simp
  have hdrain : wireOf s.tryRecv.afterDrain.trace = wireOf s.trace := by
    rw [wireOf_of_addsDelivery (afterDrain_addsDelivery _)]
    simp
  obtain ⟨-, ⟨-, rfl⟩ | ⟨w, k, hq, rfl⟩ | ⟨_, _, -, rfl⟩ | ⟨_, _, -, rfl⟩ | ⟨-, -, rfl⟩ | ⟨_, -, -, -, rfl⟩ |
    ⟨_, _, -, -, rfl⟩ | ⟨c, j, hq, rfl⟩⟩ := stepOwn_next hs
  · exact .inl rfl
  · exact (attempt_wireOf _ s).imp_right fun h => .inl ⟨w, k, hq, h⟩
  · exact .inl hdrain
  · exact .inl hdrain
  · exact .inl hnext
  · exact .inl hnext
  · exact .inl (by simp)
  · exact (attempt_wireOf _ s).imp_right fun h => .inr ⟨c, j, hq, h⟩

/-- R69: the values of the three bytes of a triplet. -/
theorem tripletByte_values : ∀ (b : Byte) (j : Fin 3),
    tripletByte (tripletOf b) j ≠ 0x00#8 ∧ tripletByte (tripletOf b) j ≠ 0xFF#8 ∧
    (j.val = 0 → tripletByte (tripletOf b) j ∈ ([0x92, 0x93, 0x9A, 0x9B, 0xD2, 0xD3, 0xDA, 0xDB] : List Byte)) ∧
    (j.val = 1 → tripletByte (tripletOf b) j ∈ ([0x49, 0x4D, 0x69, 0x6D] : List Byte)) ∧
    (j.val = 2 → tripletByte (tripletOf b) j ∈ ([0x24, 0x26, 0x34, 0x36, 0xA4, 0xA6, 0xB4, 0xB6] : List Byte)) := by
  decide +kernel

/-- Settles O34: the own step sends a flush byte, or a byte of `ACC`, which the invariant says is a triplet. -/
theorem wireBytesAreLegal : Obligations.WireBytesAreLegal := by
  intro s t hinv hd hstep hr
  rw [← takeMove_trace s, ← takeMove_seq s]
  obtain ⟨-, hown⟩ | ⟨source, -, -, rfl⟩ | ⟨hm, -⟩ := step_next_of_disciplined hd hstep
  · obtain hsame | ⟨w, k, hq, hwire⟩ | ⟨c, j, hq, hwire⟩ := stepOwn_wireOf hown
    · exact .inl hsame
    · exact .inr (.inl ⟨w, k, hq, hwire⟩)
    · obtain ⟨b, -, hacc⟩ := accInStep_iff.1 (inv_symSend_accInStep (takeMove_inv hinv).1 hq)
      rw [readAcc_holds _ _ hacc] at hwire
      exact .inr (.inr ⟨c, j, _, hq, hwire, tripletByte_values b j⟩)
  · exact .inl rfl
  · exact absurd hm hr

/-! ### Symbols, and words written out (R61 to R67) -/

/-- R61: bit 2 is one, bit 1 the data bit, bit 0 zero. -/
theorem symbolOf_bits : ∀ d : Bool,
    (symbolOf d).getLsbD 2 = true ∧ (symbolOf d).getLsbD 1 = d ∧ (symbolOf d).getLsbD 0 = false ∧
      symbolOf d = 0b100#3 ||| ((BitVec.ofBool d).zeroExtend 3 <<< 1) := by
  decide

/-- Settles O1: the two operations return `symbolOf` of their bit. -/
theorem symbolsReturnTheirPattern : Obligations.SymbolsReturnTheirPattern :=
  fun _ => ⟨rfl, rfl, symbolOf_bits⟩

/-- Settles O8, by running the decoder on each word. -/
theorem decoderReadsWrittenWords : Obligations.DecoderReadsWrittenWords := by
  refine ⟨?_, ?_, ?_, ?_, ?_, ?_, ?_, ?_, ?_, ?_, ?_⟩
  all_goals decide +kernel

end Sys2Proof.Machine

/-! The Symbol Encoder (spec/40_symbol_encoder.md): the symbols of `T(b)` and its value as a number, the loop that
builds it, and what SEND, DRAIN and ENCODE leave. -/

namespace Sys2Proof.Machine

/-! ### The symbols of `T(b)` (R80, R82) -/

/-- R80: the symbol of data bit `i` in `T(b)` is `1`, the bit, `0`. -/
theorem tripletOf_symbol (b : Byte) (i : Fin 8) :
    (tripletOf b).getLsbD (3 * i.val + 2) = true ∧ (tripletOf b).getLsbD (3 * i.val + 1) = b.getLsbD i.val ∧
      (tripletOf b).getLsbD (3 * i.val) = false := by
  rw [tripletOf_eq_tripletBits]
  exact tripletBits_symbol b i

theorem tripletOf_injective : Function.Injective tripletOf := by
  rw [funext tripletOf_eq_tripletBits]
  exact tripletBits_injective

theorem tripletOf_legal (b : Byte) : tripletOf b &&& 0xB6DB6D#24 = 0x924924#24 := by
  rw [tripletOf_eq_tripletBits]
  exact legal_tripletBits b

theorem tripletOf_or (a b : Byte) : tripletOf (a ||| b) = tripletOf a ||| tripletOf b :=
  triplet_eq_of_symbols fun i => by simp only [BitVec.getLsbD_or, tripletOf_symbol, Bool.or_self, and_self]

theorem tripletOf_and (a b : Byte) : tripletOf (a &&& b) = tripletOf a &&& tripletOf b :=
  triplet_eq_of_symbols fun i => by simp only [BitVec.getLsbD_and, tripletOf_symbol, Bool.and_self, and_self]

/-- R82: complementing the byte flips the eight data bits, which `0x492492` selects. -/
theorem tripletOf_complement (a : Byte) : tripletOf (a ^^^ 0xFF#8) = tripletOf a ^^^ 0x492492#24 := by
  have hones : ∀ i : Fin 8, (0xFF#8).getLsbD i.val = true := by decide
  have hdata : ∀ i : Fin 8, (0x492492#24).getLsbD (3 * i.val + 2) = false ∧
      (0x492492#24).getLsbD (3 * i.val + 1) = true ∧ (0x492492#24).getLsbD (3 * i.val) = false := by decide
  exact triplet_eq_of_symbols fun i => by
    simp only [BitVec.getLsbD_xor, tripletOf_symbol, hones, hdata, Bool.xor_false, and_self]

/-! ### `T(b)` as a number, and its order (R80, R82) -/

/-- The low `n` bits of a byte read as digits in base `B`: the byte itself in base 2, its triplet's data in base 8. -/
def bitSum (B : Nat) (b : Byte) (n : Nat) : Nat := ((List.range n).map fun i => (b.getLsbD i).toNat * B ^ i).sum

@[simp] theorem bitSum_zero (B : Nat) (b : Byte) : bitSum B b 0 = 0 := rfl

theorem bitSum_succ (B : Nat) (b : Byte) (n : Nat) :
    bitSum B b (n + 1) = bitSum B b n + (b.getLsbD n).toNat * B ^ n := by
  simp [bitSum, List.range_succ]

theorem bitSum_two (b : Byte) (n : Nat) : bitSum 2 b n = b.toNat % 2 ^ n := by
  induction n with
  | zero => simp [Nat.mod_one]
  | succ n ih => rw [bitSum_succ, ih, Nat.mod_pow_succ, ← Nat.toNat_testBit, Nat.mul_comm (2 ^ n)]; rfl

theorem bitSum_lt_pow {B : Nat} (hB : 2 ≤ B) (b : Byte) (n : Nat) : bitSum B b n < B ^ n := by
  induction n with
  | zero => simp
  | succ n ih =>
    have hdigit : (b.getLsbD n).toNat * B ^ n ≤ 1 * B ^ n := Nat.mul_le_mul_right _ (Bool.toNat_le _)
    have hbase : 2 * B ^ n ≤ B ^ (n + 1) := by
      rw [Nat.pow_succ, Nat.mul_comm]
      exact Nat.mul_le_mul_left _ hB
    rw [bitSum_succ]
    omega

/-- Two bytes compare as they do with their bits read in any larger base: the highest bit in which they differ
decides in both. -/
theorem bitSum_lt_iff {B : Nat} (hB : 2 ≤ B) (a b : Byte) (n : Nat) :
    bitSum 2 a n < bitSum 2 b n ↔ bitSum B a n < bitSum B b n := by
  induction n with
  | zero => simp
  | succ n ih =>
    have ha := bitSum_lt_pow hB a n
    have hb := bitSum_lt_pow hB b n
    have ha2 := bitSum_lt_pow (le_refl 2) a n
    have hb2 := bitSum_lt_pow (le_refl 2) b n
    simp only [bitSum_succ]
    match a.getLsbD n, b.getLsbD n with
    | false, false => simpa using ih
    | true, true => simpa using ih
    | false, true => simp only [Bool.toNat_false, Bool.toNat_true, Nat.zero_mul, Nat.one_mul]; omega
    | true, false => simp only [Bool.toNat_false, Bool.toNat_true, Nat.zero_mul, Nat.one_mul]; omega

theorem toNat_symbolOf (d : Bool) : (symbolOf d).toNat = 4 + 2 * d.toNat := by cases d <;> rfl

/-- A symbol put at the low end, on numbers: three bits up, and the symbol added. -/
theorem toNat_append_symbolOf {w : Nat} (v : BitVec w) (d : Bool) :
    (v ++ symbolOf d).toNat = 8 * v.toNat + (4 + 2 * d.toNat) := by
  rw [BitVec.toNat_append, ← toNat_symbolOf, Nat.shiftLeft_eq, Nat.mul_comm,
    ← Nat.two_pow_add_eq_or_of_lt (symbolOf d).isLt]

/-- R80: `T(b)` is `0x924924` and twice the data bits read in base 8. -/
theorem toNat_tripletOf (b : Byte) : (tripletOf b).toNat = 0x924924 + 2 * bitSum 8 b 8 := by
  simp only [tripletOf, toNat_append_symbolOf, toNat_symbolOf, bitSum_succ, bitSum_zero]
  omega

theorem tripletOf_lt_iff (a b : Byte) : a.toNat < b.toNat ↔ (tripletOf a).toNat < (tripletOf b).toNat := by
  have hbyte : ∀ c : Byte, c.toNat = bitSum 2 c 8 := fun c => by rw [bitSum_two, Nat.mod_eq_of_lt c.isLt]
  rw [hbyte a, hbyte b, bitSum_lt_iff (by decide : 2 ≤ 8), toNat_tripletOf, toNat_tripletOf]
  omega

/-- R82: byte `j` by a shift and a mask. -/
theorem toNat_tripletByte (v : Triplet) (j : Fin 3) :
    (tripletByte v j).toNat = v.toNat / 2 ^ (16 - 8 * j.val) % 256 := by
  fin_cases j <;> simp [tripletByte, BitVec.extractLsb'_toNat, Nat.shiftRight_eq_div_pow]

/-! ### The loop that builds `T(b)` (R81, R82) -/

/-- `appendSymbol` in an accumulator of any width: R82's 32-bit one beside the block's 24-bit one. -/
def appendSymbolIn (w : Nat) (acc : BitVec w) (d : Bool) : BitVec w := (acc <<< 3) ||| (symbolOf d).zeroExtend w

theorem appendSymbol_eq_appendSymbolIn : appendSymbol = appendSymbolIn 24 := rfl

theorem getLsbD_symbolOf (d : Bool) (n : Nat) :
    (symbolOf d).getLsbD n = (decide (n = 2) || (decide (n = 1) && d)) := by
  by_cases hn : n < 3
  · revert d
    interval_cases n <;> decide
  · have hne : n ≠ 2 ∧ n ≠ 1 := by omega
    simp [BitVec.getLsbD_of_ge (symbolOf d) n (by omega), hne]

/-- One iteration moves down by one symbol in a value that has this symbol in place `i`. -/
theorem appendSymbolIn_ushiftRight {w : Nat} {v : BitVec w} {d : Bool} {i : Nat}
    (hone : v.getLsbD (3 * i + 2) = true) (hdata : v.getLsbD (3 * i + 1) = d) (hzero : v.getLsbD (3 * i) = false) :
    appendSymbolIn w (v >>> (3 * (i + 1))) d = v >>> (3 * i) := by
  refine BitVec.eq_of_getLsbD_eq fun n hn => ?_
  simp only [appendSymbolIn, BitVec.getLsbD_or, BitVec.getLsbD_shiftLeft, BitVec.getLsbD_ushiftRight,
    BitVec.getLsbD_setWidth, getLsbD_symbolOf, hn]
  by_cases h3 : n < 3
  · interval_cases n <;> simp [hone, hdata, hzero]
  · have hpos : 3 * (i + 1) + (n - 3) = 3 * i + n := by omega
    have hne : n ≠ 2 ∧ n ≠ 1 := by omega
    simp [h3, hpos, hne]

theorem bitsOf_getElem? (b : Byte) {n : Nat} (hn : n < 8) : (bitsOf b)[n]? = some (b.getLsbD (7 - n)) := by
  interval_cases n <;> rfl

/-- R81: after `n` iterations, in an accumulator of 24 bits or more, the first `n` symbols of `T(b)` stand at its low
end. -/
theorem foldl_appendSymbolIn {w : Nat} (hw : 24 ≤ w) (b : Byte) {n : Nat} (hn : n ≤ 8) :
    ((bitsOf b).take n).foldl (appendSymbolIn w) 0#w = (tripletOf b).zeroExtend w >>> (3 * (8 - n)) := by
  have hbit : ∀ m, ((tripletOf b).zeroExtend w).getLsbD m = (tripletOf b).getLsbD m := fun m => by
    by_cases hm : m < w
    · simp [hm]
    · rw [BitVec.getLsbD_of_ge _ _ (by omega), BitVec.getLsbD_of_ge _ _ (by omega)]
  induction n with
  | zero =>
    refine BitVec.eq_of_getLsbD_eq fun m _ => ?_
    rw [BitVec.getLsbD_ushiftRight, hbit, BitVec.getLsbD_of_ge _ _ (Nat.le_add_right 24 m)]
    simp
  | succ n ih =>
    obtain ⟨hone, hdata, hzero⟩ := tripletOf_symbol b ⟨7 - n, by omega⟩
    rw [List.take_add_one, bitsOf_getElem? b (by omega), Option.toList_some, List.foldl_append, ih (by omega),
      show 8 - n = 7 - n + 1 by omega, show 8 - (n + 1) = 7 - n by omega]
    exact appendSymbolIn_ushiftRight ((hbit _).trans hone) ((hbit _).trans hdata) ((hbit _).trans hzero)

theorem tripletLoop_take (b : Byte) {n : Nat} (hn : n ≤ 8) :
    tripletLoop ((bitsOf b).take n) = tripletOf b >>> (24 - 3 * n) := by
  rw [tripletLoop, appendSymbol_eq_appendSymbolIn, foldl_appendSymbolIn (le_refl 24) b hn, BitVec.zeroExtend,
    BitVec.setWidth_eq, Nat.mul_sub]

theorem tripletLoop_bitsOf (b : Byte) : tripletLoop (bitsOf b) = tripletOf b :=
  tripletLoop_take b (le_refl 8)

/-- R82: with an iteration still to come, the bits it shifts out are zero. -/
theorem toNat_tripletLoop_lt (b : Byte) {n : Nat} (hn : n < 8) :
    (tripletLoop ((bitsOf b).take n)).toNat < 2 ^ 21 := by
  rw [tripletLoop_take b hn.le, BitVec.toNat_ushiftRight, Nat.shiftRight_eq_div_pow]
  refine Nat.div_lt_of_lt_mul ?_
  calc (tripletOf b).toNat < 2 ^ 24 := (tripletOf b).isLt
    _ ≤ 2 ^ (24 - 3 * n + 21) := Nat.pow_le_pow_right (by decide) (by omega)
    _ = 2 ^ (24 - 3 * n) * 2 ^ 21 := Nat.pow_add ..

/-- R82: the symbol meets three zero bits, so the OR is an addition. -/
theorem appendSymbol_eq_add (acc : Triplet) (d : Bool) :
    appendSymbol acc d = (acc <<< 3) + (symbolOf d).zeroExtend 24 := by
  refine (BitVec.add_eq_or_of_and_eq_zero _ _ (BitVec.eq_of_getLsbD_eq fun n _ => ?_)).symm
  simp only [BitVec.getLsbD_and, BitVec.getLsbD_shiftLeft, BitVec.getLsbD_setWidth, BitVec.getLsbD_zero]
  by_cases h3 : n < 3
  · simp [h3]
  · rw [BitVec.getLsbD_of_ge (symbolOf d) n (by omega), Bool.and_false, Bool.and_false]

/-- Settles O4, from the symbols, the value as a number, and the loop in an accumulator of any width. -/
theorem tripletLaws : Obligations.TripletLaws := by
  refine ⟨fun b n => toNat_tripletLoop_lt b n.isLt, appendSymbol_eq_add, fun b => ?_,
    fun a => ⟨tripletOf_legal a, tripletOf_complement a⟩,
    fun a b => ⟨tripletOf_or a b, tripletOf_and a b, tripletOf_lt_iff a b, fun h => tripletOf_injective h⟩,
    fun b => toNat_tripletByte (tripletOf b)⟩
  exact foldl_appendSymbolIn (w := 32) (by decide) b (le_refl 8)

/-- Settles O3, from the loop's value after `n` iterations. -/
theorem loopBuildsTheTriplet : Obligations.LoopBuildsTheTriplet :=
  ⟨fun b n => tripletLoop_take b (Nat.le_of_lt_succ n.isLt), tripletLoop_bitsOf, by decide⟩

/-! ### The step at `ENC(c)` (R126) -/

/-- The step at `ENC(c)` loads the triplet of the color's channel byte number `c` in transmission order. -/
theorem stepOwn_enc {s : State} {c : Fin 4} {p : Color} {b : Byte} (hq : s.seq = .enc c) (hp : s.pix = .holds p)
    (hv : variantOf p = s.cfg.variant) (hb : (colorBytes p)[c.val]? = some b) :
    s.stepOwn = .next (s.loadAcc (tripletOf b)) := by
  have hc : c.val < chCount s.cfg.variant := by
    rw [← hv, ← colorBytes_length]
    exact (List.getElem?_eq_some_iff.1 hb).1
  have hread : (orderAt s.cfg.variant c).bind (fun ch => s.readPix ch) = some b := by
    rw [← hv, ← hb, colorBytes_getElem?]
    simp only [readPix_holds s p _ hp]
  simp [State.stepOwn, State.stepEnc, hq, Seq.existsIn, hc, hread]

/-- Settles O2: the symbols, the value as a number, and the step that loads the triplet. -/
theorem tripletOfEveryChannelByte : Obligations.TripletOfEveryChannelByte := by
  refine ⟨fun _ _ => rfl, fun _ => rfl, tripletOf_symbol, toNat_tripletOf, fun _ _ h => tripletOf_injective h, ?_,
    by decide⟩
  intro s s1 c p b hm hq hp hv hb
  exact ⟨_, (step_quiet hm).trans (stepOwn_enc hq hp hv hb), loadAcc_acc _ _⟩

/-! ### SEND and DRAIN (R83, R84) -/

theorem sentState_idle (v : Byte) {s : State} (k : Nat) (q : Script TxAnswer) (h : s.seq = .idle) :
    sentState v s k q = { s with tx := q, trace := s.trace ++ List.replicate k (.txwb v) ++ [.tx v] } :=
  afterSend_idle _ h

theorem exec_send_ok {v : Byte} {s : State} {k : Nat} {q : Script TxAnswer} (h : settle s.tx = some (k, .ok, q)) :
    exec (.send v) s = .next { sentState v s k q with ret := .ok } := by
  simp only [exec, execSend, sendByte_eq, h, answer_ok, sentState]

theorem exec_send_err {v : Byte} {s : State} {k : Nat} {e : ErrTag} {q : Script TxAnswer}
    (h : settle s.tx = some (k, .err e, q)) :
    exec (.send v) s = .next { s with
      tx := q, trace := s.trace ++ List.replicate k (.txwb v) ++ [.txerr v e, .done (.err e)],
      res := .err e, seq := .idle, ret := .err e } := by
  simp [exec, execSend, sendByte_eq, h, State.abort, State.deliver, State.log]

/-- Settles O39: the blocking send, by how its byte is settled. -/
theorem sendOutcomes : Obligations.SendOutcomes := fun v s =>
  ⟨fun _ _ h => exec_send_ok h, fun k q hidle h => by rw [exec_send_ok h, sentState_idle v k q hidle],
    fun _ _ _ h => exec_send_err h⟩

theorem drain_noRx {s : State} (h : s.cfg.hasRx = false) : s.drain = s := by
  simp [drain_eq, h]

theorem drain_rx {s : State} (h : s.cfg.hasRx = true) : s.drain = s.tryRecv.afterDrain := by
  simp [State.drain, h]

/-- Settles O40: the drain, by whether there is a receive side. -/
theorem drainOutcome : Obligations.DrainOutcome := by
  intro s
  refine ⟨fun h => ?_, fun h => ?_, fun h hidle => ?_⟩ <;> simp only [exec, execDrain]
  · rw [drain_noRx h]
  · rw [drain_rx h]
    rfl
  · rw [drain_rx h, afterDrain_idle s.tryRecv hidle]
    rfl

/-! ### ENCODE (R85, R86) -/

@[simp] theorem wireOf_planIo (hasRx : Bool) (p : Plan) : wireOf (planIo hasRx p) = p.map Prod.fst := by
  induction p with
  | nil => rfl
  | cons x p ih =>
    rw [← List.singleton_append, planIo_append, wireOf_append, ih, List.map_append]
    cases hasRx <;> cases hd : x.2 <;> simp [planIo, hd]

/-- A plan carried out in full puts its bytes on the wire. -/
theorem Carried.wire {p : Plan} {s t : State} (h : Carried p s t) :
    wireOf t.trace = wireOf s.trace ++ p.map Prod.fst := by
  rw [← wireOf_ioOf, h.io, wireOf_append, wireOf_ioOf, wireOf_planIo]

/-- A plan that fails lists what was carried out and the failed attempt. -/
theorem Failed.io {p : Plan} {v : Byte} {e : ErrTag} {s t : State} (h : Failed p v e s t) :
    ioOf t.trace = ioOf s.trace ++ planIo s.cfg.hasRx p ++ [.txerr v e] := by
  obtain ⟨before, htr, hio, -⟩ := h.trace
  simp [htr, hio]

/-- A plan that fails puts the bytes carried out on the wire, and not the failed one. -/
theorem Failed.wire {p : Plan} {v : Byte} {e : ErrTag} {s t : State} (h : Failed p v e s t) :
    wireOf t.trace = wireOf s.trace ++ p.map Prod.fst := by
  rw [← wireOf_ioOf, h.io]
  simp [wireOf_ioOf]

/-- A plan that fails delivers its error, and nothing before it. -/
theorem Failed.delivered {p : Plan} {v : Byte} {e : ErrTag} {s t : State} (h : Failed p v e s t) :
    deliveredOf t.trace = deliveredOf s.trace ++ [.err e] := by
  obtain ⟨before, htr, -, hdel⟩ := h.trace
  simp [htr, hdel]

theorem encodePlan_map_fst (b : Byte) : (encodePlan b).map Prod.fst = encodeTriplet b := rfl

/-- ENCODE where it may be performed: in isolation, or at `ENC(c)`. -/
theorem follows_encode (b : Byte) {s : State} (h : s.seq = .idle ∨ ∃ c : Fin 4, s.seq = .enc c) :
    Follows (encodePlan b) s (s.encodeByte b) (Encoded b s s.pastChannel) (fun t => t.acc = .holds (tripletOf b)) := by
  obtain hq | ⟨c, hq⟩ := h <;> rw [State.pastChannel, hq]
  · exact follows_encode_idle b s hq
  · exact follows_encode_enc b s c hq

/-- Settles O41: ENCODE carries out its plan, in full or up to the first failed send. -/
theorem encodeOutcomes : Obligations.EncodeOutcomes := by
  intro b s hq
  have hf := follows_encode b hq
  refine ⟨fun hok => ?_, fun n v d e hn hok he => ?_⟩
  · obtain ⟨t, ht, hc, hpost⟩ := hf.full hok
    refine ⟨{ t with ret := .ok }, ?_, hc.io, ?_, rfl, hpost.acc, hpost.seq, hpost.quiet, hc.frame.cfg, hc.frame.pix,
      hpost.res, hc.frame.host, hc.frame.colors⟩
    · simp only [exec, execEncode, ht, answer_ok]
    · rw [← encodePlan_map_fst]
      exact hc.wire
  · obtain ⟨t, ht, hfail, hacc⟩ := hf.part n v d e hn hok he
    refine ⟨{ t with ret := .err e }, ?_, hfail.io, ?_, rfl, hfail.res, hfail.seq, hacc, hfail.delivered,
      hfail.frame.cfg, hfail.frame.pix, hfail.frame.host, hfail.frame.colors⟩
    · simp only [exec, execEncode, ht, answer_err]
    · rw [← encodePlan_map_fst, ← List.map_take]
      exact hfail.wire

end Sys2Proof.Machine

namespace Sys2Proof.Machine

/-! ### FLUSH (R100, R101) -/

/-- How a flush ends, by where it began: in isolation `SEQ` and `RES` stay, the pre-flush goes on to `FETCH`, and the
final flush finishes the WRITE (R123, R124). `ACC` stays in each. -/
structure FlushEnds (s t : State) : Prop where
  acc  : t.acc = s.acc
  idle : s.seq = .idle → t.seq = .idle ∧ t.res = s.res ∧ deliveredOf t.trace = deliveredOf s.trace
  pre  : s.seq = .flSend .pre 0 → t.seq = .fetch ∧ t.res = s.res ∧ deliveredOf t.trace = deliveredOf s.trace
  post : s.seq = .flSend .post 0 → t.seq = .idle ∧ t.res = .ok ∧ deliveredOf t.trace = deliveredOf s.trace ++ [.ok]

theorem Quietly.flushEnds {s t : State} (h : Quietly s .idle t) (hq : s.seq = .idle) : FlushEnds s t where
  acc := h.acc
  idle _ := ⟨h.seq, h.res, h.quiet⟩
  pre hp := nomatch hq.symm.trans hp
  post hp := nomatch hq.symm.trans hp

theorem Flushed.flushEnds {w : Which} {s t : State} (h : Flushed w s t) (hq : s.seq = .flSend w 0) : FlushEnds s t where
  acc := h.acc
  idle hi := nomatch hq.symm.trans hi
  pre hp := h.pre (Seq.flSend.inj (hq.symm.trans hp)).1
  post hp := h.post (Seq.flSend.inj (hq.symm.trans hp)).1

/-- FLUSH where it may be performed: in isolation, or at `FL_SEND(w,0)`. -/
theorem follows_flush {s : State} (h : s.seq = .idle ∨ ∃ w : Which, s.seq = .flSend w 0) :
    Follows flushPlan s s.flush (FlushEnds s) (fun t => t.acc = s.acc) := by
  rw [flushPlan_eq]
  obtain hq | ⟨w, hq⟩ := h
  · exact (follows_flushBytes_idle _ s hq).weaken (fun _ _ ht => ht.flushEnds hq) (fun _ ht => ht)
  · exact (follows_flushBytes_flSend 19 s w 0 hq rfl).weaken (fun _ _ ht => ht.flushEnds hq) (fun _ ht => ht)

theorem flushPlan_getElem? {k : Nat} (hk : k < 20) : flushPlan[k]? = some (0x00#8, true) :=
  List.getElem?_replicate_of_lt hk

theorem flushPlan_take_map_fst {k : Nat} (hk : k ≤ 20) :
    (flushPlan.take k).map Prod.fst = List.replicate k 0x00#8 := by
  rw [flushPlan_eq, List.take_replicate, List.map_replicate, Nat.min_eq_left (show k ≤ Config.flushLen from hk)]
  rfl

/-- Settles O42: FLUSH carries out its plan, in full or up to the first failed send. -/
theorem flushOutcomes : Obligations.FlushOutcomes := by
  intro s hq
  have hf := follows_flush hq
  refine ⟨fun hok => ?_, fun k e hk hok he => ?_⟩
  · obtain ⟨t, ht, hc, hend⟩ := hf.full hok
    refine ⟨{ t with ret := .ok }, ?_, hc.io, hc.wire, rfl, hend.idle, hend.pre, hend.post, hc.frame.cfg, hend.acc,
      hc.frame.pix, hc.frame.host, hc.frame.colors⟩
    simp only [exec, execFlush, ht, answer_ok]
  · obtain ⟨t, ht, hfail, hacc⟩ := hf.part k _ _ e (flushPlan_getElem? hk) hok he
    refine ⟨{ t with ret := .err e }, ?_, hfail.io, ?_, rfl, hfail.res, hfail.seq, hfail.delivered, hfail.frame.cfg,
      hacc, hfail.frame.pix, hfail.frame.host, hfail.frame.colors⟩
    · simp only [exec, execFlush, ht, answer_err]
    · rw [← flushPlan_take_map_fst hk.le]
      exact hfail.wire

end Sys2Proof.Machine

/-! The Strip Writer (spec/42_strip_writer.md): its steps, one lemma for each position, and after them its functional
forms PIXEL and WRITE as one function of the environment, and their agreement with the steps. -/

namespace Sys2Proof.Machine

/-! ### `Start`, and the idle block (R120, R130) -/

theorem step_start {s s1 : State} {source : ColorSource} (hm : s.takeMove = (.start source, s1)) :
    step s = s1.stepStart source := by
  simp [step, hm]

theorem stepStart_idle {s : State} (source : ColorSource) (hq : s.seq = .idle) :
    s.stepStart source = .next (s.acceptStart source) := by
  simp [State.stepStart, (busy_eq_false_iff s).2 hq]

theorem stepStart_busy {s : State} (source : ColorSource) (hq : s.seq ≠ .idle) :
    s.stepStart source = .refused .busy := by
  simp [State.stepStart, (busy_iff s).2 hq]

/-- Settles O12: `Start` is accepted at `IDLE` and nowhere else. -/
theorem startBeginsAWrite : Obligations.StartBeginsAWrite := by
  intro s s1 source hm
  rw [step_start hm]
  exact ⟨stepStart_idle source, stepStart_busy source⟩

theorem stepOwn_of_idle {s : State} (hq : s.seq = .idle) : s.stepOwn = .next s := by
  simp [State.stepOwn, hq, Seq.existsIn]

/-- Settles O14: with no host move the step is the block's own, and it has none at `IDLE`. -/
theorem idleBlockWaits : Obligations.IdleBlockWaits := fun _ _ hm hq => (step_quiet hm).trans (stepOwn_of_idle hq)

/-! ### The own step, position by position (R121 to R128) -/

theorem stepOwn_flSend {s : State} {w : Which} {k : Fin 20} (hq : s.seq = .flSend w k)
    (hx : s.seq.existsIn s.cfg = true) : s.stepOwn = .next (s.attempt flushByte).2 := by
  rw [State.stepOwn, if_pos hx, hq]
  rfl

theorem stepOwn_flDrain {s : State} {w : Which} {k : Fin 20} (hq : s.seq = .flDrain w k)
    (hx : s.seq.existsIn s.cfg = true) : s.stepOwn = .next s.tryRecv.afterDrain := by
  rw [State.stepOwn, if_pos hx, hq]
  rfl

theorem stepOwn_symSend {s : State} {c : Fin 4} {j : Fin 3} (hq : s.seq = .symSend c j)
    (hx : s.seq.existsIn s.cfg = true) : s.stepOwn = .next (s.attempt (tripletByte s.readAcc j)).2 := by
  rw [State.stepOwn, if_pos hx, hq]
  rfl

theorem stepOwn_symDrain {s : State} {c : Fin 4} {j : Fin 2} (hq : s.seq = .symDrain c j)
    (hx : s.seq.existsIn s.cfg = true) : s.stepOwn = .next s.tryRecv.afterDrain := by
  rw [State.stepOwn, if_pos hx, hq]
  rfl

theorem stepOwn_fetch_some {s : State} {p : Color} (hq : s.seq = .fetch) (hp : s.colors.draw.1 = some p)
    (hv : variantOf p = s.cfg.variant) :
    s.stepOwn = .next (s.nextColor.2.loadPix p) := by
  simp [State.stepOwn, hq, Seq.existsIn, State.stepFetch, State.nextColor, hp, hv]

theorem stepOwn_fetch_none {s : State} (hq : s.seq = .fetch) (hp : s.colors.draw.1 = none) :
    s.stepOwn = .next s.nextColor.2.enterFinalFlush := by
  simp [State.stepOwn, hq, Seq.existsIn, State.stepFetch, State.nextColor, hp]

theorem order_length (v : Variant) : (order v).length = chCount v := by
  cases v <;> rfl

/-- A channel place that has a channel is one of the variant's. -/
theorem lt_chCount_of_orderAt {v : Variant} {c : Fin 4} {ch : Channel} (h : orderAt v c = some ch) :
    c.val < chCount v := by
  rw [← order_length]
  exact (List.getElem?_eq_some_iff.1 h).1

/-- The step at `ENC(c)` loads the triplet of what it reads there, a written channel or a free value. -/
theorem stepOwn_enc_of_read {s : State} {c : Fin 4} {b : Byte} (hq : s.seq = .enc c)
    (hread : (orderAt s.cfg.variant c).bind (fun ch => s.readPix ch) = some b) :
    s.stepOwn = .next (s.loadAcc (tripletOf b)) := by
  obtain ⟨ch, hch, -⟩ := Option.bind_eq_some_iff.1 hread
  simp [State.stepOwn, State.stepEnc, hq, Seq.existsIn, lt_chCount_of_orderAt hch, hread]

/-- Settles O15: the attempt to send `0x00`, by its answer. -/
theorem flushSendStep : Obligations.FlushSendStep := by
  intro s s1 w k hm hq hx
  rw [step_quiet hm, stepOwn_flSend hq hx, attempt_eq]
  rcases s1.tx.draw with ⟨a, q⟩
  cases a with
  | wouldBlock => rfl
  | ok => exact congrArg _ (afterSend_flSend _ w k hq)
  | err e => simp [State.abort, State.deliver, State.log, flushByte, Config.flushByte]

/-- Settles O16: the receive attempt, and on from `FL_DRAIN(w,k)`. -/
theorem flushDrainStep : Obligations.FlushDrainStep := by
  intro s s1 w k hm hq hx
  rw [step_quiet hm, stepOwn_flDrain hq hx, afterDrain_flDrain s1.tryRecv w k hq]
  rfl

/-- Settles O18: the pull, by whether there was a color. -/
theorem fetchStep : Obligations.FetchStep := by
  intro s s1 hm hq
  rw [step_quiet hm]
  refine ⟨fun p q hdraw hv => ?_, fun q hdraw => ?_⟩
  · rw [stepOwn_fetch_some hq (by rw [hdraw]) hv, State.nextColor, hdraw]
    rfl
  · rw [stepOwn_fetch_none hq (by rw [hdraw]), State.nextColor, hdraw]
    rfl

/-- Settles O19: the byte in place `c` is byte `c` of the color in transmission order. -/
theorem encodeStep : Obligations.EncodeStep := by
  intro s s1 c hm hq
  rw [step_quiet hm]
  refine ⟨fun x hv hp b hb => ?_, fun x hv hp b hb => ?_⟩
  · rw [stepOwn_enc (p := .rgb x) hq hp hv.symm hb, loadAcc_enc s1 _ c hq]
  · rw [stepOwn_enc (p := .rgbw x) hq hp hv.symm hb, loadAcc_enc s1 _ c hq]

/-- The three bytes of a triplet by their number are its bytes in wire order (R46). -/
theorem tripletByte_of_getElem? {v : Triplet} {j : Fin 3} {b : Byte}
    (h : [v.extractLsb' 16 8, v.extractLsb' 8 8, v.extractLsb' 0 8][j.val]? = some b) : tripletByte v j = b := by
  fin_cases j <;> exact Option.some.inj h

/-- The step at `SYM_SEND(c,j)` by the answer to its attempt, whatever `ACC` reads as. -/
theorem step_symSend {s s1 : State} {c : Fin 4} {j : Fin 3} {b : Byte} (hm : s.takeMove = (.quiet, s1))
    (hq : s1.seq = .symSend c j) (hx : s1.seq.existsIn s1.cfg = true) (hb : tripletByte s1.readAcc j = b) :
    step s = .next (match s1.tx.draw with
      | (.wouldBlock, q) => { s1 with tx := q, trace := s1.trace ++ [.txwb b] }
      | (.ok, q) =>
        if h : s1.cfg.hasRx = true ∧ j.val < 2 then
          { s1 with tx := q, trace := s1.trace ++ [.tx b], seq := .symDrain c ⟨j.val, h.2⟩ }
        else ({ s1 with tx := q, trace := s1.trace ++ [.tx b] } : State).afterSym c j
      | (.err e, q) =>
        { s1 with tx := q, trace := s1.trace ++ [.txerr b e, .done (.err e)], seq := .idle, res := .err e }) := by
  rw [step_quiet hm, stepOwn_symSend hq hx, hb, attempt_eq]
  rcases s1.tx.draw with ⟨a, q⟩
  cases a with
  | wouldBlock => rfl
  | ok => exact congrArg _ (afterSend_symSend _ c j hq)
  | err e => simp [State.abort, State.deliver, State.log]

/-- Settles O20: the step offers byte `j` of the value in `ACC`. -/
theorem symbolSendStep : Obligations.SymbolSendStep := by
  intro s s1 c j v b hm hq hx hacc hb
  have hread : tripletByte s1.readAcc j = b := by rw [readAcc_holds s1 v hacc]; exact tripletByte_of_getElem? hb
  refine (step_symSend hm hq hx hread).trans (congrArg _ ?_)
  rcases s1.tx.draw with ⟨a, q⟩
  cases a <;> rfl

/-- Settles O21: the receive attempt, and on from `SYM_DRAIN(c,j)`. -/
theorem symbolDrainStep : Obligations.SymbolDrainStep := by
  intro s s1 c j hm hq hx
  rw [step_quiet hm, stepOwn_symDrain hq hx, afterDrain_symDrain s1.tryRecv c j hq]
  rfl

/-- Settles O22: an unwritten register reads as its free value, and the step is the one on a written register. -/
theorem unwrittenRegistersDoNotStop : Obligations.UnwrittenRegistersDoNotStop := by
  refine ⟨fun s s1 c j b hm hq hx hacc hb => ?_, fun s s1 c ch hm hq hpix hch => ?_⟩
  · have hread : tripletByte s1.readAcc j = b := by rw [readAcc_unwritten s1 hacc]; exact tripletByte_of_getElem? hb
    refine (step_symSend hm hq hx hread).trans (congrArg _ ?_)
    rcases s1.tx.draw with ⟨a, q⟩
    cases a <;> rfl
  · have hread : (orderAt s1.cfg.variant c).bind (fun ch => s1.readPix ch) =
        some (Config.unwrittenPix s1.resets ch) := by
      rw [show orderAt s1.cfg.variant c = some ch from hch, Option.bind_some, readPix_unwritten s1 ch hpix]
    rw [step_quiet hm, stepOwn_enc_of_read hq hread, loadAcc_enc s1 _ c hq]

/-! ### The moves of `SEQ` (R123, R124, R129) -/

theorem afterFlush_of_lt (s : State) (w : Which) {k : Fin 20} (h : k.val < 19) :
    s.afterFlush w k = { s with seq := .flSend w ⟨k.val + 1, by omega⟩ } :=
  dif_pos h

theorem afterFlush_pre_last (s : State) {k : Fin 20} (h : k.val = 19) :
    s.afterFlush .pre k = { s with seq := .fetch } :=
  dif_neg (by omega)

theorem afterFlush_post_last (s : State) {k : Fin 20} (h : k.val = 19) : s.afterFlush .post k = s.finish :=
  dif_neg (by omega)

/-- Settles O17: zero byte `k` is one before the last, the last of the pre-flush, or the last of the final flush. -/
theorem afterFlushPositions : Obligations.AfterFlushPositions := by
  intro s w k
  refine ⟨afterFlush_of_lt s w, fun hk hw => ?_, fun hk hw => ?_⟩
  · rw [hw, afterFlush_pre_last s hk]
  · rw [hw, afterFlush_post_last s hk]
    rfl

theorem afterSym_of_lt (s : State) (c : Fin 4) {j : Fin 3} (h : j.val < 2) :
    s.afterSym c j = { s with seq := .symSend c ⟨j.val + 1, by omega⟩ } :=
  dif_pos h

/-- `ENC(k)` for the channel places of the variant, and `FETCH` past them: where `SEQ` stands once `k` channels of a
pixel are sent. -/
def encOrFetch (v : Variant) (k : Nat) : Seq := if h : k < 4 ∧ k < chCount v then .enc ⟨k, h.1⟩ else .fetch

theorem chCount_le_four (v : Variant) : chCount v ≤ 4 := by
  cases v <;> decide

theorem encOrFetch_of_lt {v : Variant} {k : Nat} (h : k < chCount v) (h4 : k < 4) : encOrFetch v k = .enc ⟨k, h4⟩ :=
  dif_pos ⟨h4, h⟩

theorem encOrFetch_zero (v : Variant) : encOrFetch v 0 = .enc 0 := by
  cases v <;> rfl

@[simp] theorem encOrFetch_chCount (v : Variant) : encOrFetch v (chCount v) = .fetch := by
  cases v <;> rfl

/-- After byte 2 of a channel `SEQ` stands past that channel. -/
theorem afterSym_last (s : State) (c : Fin 4) {j : Fin 3} (h : j.val = 2) :
    s.afterSym c j = { s with seq := encOrFetch s.cfg.variant (c.val + 1) } := by
  unfold State.afterSym encOrFetch
  rw [dif_neg (by omega)]
  split <;> rfl

/-- Settles O23: on to the next byte, the next channel, or past the last one to `FETCH`. -/
theorem afterSymbolPositions : Obligations.AfterSymbolPositions := by
  intro s c j hc
  refine ⟨afterSym_of_lt s c, fun c' hj hlt hc' => ?_, fun hj hlast => ?_⟩
  · rw [afterSym_last s c hj, ← hc', encOrFetch_of_lt (by omega) c'.isLt]
  · have hpast : c.val + 1 = chCount s.cfg.variant := by omega
    rw [afterSym_last s c hj, hpast, encOrFetch_chCount]

/-! ### Every position has a step (R130, R150) -/

/-- Under the invariant the own step answers a next state at every position. -/
theorem stepOwn_isNext {s : State} (h : s.inv = true) : ∃ t, s.stepOwn = .next t := by
  obtain ⟨hd, hx, -, -⟩ := inv_iff.1 h
  cases hq : s.seq with
  | idle => exact ⟨_, stepOwn_of_idle hq⟩
  | flSend w k => exact ⟨_, stepOwn_flSend hq hx⟩
  | flDrain w k => exact ⟨_, stepOwn_flDrain hq hx⟩
  | fetch =>
    cases hp : s.colors.draw.1 with
    | none => exact ⟨_, stepOwn_fetch_none hq hp⟩
    | some p => exact ⟨_, stepOwn_fetch_some hq hp ((draw_fits hd.colors).2 p hp)⟩
  | enc c =>
    obtain ⟨b, -, hread⟩ := inv_enc_readPix h hq
    exact ⟨_, stepOwn_enc_of_read hq hread⟩
  | symSend c j => exact ⟨_, stepOwn_symSend hq hx⟩
  | symDrain c j => exact ⟨_, stepOwn_symDrain hq hx⟩

/-- Settles O26, by the host's move. -/
theorem everyPositionHasAStep : Obligations.EveryPositionHasAStep := by
  intro s h hd
  have h1 := (takeMove_inv h).1
  have hseq := takeMove_seq s
  rcases hm : s.takeMove with ⟨m, s1⟩
  rw [hm] at h1 hseq
  cases m with
  | quiet =>
    rw [step_quiet hm]
    exact stepOwn_isNext h1
  | start source =>
    have hidle : s.seq = .idle := by simpa [State.disciplined, hm, State.busy] using hd
    exact ⟨_, (step_start hm).trans (stepStart_idle source (hseq.trans hidle))⟩
  | reset => exact ⟨s1.hwReset, by simp [step, hm]⟩
  | perform f bs => simp [State.disciplined, hm] at hd

/-! ### A WRITE is one of two operations (R112, R113) -/

/-- The two WRITE operations are one, given the variant and the colors. -/
theorem exec_of_writesOf {i : Instr} {v : Variant} {cs : List Color} (h : writesOf i = some (v, cs)) (s : State) :
    exec i s = s.write v cs := by
  cases i <;> cases h <;> rfl

theorem variantOf_of_writesOf {i : Instr} {v : Variant} {cs : List Color} (h : writesOf i = some (v, cs)) :
    ∀ c ∈ cs, variantOf c = v := by
  cases i <;> cases h <;> simp [variantOf]

theorem write_otherVariant {s : State} {v : Variant} (cs : List Color) (h : s.cfg.variant ≠ v) :
    s.write v cs = .refused .notOfThisVariant :=
  if_pos h

theorem write_busy {s : State} {v : Variant} (cs : List Color) (hv : s.cfg.variant = v) (hq : s.seq ≠ .idle) :
    s.write v cs = .refused .busy := by
  simp [State.write, hv, (busy_iff s).2 hq]

/-- A WRITE of the block's variant on an idle block runs from the state an accepted `Start` leaves (R120). -/
theorem write_idle {s : State} (cs : List Color) (hq : s.seq = .idle) :
    s.write s.cfg.variant cs = (s.acceptStart ⟨cs, none⟩).writeAll.answer := by
  simp [State.write, (busy_eq_false_iff s).2 hq]

/-- Settles O50: the other variant is refused first, then a busy block. -/
theorem writeOutsideItsConditionsIsRefused : Obligations.WriteOutsideItsConditionsIsRefused := by
  intro i v cs s hi
  rw [exec_of_writesOf hi]
  exact ⟨write_otherVariant cs, write_busy cs⟩

/-! ### A list of channel bytes carried out (R110, R111) -/

/-- What is left in `ACC` by encoding a list of channel bytes: the triplet of the last one. -/
def accAfter (bs : List Byte) (acc : Reg Triplet) : Reg Triplet := bs.foldl (fun _ b => .holds (tripletOf b)) acc

/-- What a list of channel bytes leaves besides its plan. -/
structure EncodedAll (bs : List Byte) (s : State) (q : Seq) (t : State) : Prop where
  seq   : t.seq = q
  acc   : t.acc = accAfter bs s.acc
  res   : t.res = s.res
  quiet : deliveredOf t.trace = deliveredOf s.trace

theorem EncodedAll.nil {s : State} {q : Seq} (h : s.seq = q) : EncodedAll [] s q s := ⟨h, rfl, rfl, rfl⟩

theorem EncodedAll.cons {b : Byte} {bs : List Byte} {s t u : State} {q q' : Seq} (h : Encoded b s q t)
    (h' : EncodedAll bs t q' u) : EncodedAll (b :: bs) s q' u :=
  ⟨h'.seq, by rw [h'.acc, h.acc]; rfl, h'.res.trans h.res, h'.quiet.trans h.quiet⟩

/-- ENCODE of every byte, in isolation. -/
theorem follows_encodeAll_idle (bs : List Byte) {s : State} (h : s.seq = .idle) :
    Follows (bs.flatMap encodePlan) s (s.encodeAll bs) (EncodedAll bs s .idle) (fun _ => True) := by
  induction bs generalizing s with
  | nil => exact follows_nil s _ _ (.nil h)
  | cons b bs ih =>
    exact ((follows_encode_idle b s h).weaken (fun _ _ ht => ht) (fun _ _ => trivial)).append (fun _ ht => ht.quiet)
      fun _ ht _ => (ih ht.seq).weaken (fun _ _ hu => .cons ht hu) (fun _ hu => hu)

/-- ENCODE of every byte, from channel `k` of a pixel on. -/
theorem follows_encodeAll_enc (bs : List Byte) {s : State} {v : Variant} {k : Nat} (hv : s.cfg.variant = v)
    (h : s.seq = encOrFetch v k) (hk : k + bs.length ≤ chCount v) :
    Follows (bs.flatMap encodePlan) s (s.encodeAll bs) (EncodedAll bs s (encOrFetch v (k + bs.length)))
      (fun _ => True) := by
  induction bs generalizing s k with
  | nil => exact follows_nil s _ _ (.nil h)
  | cons b bs ih =>
    rw [List.length_cons] at hk ⊢
    have h4 := chCount_le_four v
    rw [encOrFetch_of_lt (by omega) (by omega)] at h
    refine ((follows_encode_enc b s _ h).weaken (fun _ _ ht => ht) (fun _ _ => trivial)).append (fun _ ht => ht.quiet)
      fun t ht hc => ?_
    have hseq : t.seq = encOrFetch v (k + 1) := by rw [ht.seq, afterSym_last s _ rfl, hv]
    have hrest := ih ((congrArg Cfg.variant hc.frame.cfg).trans hv) hseq (by omega)
    rw [Nat.add_right_comm] at hrest
    exact hrest.weaken (fun _ _ hu => .cons ht hu) (fun _ hu => hu)

/-- Where `SEQ` stands once `k` channels of a pixel begun in `s` are sent: at `IDLE` in isolation, else at the next
channel or past the last one. -/
def State.inPixel (s : State) (k : Nat) : Seq := if s.seq = .idle then .idle else encOrFetch s.cfg.variant k

/-- Where a pixel may be performed, in isolation or at `ENC(0)`: its first channel bytes, or all of them. -/
theorem follows_encodeAll (bs : List Byte) {s : State} (hq : s.seq = .idle ∨ s.seq = .enc 0)
    (hlen : bs.length ≤ chCount s.cfg.variant) :
    Follows (bs.flatMap encodePlan) s (s.encodeAll bs) (EncodedAll bs s (s.inPixel bs.length)) (fun _ => True) := by
  unfold State.inPixel
  obtain hq | hq := hq
  · rw [if_pos hq]
    exact follows_encodeAll_idle bs hq
  · have hf := follows_encodeAll_enc bs (s := s) (k := 0) rfl (by rw [hq, encOrFetch_zero]) (by omega)
    rwa [if_neg (by rw [hq]; nofun), ← Nat.zero_add bs.length]

theorem encodeAll_append (as bs : List Byte) (s : State) :
    s.encodeAll (as ++ bs) = (s.encodeAll as).andThen fun t => t.encodeAll bs := by
  induction as generalizing s with
  | nil => rfl
  | cons a as ih => simp only [List.cons_append, State.encodeAll, ih, andThen_assoc]

@[simp] theorem encodePlan_length (b : Byte) : (encodePlan b).length = 3 := rfl

theorem flatMap_encodePlan_length (bs : List Byte) : (bs.flatMap encodePlan).length = 3 * bs.length :=
  length_flatMap_of_length_eq fun b _ => encodePlan_length b

theorem flatMap_encodePlan_map_fst (bs : List Byte) :
    (bs.flatMap encodePlan).map Prod.fst = bs.flatMap encodeTriplet := by
  rw [List.map_flatMap]
  rfl

/-! ### PIXEL (R110, R111) -/

theorem inPixel_idle {s : State} {k : Nat} (h : s.seq = .idle) : s.inPixel k = .idle := if_pos h

theorem inPixel_last {s : State} (h : s.seq = .enc 0) : s.inPixel (chCount s.cfg.variant) = .fetch := by
  rw [State.inPixel, h, if_neg nofun, encOrFetch_chCount]

/-- A pixel of the variant whose sends all succeed. -/
theorem pixel_succeeds {bs : List Byte} {s : State} (hq : s.seq = .idle ∨ s.seq = .enc 0)
    (hlen : bs.length = chCount s.cfg.variant) (hok : okBefore s.tx (3 * bs.length)) :
    ∃ t, (s.encodeAll bs).answer = .next t ∧
      ioOf t.trace = ioOf s.trace ++ planIo s.cfg.hasRx (bs.flatMap encodePlan) ∧
      wireOf t.trace = wireOf s.trace ++ bs.flatMap encodeTriplet ∧ t.ret = .ok ∧ t.acc = accAfter bs s.acc ∧
      (s.seq = .idle → t.seq = .idle) ∧ (s.seq = .enc 0 → t.seq = .fetch) ∧
      deliveredOf t.trace = deliveredOf s.trace ∧
      t.cfg = s.cfg ∧ t.pix = s.pix ∧ t.res = s.res ∧ t.host = s.host ∧ t.colors = s.colors := by
  rw [← flatMap_encodePlan_length] at hok
  obtain ⟨t, ht, hc, hend⟩ := (follows_encodeAll bs hq hlen.le).full hok
  rw [hlen] at hend
  have hwire := hc.wire
  rw [flatMap_encodePlan_map_fst] at hwire
  exact ⟨{ t with ret := .ok }, by rw [ht, answer_ok], hc.io, hwire, rfl, hend.acc,
    fun hi => hend.seq.trans (inPixel_idle hi), fun hi => hend.seq.trans (inPixel_last hi), hend.quiet, hc.frame.cfg,
    hc.frame.pix, hend.res, hc.frame.host, hc.frame.colors⟩

/-- Where send `j` of channel `c` is the first that fails, the channels before it are encoded in full, so `ACC` holds
the triplet of channel `c`. -/
theorem acc_of_encodeAll_fails {bs : List Byte} {s t : State} {c j : Nat} {x : Byte} {e : ErrTag}
    (hq : s.seq = .idle ∨ s.seq = .enc 0) (hlen : bs.length = chCount s.cfg.variant) (hx : bs[c]? = some x)
    (hj : j < 3) (hok : okBefore s.tx (3 * c + j)) (he : offer s.tx (3 * c + j) = .err e)
    (ht : s.encodeAll bs = .err e t) :
    t.acc = .holds (tripletOf x) := by
  obtain ⟨hc, hget⟩ := List.getElem?_eq_some_iff.1 hx
  have htake : (bs.take c).length = c := List.length_take_of_le hc.le
  obtain ⟨u, hu, hcarried, hencoded⟩ := (follows_encodeAll (bs.take c) hq (by omega)).full
    (okBefore_mono hok (by rw [flatMap_encodePlan_length]; omega))
  have huq : u.seq = .idle ∨ ∃ c : Fin 4, u.seq = .enc c := by
    have h4 := chCount_le_four s.cfg.variant
    rw [hencoded.seq, htake, State.inPixel, encOrFetch_of_lt (by omega) (by omega)]
    split
    · exact .inl rfl
    · exact .inr ⟨_, rfl⟩
  have hoffer : ∀ m, offer u.tx m = offer s.tx (3 * c + m) := fun m => by
    rw [hcarried.offers, flatMap_encodePlan_length, htake, Nat.add_comm]
  obtain ⟨w, hw, -, hacc⟩ := (follows_encode x huq).part j _ _ e (List.getElem?_eq_getElem hj)
    (fun m hm => by rw [hoffer]; exact hok _ (by omega)) (by rw [hoffer]; exact he)
  have hsplit : bs = bs.take c ++ x :: bs.drop (c + 1) := by
    rw [← hget, List.getElem_cons_drop, List.take_append_drop]
  rw [hsplit, encodeAll_append, hu, andThen_ok, State.encodeAll, hw, andThen_err] at ht
  obtain ⟨-, rfl⟩ := Flow.err.inj ht
  exact hacc

/-- A pixel of the variant whose first failed send is send `j` of channel `c`. -/
theorem pixel_fails {bs : List Byte} {s : State} {c j : Nat} {e : ErrTag} (hq : s.seq = .idle ∨ s.seq = .enc 0)
    (hlen : bs.length = chCount s.cfg.variant) (hc : c < bs.length) (hj : j < 3) (hok : okBefore s.tx (3 * c + j))
    (he : offer s.tx (3 * c + j) = .err e) :
    ∃ t, (s.encodeAll bs).answer = .next t ∧
      wireOf t.trace = wireOf s.trace ++ (bs.flatMap encodeTriplet).take (3 * c + j) ∧ t.ret = .err e ∧ t.res = .err e ∧
      (∀ x : Byte, bs[c]? = some x → t.acc = .holds (tripletOf x)) ∧
      t.seq = .idle ∧ deliveredOf t.trace = deliveredOf s.trace ++ [.err e] ∧
      t.cfg = s.cfg ∧ t.pix = s.pix ∧ t.host = s.host ∧ t.colors = s.colors := by
  have hlt : 3 * c + j < (bs.flatMap encodePlan).length := by rw [flatMap_encodePlan_length]; omega
  obtain ⟨t, ht, hfailed, -⟩ :=
    (follows_encodeAll bs hq hlen.le).part _ _ _ e (List.getElem?_eq_getElem hlt) hok he
  have hacc : ∀ x, bs[c]? = some x → t.acc = .holds (tripletOf x) := fun x hx =>
    acc_of_encodeAll_fails hq hlen hx hj hok he ht
  have hwire := hfailed.wire
  rw [List.map_take, flatMap_encodePlan_map_fst] at hwire
  exact ⟨{ t with ret := .err e }, by rw [ht, answer_err], hwire, rfl, hfailed.res, hacc, hfailed.seq,
    hfailed.delivered, hfailed.frame.cfg, hfailed.frame.pix, hfailed.frame.host, hfailed.frame.colors⟩

/-- Settles O43: three channel bytes in the order green, red, blue. -/
theorem pixelGrbOutcomes : Obligations.PixelGrbOutcomes := by
  intro r g b s hq
  have hexec : s.cfg.variant = .grb3 →
      exec (.pixelGrb r g b) s = (s.encodeAll (pixelBytes3 r g b)).answer := fun hv => if_pos hv
  refine ⟨fun hv => if_neg hv, fun hv hok => ?_, fun c j e hv hc hj hok he => ?_⟩ <;> rw [hexec hv]
  · obtain ⟨t, ht, hio, hwire, hrest⟩ := pixel_succeeds (bs := pixelBytes3 r g b) hq (by rw [hv]; rfl) hok
    exact ⟨t, ht, hio, by simpa [pixelBytes3] using hwire, hrest⟩
  · exact pixel_fails (bs := pixelBytes3 r g b) hq (by rw [hv]; rfl) hc hj hok he

/-- Settles O44: four channel bytes, white after blue. -/
theorem pixelGrbwOutcomes : Obligations.PixelGrbwOutcomes := by
  intro r g b w s hq
  have hexec : s.cfg.variant = .grbw4 →
      exec (.pixelGrbw r g b w) s = (s.encodeAll (pixelBytes4 r g b w)).answer := fun hv => if_pos hv
  refine ⟨fun hv => if_neg hv, fun hv hok => ?_, fun c j e hv hc hj hok he => ?_⟩ <;> rw [hexec hv]
  · obtain ⟨t, ht, hio, hwire, hrest⟩ := pixel_succeeds (bs := pixelBytes4 r g b w) hq (by rw [hv]; rfl) hok
    exact ⟨t, ht, hio, by simpa [pixelBytes4] using hwire, hrest⟩
  · exact pixel_fails (bs := pixelBytes4 r g b w) hq (by rw [hv]; rfl) hc hj hok he

/-! ### Offers (R115)

R115 numbers the bytes a WRITE offers. Between two offers the block drains, and asks the color source before the first
byte of a pixel and before the final flush; so a WRITE is told by its offers, each with what came just before it. -/

/-- One offer: what `NextColor()` answered just before it, where it was asked, the byte, and whether a drain follows. -/
structure Offered where
  asked  : Option (Option Color)
  byte   : Byte
  drains : Bool

/-- The event of asking the color source. -/
def asksIo : Option (Option Color) → List Event
  | none => []
  | some (some c) => [.pull c]
  | some none => [.pullEnd]

/-- The listed events of offers that are all answered `Ok`. -/
def offersIo (hasRx : Bool) (p : List Offered) : List Event :=
  p.flatMap fun x => asksIo x.asked ++ planIo hasRx [(x.byte, x.drains)]

/-- A plan as offers, the color source asked before the first. -/
def offersOf (asked : Option (Option Color)) : Plan → List Offered
  | [] => []
  | x :: p => ⟨asked, x.1, x.2⟩ :: p.map fun y => ⟨none, y.1, y.2⟩

@[simp] theorem offersIo_append (hasRx : Bool) (p q : List Offered) :
    offersIo hasRx (p ++ q) = offersIo hasRx p ++ offersIo hasRx q := by
  simp [offersIo]

theorem offersIo_map_none (hasRx : Bool) (p : Plan) :
    offersIo hasRx (p.map fun y => ⟨none, y.1, y.2⟩) = planIo hasRx p := by
  simp [offersIo, planIo, asksIo, List.flatMap_map]

theorem offersIo_cons (hasRx : Bool) (x : Offered) (p : List Offered) :
    offersIo hasRx (x :: p) = asksIo x.asked ++ planIo hasRx [(x.byte, x.drains)] ++ offersIo hasRx p := by
  simp [offersIo]

@[simp] theorem offersOf_length (a : Option (Option Color)) (p : Plan) : (offersOf a p).length = p.length := by
  cases p <;> simp [offersOf]

/-- The plan's events, asking first. -/
theorem offersIo_offersOf (hasRx : Bool) (a : Option (Option Color)) {p : Plan} (hp : p ≠ []) :
    offersIo hasRx (offersOf a p) = asksIo a ++ planIo hasRx p := by
  obtain ⟨x, p, rfl⟩ := List.exists_cons_of_ne_nil hp
  rw [offersOf, offersIo_cons, offersIo_map_none, List.append_assoc, ← planIo_append]
  rfl

/-- The events before offer `n` of a plan, with what is asked just before it. -/
theorem offersIo_take_offersOf (hasRx : Bool) (a : Option (Option Color)) (p : Plan) {n : Nat} {x : Offered}
    (h : (offersOf a p)[n]? = some x) :
    offersIo hasRx ((offersOf a p).take n) ++ asksIo x.asked = asksIo a ++ planIo hasRx (p.take n) ∧
      p[n]? = some (x.byte, x.drains) := by
  cases p with
  | nil => cases h
  | cons y p =>
    cases n with
    | zero => cases h; exact ⟨(List.append_nil _).symm, rfl⟩
    | succ n =>
      obtain ⟨z, hz, rfl⟩ : ∃ z, p[n]? = some z ∧ ⟨none, z.1, z.2⟩ = x := by simpa [offersOf] using h
      refine ⟨?_, hz⟩
      rw [offersOf, List.take_succ_cons, ← List.map_take, offersIo_cons, offersIo_map_none, asksIo, List.append_nil,
        List.append_assoc, ← planIo_append]
      rfl

/-! ### Reading the offers' events -/

/-- What `NextColor()` answered along the offers. -/
def askedOf (p : List Offered) : List (Option Color) := p.filterMap Offered.asked

@[simp] theorem askedOf_nil : askedOf [] = [] := rfl

@[simp] theorem askedOf_append (p q : List Offered) : askedOf (p ++ q) = askedOf p ++ askedOf q := by
  simp [askedOf]

theorem askedOf_map_none (p : Plan) : askedOf (p.map fun y => ⟨none, y.1, y.2⟩) = [] := by
  induction p with
  | nil => rfl
  | cons y p ih => exact ih

theorem wireOf_asksIo (a : Option (Option Color)) : wireOf (asksIo a) = [] := by
  rcases a with _ | _ | c <;> rfl

theorem rxCount_asksIo (a : Option (Option Color)) : rxCount (asksIo a) = 0 := by
  rcases a with _ | _ | c <;> rfl

theorem pulledOf_asksIo (a : Option (Option Color)) : pulledOf (asksIo a) = a.toList.reduceOption := by
  rcases a with _ | _ | c <;> rfl

theorem endCount_asksIo (a : Option (Option Color)) : endCount (asksIo a) = a.toList.count none := by
  rcases a with _ | _ | c <;> rfl

theorem pulledOf_planIo_singleton (hasRx d : Bool) (v : Byte) : pulledOf (planIo hasRx [(v, d)]) = [] := by
  cases hasRx <;> cases d <;> rfl

theorem endCount_planIo_singleton (hasRx d : Bool) (v : Byte) : endCount (planIo hasRx [(v, d)]) = 0 := by
  cases hasRx <;> cases d <;> rfl

theorem rxCount_planIo_singleton (hasRx d : Bool) (v : Byte) :
    rxCount (planIo hasRx [(v, d)]) = if hasRx && d then 1 else 0 := by
  cases hasRx <;> cases d <;> rfl

theorem askedOf_cons (x : Offered) (p : List Offered) : askedOf (x :: p) = x.asked.toList ++ askedOf p := by
  rcases x with ⟨_ | a, b, d⟩ <;> rfl

theorem wireOf_offersIo (hasRx : Bool) (p : List Offered) : wireOf (offersIo hasRx p) = p.map Offered.byte := by
  induction p with
  | nil => rfl
  | cons x p ih => simp [offersIo_cons, wireOf_asksIo, ih]

theorem pulledOf_offersIo (hasRx : Bool) (p : List Offered) :
    pulledOf (offersIo hasRx p) = (askedOf p).reduceOption := by
  induction p with
  | nil => rfl
  | cons x p ih =>
    simp [offersIo_cons, askedOf_cons, pulledOf_asksIo, pulledOf_planIo_singleton, List.reduceOption_append, ih]

theorem endCount_offersIo (hasRx : Bool) (p : List Offered) : endCount (offersIo hasRx p) = (askedOf p).count none := by
  induction p with
  | nil => rfl
  | cons x p ih => simp [offersIo_cons, askedOf_cons, endCount_asksIo, endCount_planIo_singleton, ih]

theorem rxCount_offersIo (hasRx : Bool) (p : List Offered) :
    rxCount (offersIo hasRx p) = if hasRx then p.countP Offered.drains else 0 := by
  induction p with
  | nil => cases hasRx <;> rfl
  | cons x p ih =>
    rw [offersIo_cons, rxCount_append, rxCount_append, rxCount_asksIo, rxCount_planIo_singleton, ih, List.countP_cons]
    cases hasRx <;> simp [Nat.add_comm]

/-! ### Offers carried out -/

/-- Offers all answered `Ok` between `s` and `t`. -/
structure Performed (p : List Offered) (s t : State) : Prop where
  io     : ioOf t.trace = ioOf s.trace ++ offersIo s.cfg.hasRx p
  offers : ∀ m, offer t.tx m = offer s.tx (m + p.length)
  cfg    : t.cfg = s.cfg
  host   : t.host = s.host

/-- The offers `done` were answered `Ok`, and `x` after them `Err(e)`. -/
structure BrokenOff (done : List Offered) (x : Offered) (e : ErrTag) (s t : State) : Prop where
  trace : ∃ before, t.trace = before ++ [.txerr x.byte e, .done (.err e)] ∧
    ioOf before = ioOf s.trace ++ offersIo s.cfg.hasRx done ++ asksIo x.asked ∧
    deliveredOf before = deliveredOf s.trace
  seq   : t.seq = .idle
  res   : t.res = .err e
  cfg   : t.cfg = s.cfg
  host  : t.host = s.host

/-- `f` makes the offers `p` from `s`: all of them, ending in `post`, if each is answered `Ok`; up to the first that is
answered `Err(e)`; and without end where one is never settled. `Follows`, with the color source asked in between. -/
structure Performs (p : List Offered) (s : State) (f : Flow) (post : State → Prop) : Prop where
  full  : okBefore s.tx p.length → ∃ t, f = .ok t ∧ Performed p s t ∧ post t
  part  : ∀ n x e, p[n]? = some x → okBefore s.tx n → offer s.tx n = .err e →
    ∃ t, f = .err e t ∧ BrokenOff (p.take n) x e s t
  never : ∀ n, n < p.length → okBefore s.tx n → offer s.tx n = .wouldBlock → f = .never

/-- A weaker end. -/
theorem Performs.weaken {p : List Offered} {s : State} {f : Flow} {post post' : State → Prop} (h : Performs p s f post)
    (hp : ∀ t, Performed p s t → post t → post' t) : Performs p s f post' where
  full hok := by
    obtain ⟨t, hf, ht, hpost⟩ := h.full hok
    exact ⟨t, hf, ht, hp t ht hpost⟩
  part := h.part
  never := h.never

/-- A plan followed from `s`, which is `s₀` after asking the color source. -/
theorem Follows.performs {p : Plan} {s₀ s : State} {f : Flow} {post fail : State → Prop} (h : Follows p s f post fail)
    (hp : p ≠ []) (a : Option (Option Color)) (htx : s.tx = s₀.tx) (hcfg : s.cfg = s₀.cfg) (hhost : s.host = s₀.host)
    (hio : ioOf s.trace = ioOf s₀.trace ++ asksIo a) (hdel : deliveredOf s.trace = deliveredOf s₀.trace) :
    Performs (offersOf a p) s₀ f (fun t => SameFrame s t ∧ post t) where
  full hok := by
    rw [offersOf_length, ← htx] at hok
    obtain ⟨t, ht, hc, hpost⟩ := h.full hok
    refine ⟨t, ht, ⟨?_, ?_, hc.frame.cfg.trans hcfg, hc.frame.host.trans hhost⟩, hc.frame, hpost⟩
    · rw [hc.io, hio, hcfg, offersIo_offersOf _ a hp, List.append_assoc]
    · rw [offersOf_length, ← htx]
      exact hc.offers
  part n x e hx hok he := by
    rw [← htx] at hok he
    obtain ⟨hbefore, hget⟩ := offersIo_take_offersOf s₀.cfg.hasRx a p hx
    obtain ⟨t, ht, hf, -⟩ := h.part n _ _ e hget hok he
    obtain ⟨before, htr, hbio, hbdel⟩ := hf.trace
    refine ⟨t, ht, ⟨⟨before, htr, ?_, hbdel.trans hdel⟩, hf.seq, hf.res, hf.frame.cfg.trans hcfg,
      hf.frame.host.trans hhost⟩⟩
    rw [hbio, hio, hcfg, List.append_assoc, List.append_assoc, hbefore]
  never n hn hok hwb := by
    rw [← htx] at hok hwb
    exact h.never n (by rwa [offersOf_length] at hn) hok hwb

/-- Offers after offers. The first end with nothing delivered, as only the last byte of a final flush does not. -/
theorem Performs.append {p q : List Offered} {s : State} {f : Flow} {g : State → Flow} {post post' : State → Prop}
    (hf : Performs p s f post) (hd : ∀ t, post t → deliveredOf t.trace = deliveredOf s.trace)
    (hg : ∀ t, Performed p s t → post t → Performs q t (g t) post') : Performs (p ++ q) s (f.andThen g) post' where
  full hok := by
    obtain ⟨t, rfl, ht, hpost⟩ := hf.full (okBefore_mono hok (by simp))
    obtain ⟨u, hu, hq, hpost'⟩ := (hg t ht hpost).full fun m hm => by
      rw [ht.offers]; exact hok _ (by rw [List.length_append]; omega)
    refine ⟨u, hu, ⟨?_, fun m => ?_, hq.cfg.trans ht.cfg, hq.host.trans ht.host⟩, hpost'⟩
    · rw [hq.io, ht.io, ht.cfg, offersIo_append, List.append_assoc]
    · rw [hq.offers, ht.offers, List.length_append, Nat.add_assoc, Nat.add_comm q.length]
  part n x e hx hok he := by
    by_cases hn : n < p.length
    · rw [List.getElem?_append_left hn] at hx
      obtain ⟨t, rfl, ht⟩ := hf.part n x e hx hok he
      exact ⟨t, rfl, by rwa [List.take_append_of_le_length hn.le]⟩
    · obtain ⟨m, rfl⟩ := Nat.exists_eq_add_of_le' (Nat.le_of_not_lt hn)
      obtain ⟨t, rfl, ht, hpost⟩ := hf.full (okBefore_mono hok (by omega))
      rw [List.getElem?_append_right (by omega), Nat.add_sub_cancel] at hx
      obtain ⟨u, hu, hq⟩ := (hg t ht hpost).part m x e hx
        (fun i hi => by rw [ht.offers]; exact hok _ (by omega)) (by rw [ht.offers]; exact he)
      obtain ⟨before, htr, hio, hdel⟩ := hq.trace
      refine ⟨u, hu, ⟨⟨before, htr, ?_, hdel.trans (hd t hpost)⟩, hq.seq, hq.res, hq.cfg.trans ht.cfg,
        hq.host.trans ht.host⟩⟩
      rw [hio, ht.io, ht.cfg, Nat.add_comm, List.take_length_add_append, offersIo_append]
      simp only [List.append_assoc]
  never n hn hok hwb := by
    by_cases hlt : n < p.length
    · rw [hf.never n hlt hok hwb]; rfl
    · obtain ⟨m, rfl⟩ := Nat.exists_eq_add_of_le' (Nat.le_of_not_lt hlt)
      obtain ⟨t, rfl, ht, hpost⟩ := hf.full (okBefore_mono hok (by omega))
      rw [List.length_append] at hn
      exact (hg t ht hpost).never m (by omega) (fun i hi => by rw [ht.offers]; exact hok _ (by omega))
        (by rw [ht.offers]; exact hwb)

/-- All offers before number `n` are answered `Ok`, or there is a first that is not. -/
theorem okBefore_or_first (q : Script TxAnswer) (n : Nat) :
    okBefore q n ∨ ∃ m < n, okBefore q m ∧ offer q m ≠ .ok := by
  by_cases hok : okBefore q n
  · exact .inl hok
  · have hex : ∃ m, m < n ∧ offer q m ≠ .ok := by simpa [okBefore] using hok
    obtain ⟨hlt, hne⟩ := Nat.find_spec hex
    refine .inr ⟨Nat.find hex, hlt, fun m hm => ?_, hne⟩
    by_contra hm'
    exact Nat.find_min hex hm ⟨hm.trans hlt, hm'⟩

/-! ### The offers of a WRITE (R66, R115) -/

/-- The offers of R112's steps 2 and 3: the pixels, each once its color is pulled, and the final flush. -/
def loopOffers : List Color → List Offered
  | [] => offersOf (some none) flushPlan
  | c :: cs => offersOf (some (some c)) (pixelPlan c) ++ loopOffers cs

/-- The offers of a WRITE, the pre-flush before them where there is one. -/
def writeOffers (idleHigh : Bool) (cs : List Color) : List Offered :=
  if idleHigh then offersOf none flushPlan ++ loopOffers cs else loopOffers cs

theorem pixelPlan_eq_flatMap (c : Color) : pixelPlan c = (colorBytes c).flatMap encodePlan := by
  cases c <;> rfl

theorem pixelPlan_ne_nil (c : Color) : pixelPlan c ≠ [] := by
  cases c <;> nofun

theorem flushPlan_ne_nil : flushPlan ≠ [] := nofun

theorem nextColor_of_nil {s : State} (h : s.colors = ⟨[], none⟩) : s.nextColor = (none, s.log .pullEnd) := by
  have hdraw : s.colors.draw = (none, s.colors) := by rw [h]; rfl
  rw [State.nextColor, hdraw]

theorem nextColor_of_cons {s : State} {c : Color} {cs : List Color} (h : s.colors = ⟨c :: cs, none⟩) :
    s.nextColor = (some c, { s with colors := ⟨cs, none⟩ }.log (.pull c)) := by
  rw [State.nextColor, h, ColorSource.draw]

/-- The state at `ENC(0)` once `c` is pulled and `cs` is left to pull (R125). -/
def State.pixelBegun (c : Color) (cs : List Color) (s : State) : State :=
  ({ s with colors := ⟨cs, none⟩ }.log (.pull c)).loadPix c

@[simp] theorem pixelBegun_trace (c : Color) (cs : List Color) (s : State) :
    (s.pixelBegun c cs).trace = s.trace ++ [.pull c] := rfl

theorem writeLoop_of_nil (n : Nat) {s : State} (h : s.colors = ⟨[], none⟩) :
    s.writeLoop (n + 1) = (s.log .pullEnd).enterFinalFlush.flush := by
  rw [State.writeLoop, nextColor_of_nil h]

theorem writeLoop_of_cons (n : Nat) {s : State} {c : Color} {cs : List Color} (h : s.colors = ⟨c :: cs, none⟩) :
    s.writeLoop (n + 1) =
      ((s.pixelBegun c cs).encodeAll (colorBytes c)).andThen fun t => t.writeLoop n := by
  rw [State.writeLoop, nextColor_of_cons h]
  rfl

/-- How a WRITE whose every send succeeds ends. -/
structure Written (cs : List Color) (s t : State) : Prop where
  seq       : t.seq = .idle
  res       : t.res = .ok
  delivered : deliveredOf t.trace = deliveredOf s.trace ++ [.ok]
  pix       : t.pix = cs.foldl (fun _ c => .holds c) s.pix
  acc       : t.acc = cs.foldl (fun acc c => accAfter (colorBytes c) acc) s.acc
  colors    : t.colors = ⟨[], none⟩

/-- Steps 2 and 3 of R112 and R113, color by color. -/
theorem performs_writeLoop (cs : List Color) {s : State} (hv : ∀ c ∈ cs, variantOf c = s.cfg.variant)
    (hcol : s.colors = ⟨cs, none⟩) : Performs (loopOffers cs) s (s.writeLoop (cs.length + 1)) (Written cs s) := by
  induction cs generalizing s with
  | nil =>
    rw [writeLoop_of_nil _ hcol]
    have hf := (follows_flush (s := (s.log .pullEnd).enterFinalFlush) (.inr ⟨.post, rfl⟩)).performs (s₀ := s)
      flushPlan_ne_nil (some none) rfl rfl rfl (by simp [asksIo]) (by simp)
    refine hf.weaken fun t ht ⟨hframe, hend⟩ => ?_
    obtain ⟨hseq, hres, hdel⟩ := hend.post rfl
    exact ⟨hseq, hres, by simpa using hdel, hframe.pix, hend.acc, hframe.colors.trans hcol⟩
  | cons c cs ih =>
    obtain ⟨hc, hcs⟩ := List.forall_mem_cons.1 hv
    rw [List.length_cons, writeLoop_of_cons _ hcol, loopOffers, pixelPlan_eq_flatMap]
    have hlen : (colorBytes c).length = chCount s.cfg.variant := by rw [colorBytes_length, hc]
    have hf := (follows_encodeAll (colorBytes c) (s := s.pixelBegun c cs) (.inr rfl) hlen.le).performs (s₀ := s)
      (pixelPlan_eq_flatMap c ▸ pixelPlan_ne_nil c) (some (some c)) rfl rfl rfl (by simp [asksIo]) (by simp)
    refine hf.append (fun t ⟨_, hend⟩ => by simpa using hend.quiet) fun t ht ⟨hframe, hend⟩ => ?_
    refine (ih (by rwa [ht.cfg]) hframe.colors).weaken fun u hu hw => ⟨hw.seq, hw.res, ?_, ?_, ?_, hw.colors⟩
    · rw [hw.delivered, hend.quiet]
      simp
    · rw [hw.pix, hframe.pix]
      rfl
    · rw [hw.acc, hend.acc]
      rfl

/-- R112 and R113 from an accepted `Start`: the pre-flush where there is one, and the colors. -/
theorem performs_writeAll (cs : List Color) {s : State} (hv : ∀ c ∈ cs, variantOf c = s.cfg.variant)
    (hcol : s.colors = ⟨cs, none⟩) (hseq : s.seq = if s.cfg.idleHigh then .flSend .pre 0 else .fetch) :
    Performs (writeOffers s.cfg.idleHigh cs) s s.writeAll (Written cs s) := by
  unfold writeOffers State.writeAll
  cases hh : s.cfg.idleHigh with
  | false =>
    have hlen : s.colors.colors.length = cs.length := by rw [hcol]
    simp only [Bool.false_eq_true, if_false, hlen]
    exact performs_writeLoop cs hv hcol
  | true =>
    rw [hh, if_pos rfl] at hseq
    simp only [if_true]
    have hf := (follows_flush (.inr ⟨.pre, hseq⟩)).performs (s₀ := s) flushPlan_ne_nil none rfl rfl rfl
      (List.append_nil _).symm rfl
    refine hf.append (fun t ⟨_, hend⟩ => (hend.pre hseq).2.2) fun t ht ⟨hframe, hend⟩ => ?_
    obtain ⟨-, -, hdel⟩ := hend.pre hseq
    have hcolt : t.colors = ⟨cs, none⟩ := hframe.colors.trans hcol
    have hlen : t.colors.colors.length = cs.length := by rw [hcolt]
    rw [hlen]
    refine (performs_writeLoop cs (by rwa [ht.cfg]) hcolt).weaken fun u _ hw => ?_
    exact ⟨hw.seq, hw.res, by rw [hw.delivered, hdel], by rw [hw.pix, hframe.pix], by rw [hw.acc, hend.acc], hw.colors⟩

/-! ### What the offers of a WRITE say (R66, R114, R115) -/

theorem map_byte_offersOf (a : Option (Option Color)) (p : Plan) :
    (offersOf a p).map Offered.byte = p.map Prod.fst := by
  cases p with
  | nil => rfl
  | cons x p => simp [offersOf, Function.comp_def]

theorem pixelPlan_map_fst (c : Color) : (pixelPlan c).map Prod.fst = pixelWire c := by
  rw [pixelPlan_eq_flatMap, flatMap_encodePlan_map_fst, pixelWire_eq_flatMap]

theorem map_byte_loopOffers (cs : List Color) :
    (loopOffers cs).map Offered.byte = cs.flatMap pixelWire ++ List.replicate 20 0x00#8 := by
  induction cs with
  | nil => exact map_byte_offersOf _ _
  | cons c cs ih =>
    rw [loopOffers, List.map_append, map_byte_offersOf, pixelPlan_map_fst, ih, List.flatMap_cons, List.append_assoc]

/-- The bytes a WRITE offers are the frame. -/
theorem map_byte_writeOffers (cfg : Cfg) (cs : List Color) :
    (writeOffers cfg.idleHigh cs).map Offered.byte = frameOf cfg cs := by
  rw [frameOf_eq, preLength, writeOffers]
  cases cfg.idleHigh with
  | false => exact map_byte_loopOffers cs
  | true =>
    rw [if_pos rfl, if_pos rfl, List.map_append, map_byte_offersOf, map_byte_loopOffers]
    rfl

theorem writeOffers_length (cfg : Cfg) (cs : List Color) :
    (writeOffers cfg.idleHigh cs).length = (frameOf cfg cs).length := by
  rw [← map_byte_writeOffers, List.length_map]

theorem askedOf_take_offersOf (a : Option (Option Color)) {p : Plan} (hp : p ≠ []) (n : Nat) :
    askedOf ((offersOf a p).take (n + 1)) = a.toList := by
  obtain ⟨x, p, rfl⟩ := List.exists_cons_of_ne_nil hp
  rw [offersOf, List.take_succ_cons, ← List.map_take, askedOf_cons, askedOf_map_none, List.append_nil]

theorem askedOf_offersOf (a : Option (Option Color)) {p : Plan} (hp : p ≠ []) : askedOf (offersOf a p) = a.toList := by
  have h := askedOf_take_offersOf a hp p.length
  rwa [List.take_of_length_le (by simp)] at h

theorem pixelPlan_length (c : Color) : (pixelPlan c).length = 3 * chCount (variantOf c) := by
  rw [pixelPlan_eq_flatMap, flatMap_encodePlan_length, colorBytes_length]

theorem three_mul_chCount_pos (v : Variant) : 0 < 3 * chCount v := by
  cases v <;> decide

/-- Up to offer `n` of the pixels and the final flush one color is pulled for every pixel begun, and after the last
pixel the end is seen. -/
theorem askedOf_take_loopOffers {v : Variant} (cs : List Color) (hv : ∀ c ∈ cs, variantOf c = v) (n : Nat) :
    askedOf ((loopOffers cs).take (n + 1)) = (cs.map some ++ [none]).take (n / (3 * chCount v) + 1) := by
  induction cs generalizing n with
  | nil =>
    rw [loopOffers, askedOf_take_offersOf _ flushPlan_ne_nil]
    simp
  | cons c cs ih =>
    obtain ⟨hc, hcs⟩ := List.forall_mem_cons.1 hv
    have hlen : (offersOf (some (some c)) (pixelPlan c)).length = 3 * chCount v := by
      rw [offersOf_length, pixelPlan_length, hc]
    have hpos := three_mul_chCount_pos v
    rw [loopOffers]
    by_cases hn : n < 3 * chCount v
    · rw [List.take_append_of_le_length (by omega), askedOf_take_offersOf _ (pixelPlan_ne_nil c), Nat.div_eq_of_lt hn]
      rfl
    · obtain ⟨m, rfl⟩ := Nat.exists_eq_add_of_le (Nat.le_of_not_lt hn)
      rw [Nat.add_assoc, ← hlen, List.take_length_add_append, askedOf_append, askedOf_offersOf _ (pixelPlan_ne_nil c),
        ih hcs, hlen, Nat.add_div_left m hpos]
      rfl

/-- Up to offer `n` of a WRITE: nothing asked in the pre-flush, and then as above. -/
theorem askedOf_take_writeOffers (cfg : Cfg) (cs : List Color) (hv : ∀ c ∈ cs, variantOf c = cfg.variant) (n : Nat) :
    askedOf ((writeOffers cfg.idleHigh cs).take (n + 1)) =
      if n < preLength cfg then []
      else (cs.map some ++ [none]).take ((n - preLength cfg) / (3 * chCount cfg.variant) + 1) := by
  rw [writeOffers, preLength]
  cases cfg.idleHigh with
  | false => exact askedOf_take_loopOffers cs hv n
  | true =>
    have hlen : (offersOf none flushPlan).length = 20 := offersOf_length _ _
    rw [if_pos rfl, if_pos rfl]
    split
    · rw [List.take_append_of_le_length (by omega), askedOf_take_offersOf _ flushPlan_ne_nil]
      rfl
    · obtain ⟨m, rfl⟩ := Nat.exists_eq_add_of_le (show 20 ≤ n by omega)
      rw [Nat.add_assoc, ← hlen, List.take_length_add_append, askedOf_append, askedOf_offersOf _ flushPlan_ne_nil,
        askedOf_take_loopOffers cs hv, Nat.add_sub_cancel_left]
      rfl

/-- Along a WRITE every color is pulled, and then the end. -/
theorem askedOf_writeOffers (idleHigh : Bool) (cs : List Color) :
    askedOf (writeOffers idleHigh cs) = cs.map some ++ [none] := by
  have hloop : askedOf (loopOffers cs) = cs.map some ++ [none] := by
    induction cs with
    | nil => exact askedOf_offersOf _ flushPlan_ne_nil
    | cons c cs ih =>
      rw [loopOffers, askedOf_append, askedOf_offersOf _ (pixelPlan_ne_nil c), ih]
      rfl
  cases idleHigh with
  | false => exact hloop
  | true =>
    rw [writeOffers, if_pos rfl, askedOf_append, askedOf_offersOf _ flushPlan_ne_nil, hloop]
    rfl

/-- Of the source's answers the colors are those that are no end. -/
theorem reduceOption_take (cs : List Color) (m : Nat) :
    ((cs.map some ++ [none]).take (m + 1)).reduceOption = cs.take (m + 1) := by
  induction cs generalizing m with
  | nil => simp [List.reduceOption]
  | cons c cs ih =>
    cases m with
    | zero => rfl
    | succ m => exact congrArg (c :: ·) (ih m)

theorem count_none_take (cs : List Color) (m : Nat) :
    ((cs.map some ++ [none]).take (m + 1)).count none = if m < cs.length then 0 else 1 := by
  induction cs generalizing m with
  | nil => simp
  | cons c cs ih =>
    cases m with
    | zero => rfl
    | succ m =>
      have h := ih m
      simp_all

/-- Offer `n` is of a pixel's data, not of the final flush. -/
theorem pixel_lt_iff {cfg : Cfg} {total n : Nat} (hpre : preLength cfg ≤ n) :
    (n - preLength cfg) / (3 * chCount cfg.variant) < total ↔ n < preLength cfg + 3 * chCount cfg.variant * total := by
  rw [Nat.div_lt_iff_lt_mul (three_mul_chCount_pos _), Nat.mul_comm]
  omega

/-- R115's count of the colors pulled. -/
theorem take_pulledBefore (cfg : Cfg) (cs : List Color) (n : Nat) :
    cs.take (pulledBefore cfg cs.length n) =
      if n < preLength cfg then [] else cs.take ((n - preLength cfg) / (3 * chCount cfg.variant) + 1) := by
  unfold pulledBefore
  by_cases hpre : n < preLength cfg
  · rw [if_pos hpre, if_pos hpre, List.take_zero]
  · have hiff := pixel_lt_iff (total := cs.length) (Nat.le_of_not_lt hpre)
    rw [if_neg hpre, if_neg hpre]
    split
    · rfl
    · rw [List.take_length, List.take_of_length_le (by omega)]

theorem countP_drains_offersOf (a : Option (Option Color)) (p : Plan) :
    (offersOf a p).countP Offered.drains = p.countP Prod.snd := by
  cases p with
  | nil => rfl
  | cons x p =>
    rw [offersOf, List.countP_cons, List.countP_cons, List.countP_map]
    rfl

theorem countP_drains_loopOffers {v : Variant} (cs : List Color) (hv : ∀ c ∈ cs, variantOf c = v) :
    (loopOffers cs).countP Offered.drains = 2 * chCount v * cs.length + 20 := by
  induction cs with
  | nil => exact countP_drains_offersOf _ _
  | cons c cs ih =>
    obtain ⟨hc, hcs⟩ := List.forall_mem_cons.1 hv
    have hpixel : (pixelPlan c).countP Prod.snd = 2 * chCount v := by
      rw [← hc]
      cases c <;> rfl
    rw [loopOffers, List.countP_append, countP_drains_offersOf, hpixel, ih hcs, List.length_cons, Nat.mul_succ]
    omega

/-- The drains of a WRITE (R114): two for every channel byte, and one for every zero byte. -/
theorem countP_drains_writeOffers (cfg : Cfg) (cs : List Color) (hv : ∀ c ∈ cs, variantOf c = cfg.variant) :
    (writeOffers cfg.idleHigh cs).countP Offered.drains = 2 * chCount cfg.variant * cs.length + 20 + preLength cfg := by
  rw [writeOffers, preLength]
  cases cfg.idleHigh with
  | false => exact countP_drains_loopOffers cs hv
  | true =>
    rw [if_pos rfl, if_pos rfl, List.countP_append, countP_drains_offersOf, countP_drains_loopOffers cs hv,
      Nat.add_comm]
    rfl

/-! ### The wire, the pulls and the receive attempts of a WRITE -/

theorem Performed.wire {p : List Offered} {s t : State} (h : Performed p s t) :
    wireOf t.trace = wireOf s.trace ++ p.map Offered.byte := by
  rw [← wireOf_ioOf, h.io, wireOf_append, wireOf_ioOf, wireOf_offersIo]

theorem Performed.pulled {p : List Offered} {s t : State} (h : Performed p s t) :
    pulledOf t.trace = pulledOf s.trace ++ (askedOf p).reduceOption := by
  rw [← pulledOf_ioOf, h.io, pulledOf_append, pulledOf_ioOf, pulledOf_offersIo]

theorem Performed.ends {p : List Offered} {s t : State} (h : Performed p s t) :
    endCount t.trace = endCount s.trace + (askedOf p).count none := by
  rw [← endCount_ioOf, h.io, endCount_append, endCount_ioOf, endCount_offersIo]

theorem Performed.received {p : List Offered} {s t : State} (h : Performed p s t) :
    rxCount t.trace = rxCount s.trace + if s.cfg.hasRx then p.countP Offered.drains else 0 := by
  rw [← rxCount_ioOf, h.io, rxCount_append, rxCount_ioOf, rxCount_offersIo]

section BrokenOff
variable {done : List Offered} {x : Offered} {e : ErrTag} {s t : State} (h : BrokenOff done x e s t)
include h

theorem BrokenOff.io :
    ioOf t.trace = ioOf s.trace ++ offersIo s.cfg.hasRx done ++ asksIo x.asked ++ [.txerr x.byte e] := by
  obtain ⟨before, htr, hio, -⟩ := h.trace
  simp [htr, hio]

theorem BrokenOff.wire : wireOf t.trace = wireOf s.trace ++ done.map Offered.byte := by
  rw [← wireOf_ioOf, h.io]
  simp [wireOf_ioOf, wireOf_offersIo, wireOf_asksIo]

theorem BrokenOff.pulled : pulledOf t.trace = pulledOf s.trace ++ (askedOf (done ++ [x])).reduceOption := by
  rw [← pulledOf_ioOf, h.io]
  simp [pulledOf_ioOf, pulledOf_offersIo, pulledOf_asksIo, askedOf_cons, List.reduceOption_append]

theorem BrokenOff.ends : endCount t.trace = endCount s.trace + (askedOf (done ++ [x])).count none := by
  rw [← endCount_ioOf, h.io]
  simp [endCount_ioOf, endCount_offersIo, endCount_asksIo, askedOf_cons]

theorem BrokenOff.delivered : deliveredOf t.trace = deliveredOf s.trace ++ [.err e] := by
  obtain ⟨before, htr, -, hdel⟩ := h.trace
  simp [htr, hdel]

end BrokenOff

/-! ### WRITE as a function of its environment (R112 to R115) -/

/-- A WRITE of the block's variant on an idle block makes the offers of its frame, and ends as `Written` says. -/
theorem performs_write {i : Instr} {cs : List Color} {s : State} (hi : writesOf i = some (s.cfg.variant, cs))
    (hq : s.seq = .idle) :
    ∃ f : Flow, exec i s = f.answer ∧ Performs (writeOffers s.cfg.idleHigh cs) s f (Written cs s) := by
  have hf := performs_writeAll cs (s := s.acceptStart ⟨cs, none⟩) (variantOf_of_writesOf hi) rfl rfl
  refine ⟨_, by rw [exec_of_writesOf hi, write_idle cs hq], fun hok => ?_, fun n x e hx hok he => ?_, hf.never⟩
  · obtain ⟨t, ht, hp, hw⟩ := hf.full hok
    exact ⟨t, ht, ⟨hp.io, hp.offers, hp.cfg, hp.host⟩, hw.seq, hw.res, hw.delivered, hw.pix, hw.acc, hw.colors⟩
  · obtain ⟨t, ht, hb⟩ := hf.part n x e hx hok he
    exact ⟨t, ht, hb.trace, hb.seq, hb.res, hb.cfg, hb.host⟩

section Write
variable {i : Instr} {cs : List Color} {s : State} (hi : writesOf i = some (s.cfg.variant, cs)) (hq : s.seq = .idle)
include hi hq

/-- Every offer answered `Ok`. -/
theorem exec_write_full (hok : okBefore s.tx (frameOf s.cfg cs).length) :
    ∃ t, exec i s = .next { t with ret := .ok } ∧ Performed (writeOffers s.cfg.idleHigh cs) s t ∧ Written cs s t := by
  obtain ⟨f, hexec, hf⟩ := performs_write hi hq
  rw [← writeOffers_length] at hok
  obtain ⟨t, rfl, hp, hw⟩ := hf.full hok
  exact ⟨t, hexec, hp, hw⟩

/-- Offer `n` the first not answered `Ok`, but `Err(e)`. -/
theorem exec_write_part {n : Nat} {e : ErrTag} (hn : n < (frameOf s.cfg cs).length) (hok : okBefore s.tx n)
    (he : offer s.tx n = .err e) :
    ∃ t x, exec i s = .next { t with ret := .err e } ∧ (writeOffers s.cfg.idleHigh cs)[n]? = some x ∧
      BrokenOff ((writeOffers s.cfg.idleHigh cs).take n) x e s t := by
  obtain ⟨f, hexec, hf⟩ := performs_write hi hq
  rw [← writeOffers_length] at hn
  obtain ⟨t, rfl, hb⟩ := hf.part n _ e (List.getElem?_eq_getElem hn) hok he
  exact ⟨t, _, hexec, List.getElem?_eq_getElem hn, hb⟩

/-- Offer `n` the first not answered `Ok`, but `WouldBlock` for ever. -/
theorem exec_write_never {n : Nat} (hn : n < (frameOf s.cfg cs).length) (hok : okBefore s.tx n)
    (hwb : offer s.tx n = .wouldBlock) : exec i s = .fault .neverEnds := by
  obtain ⟨f, hexec, hf⟩ := performs_write hi hq
  rw [← writeOffers_length] at hn
  rw [hexec, hf.never n hn hok hwb, answer_never]

end Write

/-- A WRITE whose every send succeeds pulls every color and sees the end once. -/
theorem Performed.pulled_write {idleHigh : Bool} {cs : List Color} {s t : State}
    (h : Performed (writeOffers idleHigh cs) s t) :
    pulledOf t.trace = pulledOf s.trace ++ cs ∧ endCount t.trace = endCount s.trace + 1 := by
  rw [h.pulled, h.ends, askedOf_writeOffers]
  refine ⟨?_, ?_⟩
  · simp [List.reduceOption, List.filterMap_map]
  · simp [List.count_eq_zero]

/-- The outcome of a WRITE whose every send succeeds (R112, R113, R115). -/
theorem exec_write_completes {i : Instr} {cs : List Color} {s : State} (hi : writesOf i = some (s.cfg.variant, cs))
    (hq : s.seq = .idle) (hok : okBefore s.tx (frameOf s.cfg cs).length) :
    ∃ t, exec i s = .next t ∧ wireOf t.trace = wireOf s.trace ++ frameOf s.cfg cs ∧
      pulledOf t.trace = pulledOf s.trace ++ cs ∧ endCount t.trace = endCount s.trace + 1 ∧
      deliveredOf t.trace = deliveredOf s.trace ++ [.ok] ∧ t.res = .ok ∧ t.ret = .ok ∧ t.seq = .idle ∧
      t.pix = cs.foldl (fun _ c => .holds c) s.pix ∧
      t.acc = cs.foldl (fun acc c => accAfter (colorBytes c) acc) s.acc ∧
      t.colors = ⟨[], none⟩ ∧ t.cfg = s.cfg ∧ t.host = s.host := by
  obtain ⟨t, hexec, hp, hw⟩ := exec_write_full hi hq hok
  obtain ⟨hpulled, hends⟩ := hp.pulled_write
  have hwire := hp.wire
  rw [map_byte_writeOffers] at hwire
  exact ⟨_, hexec, hwire, hpulled, hends, hw.delivered, hw.res, rfl, hw.seq, hw.pix, hw.acc, hw.colors, hp.cfg, hp.host⟩

/-- A WRITE that breaks off at offer `n` has pulled what R115 counts, and saw the end only past the pixel data. -/
theorem BrokenOff.pulled_write {cs : List Color} {s t : State} {n : Nat} {x : Offered} {e : ErrTag}
    (hv : ∀ c ∈ cs, variantOf c = s.cfg.variant) (hx : (writeOffers s.cfg.idleHigh cs)[n]? = some x)
    (h : BrokenOff ((writeOffers s.cfg.idleHigh cs).take n) x e s t) :
    pulledOf t.trace = pulledOf s.trace ++ cs.take (pulledBefore s.cfg cs.length n) ∧
    endCount t.trace =
      endCount s.trace + (if n < preLength s.cfg + 3 * chCount s.cfg.variant * cs.length then 0 else 1) := by
  have hupto : (writeOffers s.cfg.idleHigh cs).take n ++ [x] = (writeOffers s.cfg.idleHigh cs).take (n + 1) := by
    rw [List.take_add_one, hx]
    rfl
  rw [h.pulled, h.ends, hupto, askedOf_take_writeOffers s.cfg cs hv, take_pulledBefore]
  by_cases hn : n < preLength s.cfg
  · rw [if_pos hn, if_pos hn, if_pos (by omega)]
    exact ⟨rfl, rfl⟩
  · simp only [if_neg hn, reduceOption_take, count_none_take, pixel_lt_iff (Nat.le_of_not_lt hn), and_self]

/-- Which pixel, channel and triplet byte the byte at offset `n` of the frame is (R115). -/
theorem frameOf_getElem?_pixelData {cfg : Cfg} {cs : List Color} (hv : ∀ c ∈ cs, variantOf c = cfg.variant) {n : Nat}
    {v : Byte} (hget : (frameOf cfg cs)[n]? = some v) (hpre : preLength cfg ≤ n)
    (hlt : n < preLength cfg + 3 * chCount cfg.variant * cs.length) :
    ∃ (c : Color) (b : Byte), cs[(n - preLength cfg) / (3 * chCount cfg.variant)]? = some c ∧
      (colorBytes c)[(n - preLength cfg) % (3 * chCount cfg.variant) / 3]? = some b ∧
      (encodeTriplet b)[(n - preLength cfg) % 3]? = some v := by
  have hm := (pixel_lt_iff hpre).2 hlt
  obtain ⟨d, rfl⟩ := Nat.exists_eq_add_of_le hpre
  rw [Nat.add_sub_cancel_left] at hm ⊢
  have hc := List.getElem?_eq_getElem hm
  have hk : d % (3 * chCount cfg.variant) / 3 < (colorBytes cs[d / (3 * chCount cfg.variant)]).length := by
    rw [colorBytes_length, hv _ (List.getElem_mem hm)]
    have := Nat.mod_lt d (three_mul_chCount_pos cfg.variant)
    omega
  refine ⟨_, _, hc, List.getElem?_eq_getElem hk, ?_⟩
  obtain ⟨-, -, -, hplace⟩ := framePlacesEveryByte cfg cs hv
  rw [← hget, ← hplace _ _ _ _ _ hc (List.getElem?_eq_getElem hk) (Nat.mod_lt d (by decide))]
  congr 1
  have hpixel := Nat.div_add_mod d (3 * chCount cfg.variant)
  have hbyte := Nat.div_add_mod (d % (3 * chCount cfg.variant)) 3
  rw [Nat.mod_mod_of_dvd d (Nat.dvd_mul_right 3 _)] at hbyte
  omega

/-- The bytes of a frame as far as a first part of its colors reaches. -/
theorem frameOf_append_take {cfg : Cfg} (as bs : List Color) {m : Nat}
    (h : m ≤ preLength cfg + (as.flatMap pixelWire).length) :
    (frameOf cfg (as ++ bs)).take m = (List.replicate (preLength cfg) 0x00#8 ++ as.flatMap pixelWire).take m := by
  rw [frameOf_eq, List.flatMap_append, List.append_assoc, ← List.append_assoc,
    List.take_append_of_le_length (by rwa [List.length_append, List.length_replicate])]

/-- R115: the frame up to a byte of the pixel data depends only on the colors pulled by then. -/
theorem frameOf_take_of_pulled {cfg : Cfg} {cs cs' : List Color} (hv : ∀ c ∈ cs, variantOf c = cfg.variant) {n : Nat}
    (hlt : n < preLength cfg + 3 * chCount cfg.variant * cs.length)
    (h : cs'.take (pulledBefore cfg cs.length n) = cs.take (pulledBefore cfg cs.length n)) :
    (frameOf cfg cs').take (n + 1) = (frameOf cfg cs).take (n + 1) := by
  have hreach : n + 1 ≤ preLength cfg + ((cs.take (pulledBefore cfg cs.length n)).flatMap pixelWire).length := by
    rw [take_pulledBefore]
    split
    · omega
    · have hm := Nat.succ_le_of_lt ((pixel_lt_iff (by omega)).2 hlt)
      have hnext := Nat.lt_mul_div_succ (n - preLength cfg) (three_mul_chCount_pos cfg.variant)
      rw [length_flatMap_of_length_eq (n := 3 * chCount cfg.variant)
        (fun c hc => by rw [pixelWire_length, hv c (List.mem_of_mem_take hc)]), List.length_take_of_le hm]
      rw [Nat.succ_eq_add_one]
      omega
  rw [← List.take_append_drop (pulledBefore cfg cs.length n) cs',
    h, frameOf_append_take _ _ hreach, ← frameOf_append_take _ (cs.drop _) hreach, List.take_append_drop]

/-- Settles O48. -/
theorem writeIsAFunctionOfItsEnvironment : Obligations.WriteIsAFunctionOfItsEnvironment := by
  intro i cs s hi hq
  have hv := variantOf_of_writesOf hi
  refine ⟨fun hok => ?_, fun n e hn hok he => ?_, fun n cs' hlt h => frameOf_take_of_pulled hv hlt h,
    fun n hn hok hwb => exec_write_never hi hq hn hok hwb⟩
  · obtain ⟨t, hexec, hwire, hpulled, hends, hdel, hres, -, hseq, -⟩ := exec_write_completes hi hq hok
    exact ⟨t, hexec, hwire, hres, hseq, hdel, hpulled, hends⟩
  · obtain ⟨t, x, hexec, hx, hb⟩ := exec_write_part hi hq hn hok he
    obtain ⟨before, htr, -, -⟩ := hb.trace
    obtain ⟨hpulled, hends⟩ := hb.pulled_write hv hx
    have hwire := hb.wire
    rw [List.map_take, map_byte_writeOffers] at hwire
    have hget : (frameOf s.cfg cs)[n]? = some x.byte := by
      rw [← map_byte_writeOffers, List.getElem?_map, hx]
      rfl
    exact ⟨_, x.byte, before, hexec, hwire, hb.res, hb.seq, htr, hget, hb.delivered, hpulled, hends,
      frameOf_getElem?_pixelData hv hget⟩

/-! ### WRITE.GRB and WRITE.GRBW in full (R112 to R114) -/

theorem frameOf_length {cfg : Cfg} {cs : List Color} (hv : ∀ c ∈ cs, variantOf c = cfg.variant) :
    (frameOf cfg cs).length = preLength cfg + 3 * chCount cfg.variant * cs.length + 20 :=
  (framePlacesEveryByte cfg cs hv).1

/-- A register written once for every element holds what the last one left. -/
theorem foldl_overwrite {α β : Type} (f : α → β) (l : List α) (x : β) :
    l.foldl (fun _ a => f a) x = (l.getLast?.map f).getD x := by
  induction l using List.reverseRecOn with
  | nil => rfl
  | append_singleton l a _ => simp

/-- Settles O46: the frame of `GRB3` colors, and the last color in the registers. -/
theorem grbWriteCompletes : Obligations.GrbWriteCompletes := by
  intro cs s hv hq hok
  have hi : writesOf (.writeGrb cs) = some (s.cfg.variant, cs.map Color.rgb) := by rw [hv]; rfl
  have hlen := frameOf_length (variantOf_of_writesOf hi)
  rw [List.length_map, hv] at hlen
  obtain ⟨t, ht, hwire, hpulled, hends, hdel, hres, hret, hseq, hpix, hacc, hrest⟩ :=
    exec_write_completes hi hq (by rw [hlen]; exact hok)
  refine ⟨t, ht, ?_, hpulled, hends, hdel, hres, hret, hseq, ?_, ?_, hrest⟩
  · rw [hwire, frameOf, encodeFrame, List.flatMap_map, ← List.append_assoc, ← List.append_assoc]
    rfl
  · rw [hpix, List.foldl_map, foldl_overwrite]
    cases cs.getLast? <;> rfl
  · rw [hacc, List.foldl_map]
    refine (foldl_overwrite (fun c : Rgb => .holds (tripletOf c.b)) cs s.acc).trans ?_
    cases cs.getLast? <;> rfl

/-- Settles O47: the frame of `GRBW4` colors, and the last color in the registers. -/
theorem grbwWriteCompletes : Obligations.GrbwWriteCompletes := by
  intro cs s hv hq hok
  have hi : writesOf (.writeGrbw cs) = some (s.cfg.variant, cs.map Color.rgbw) := by rw [hv]; rfl
  have hlen := frameOf_length (variantOf_of_writesOf hi)
  rw [List.length_map, hv] at hlen
  obtain ⟨t, ht, hwire, hpulled, hends, hdel, hres, hret, hseq, hpix, hacc, hrest⟩ :=
    exec_write_completes hi hq (by rw [hlen]; exact hok)
  refine ⟨t, ht, ?_, hpulled, hends, hdel, hres, hret, hseq, ?_, ?_, hrest⟩
  · rw [hwire, frameOf, encodeFrame, List.flatMap_map, ← List.append_assoc, ← List.append_assoc]
    rfl
  · rw [hpix, List.foldl_map, foldl_overwrite]
    cases cs.getLast? <;> rfl
  · rw [hacc, List.foldl_map]
    refine (foldl_overwrite (fun c : Rgbw => .holds (tripletOf c.w)) cs s.acc).trans ?_
    cases cs.getLast? <;> rfl

/-- The two ways a WRITE answers a next state: after all its offers, or broken off at one. -/
theorem exec_write_next {i : Instr} {cs : List Color} {s t : State} (hi : writesOf i = some (s.cfg.variant, cs))
    (hq : s.seq = .idle) (hexec : exec i s = .next t) :
    (Performed (writeOffers s.cfg.idleHigh cs) s t ∧ t.seq = .idle) ∨ ∃ done x e, BrokenOff done x e s t := by
  obtain hok | ⟨n, hn, hok, hne⟩ := okBefore_or_first s.tx (frameOf s.cfg cs).length
  · obtain ⟨u, hu, hp, hw⟩ := exec_write_full hi hq hok
    rw [hu] at hexec
    cases hexec
    exact .inl ⟨⟨hp.io, hp.offers, hp.cfg, hp.host⟩, hw.seq⟩
  · cases ho : offer s.tx n with
    | ok => exact absurd ho hne
    | wouldBlock => rw [exec_write_never hi hq hn hok ho] at hexec; cases hexec
    | err e =>
      obtain ⟨u, x, hu, -, hb⟩ := exec_write_part hi hq hn hok ho
      rw [hu] at hexec
      cases hexec
      exact .inr ⟨_, x, e, hb.trace, hb.seq, hb.res, hb.cfg, hb.host⟩

theorem performed_of_res_ok {i : Instr} {cs : List Color} {s t : State} (hi : writesOf i = some (s.cfg.variant, cs))
    (hq : s.seq = .idle) (hexec : exec i s = .next t) (hres : t.res = .ok) :
    Performed (writeOffers s.cfg.idleHigh cs) s t := by
  obtain ⟨hp, -⟩ | ⟨_, _, _, hb⟩ := exec_write_next hi hq hexec
  · exact hp
  · rw [hb.res] at hres
    cases hres

theorem idle_of_exec_write {i : Instr} {cs : List Color} {s t : State} (hi : writesOf i = some (s.cfg.variant, cs))
    (hq : s.seq = .idle) (hexec : exec i s = .next t) : t.seq = .idle := by
  obtain ⟨-, hidle⟩ | ⟨_, _, _, hb⟩ := exec_write_next hi hq hexec
  · exact hidle
  · exact hb.seq

/-- Settles O49: the bytes of the frame are counted by its length, the receive attempts by the drains. -/
theorem writeByteAndReceiveCounts : Obligations.WriteByteAndReceiveCounts := by
  intro i cs s t hi hq hexec hres
  have hv := variantOf_of_writesOf hi
  have hp := performed_of_res_ok hi hq hexec hres
  have hrx := hp.received
  rw [countP_drains_writeOffers s.cfg cs hv] at hrx
  refine ⟨?_, fun h => ?_, fun h => ?_⟩
  · rw [hp.wire, map_byte_writeOffers, List.length_append, frameOf_length hv, preLength]
    ring
  · rw [hrx, if_pos h, preLength]
  · rw [hrx, h]
    rfl

/-! ### The final answers decide (R115, R175) -/

theorem frameOf_congr {c d : Cfg} (h : c.idleHigh = d.idleHigh) (cs : List Color) : frameOf c cs = frameOf d cs := by
  rw [frameOf, frameOf, h]

/-- Settles O53: both blocks make the same offers, up to the same first one not answered `Ok`. -/
theorem writeDependsOnFinalAnswersOnly : Obligations.WriteDependsOnFinalAnswersOnly := by
  intro i v cs s t hi hv hh hs ht hoffers hwire hpulled
  by_cases hsv : s.cfg.variant = v
  · subst hsv
    have hi' : writesOf i = some (t.cfg.variant, cs) := by rw [← hv]; exact hi
    have hok : ∀ {n}, okBefore s.tx n → okBefore t.tx n := fun hok m hm => (hoffers m).symm.trans (hok m hm)
    have hlen : (frameOf s.cfg cs).length = (frameOf t.cfg cs).length := by rw [frameOf_congr hh]
    obtain hall | ⟨n, hn, hbefore, hne⟩ := okBefore_or_first s.tx (frameOf s.cfg cs).length
    · obtain ⟨s', hs', hp, hw⟩ := exec_write_full hi hs hall
      obtain ⟨t', ht', hp', hw'⟩ := exec_write_full hi' ht (hlen ▸ hok hall)
      rw [hs', ht']
      exact ⟨by rw [hp.wire, hp'.wire, hwire, hh], by rw [hp.pulled, hp'.pulled, hpulled, hh],
        hw.res.trans hw'.res.symm⟩
    · cases ho : offer s.tx n with
      | ok => exact absurd ho hne
      | wouldBlock =>
        rw [exec_write_never hi hs hn hbefore ho,
          exec_write_never hi' ht (hlen ▸ hn) (hok hbefore) ((hoffers n).symm.trans ho)]
        rfl
      | err e =>
        obtain ⟨s', x, hs', hx, hb⟩ := exec_write_part hi hs hn hbefore ho
        obtain ⟨t', x', ht', hx', hb'⟩ :=
          exec_write_part hi' ht (hlen ▸ hn) (hok hbefore) ((hoffers n).symm.trans ho)
        obtain rfl : x = x' := by rw [hh, hx'] at hx; exact (Option.some.inj hx).symm
        rw [hs', ht']
        exact ⟨by rw [hb.wire, hb'.wire, hwire, hh], by rw [hb.pulled, hb'.pulled, hpulled, hh],
          hb.res.trans hb'.res.symm⟩
  · rw [exec_of_writesOf hi, exec_of_writesOf hi, write_otherVariant cs hsv, write_otherVariant cs (hv ▸ hsv)]
    rfl

/-! ### The functional form and the step form agree (R132)

Each functional form is carried out by the steps of a block that stays busy until the form has ended, piece by piece as
R132 pairs them. -/

theorem step_of_host_nil {s : State} (h : s.host = []) : step s = s.stepOwn := step_quiet (takeMove_nil h)

/-- A busy block's own step, with no host move to come. -/
structure BusyStep (s t : State) : Prop where
  host : s.host = []
  busy : s.seq ≠ .idle
  own  : s.stepOwn = .next t

theorem BusyStep.step {s t : State} (h : BusyStep s t) : step s = .next t := (step_of_host_nil h.host).trans h.own

/-- Steps of a block that is busy before each of them. -/
abbrev BusySteps : State → State → Prop := Relation.ReflTransGen BusyStep

/-- From `s` the steps go on for ever, the block busy all the way. -/
def RunsOn (s : State) : Prop := ∀ n, ∃ u, Host.Core.run Sys2Proof.core n s = .next u ∧ u.seq ≠ .idle

/-- The steps from `s` do what the flow says: they lead to its last state, or go on for ever. -/
def Flow.Realized (s : State) : Flow → Prop
  | .ok t => BusySteps s t
  | .err _ t => BusySteps s t
  | .never => RunsOn s

theorem RunsOn.head {s t : State} (hs : BusyStep s t) (ht : RunsOn t) : RunsOn s := fun n => by
  cases n with
  | zero => exact ⟨s, rfl, hs.busy⟩
  | succ n => rw [run_succ_next hs.step]; exact ht n

theorem Flow.Realized.head {s t : State} {f : Flow} (hs : BusyStep s t) (hf : f.Realized t) : f.Realized s := by
  cases f with
  | ok u => exact Relation.ReflTransGen.head hs hf
  | err e u => exact Relation.ReflTransGen.head hs hf
  | never => exact RunsOn.head hs hf

theorem Flow.Realized.of_steps {s t : State} {f : Flow} (hs : BusySteps s t) (hf : f.Realized t) : f.Realized s := by
  induction hs using Relation.ReflTransGen.head_induction_on with
  | refl => exact hf
  | head hstep _ ih => exact ih.head hstep

theorem Flow.Realized.andThen {s : State} {f : Flow} {g : State → Flow} {P Q : State → Prop} (hf : f.Realized s)
    (hends : f.EndsAs P Q) (hg : ∀ t, P t → (g t).Realized t) : (f.andThen g).Realized s := by
  cases f with
  | ok t => exact (hg t hends).of_steps hf
  | err e t => exact hf
  | never => exact hf

/-- The number of steps, and that the block is busy before each. -/
theorem BusySteps.run {s t : State} (h : BusySteps s t) :
    ∃ n, Host.Core.run Sys2Proof.core n s = .next t ∧
      ∀ m < n, ∃ u, Host.Core.run Sys2Proof.core m s = .next u ∧ u.seq ≠ .idle := by
  induction h using Relation.ReflTransGen.head_induction_on with
  | refl => exact ⟨0, rfl, nofun⟩
  | head hstep _ ih =>
    obtain ⟨n, hrun, hbusy⟩ := ih
    refine ⟨n + 1, (run_succ_next hstep.step n).trans hrun, fun m hm => ?_⟩
    cases m with
    | zero => exact ⟨_, rfl, hstep.busy⟩
    | succ m => rw [run_succ_next hstep.step]; exact hbusy m (by omega)

/-! #### SEND and DRAIN -/

/-- Busy at a position whose step attempts `v`, and does so again after every retry. -/
structure Attempts (v : Byte) (s : State) : Prop where
  host : s.host = []
  busy : s.seq ≠ .idle
  own  : ∀ (q : Script TxAnswer) (tr : List Event),
    ({ s with tx := q, trace := tr } : State).stepOwn = .next (({ s with tx := q, trace := tr } : State).attempt v).2

theorem Attempts.busyStep {v : Byte} {s : State} (h : Attempts v s) : BusyStep s (s.attempt v).2 :=
  ⟨h.host, h.busy, h.own s.tx s.trace⟩

theorem Attempts.retry {v : Byte} {s : State} (h : Attempts v s) (hwb : s.tx.draw.1 = .wouldBlock) :
    Attempts v (s.attempt v).2 := by
  rw [attempt_wouldBlock hwb]
  exact ⟨h.host, h.busy, h.own⟩

/-- `WouldBlock` for ever: the position is never left (R172). -/
theorem Attempts.runsOn {v : Byte} {s : State} (h : Attempts v s) (htx : s.tx = ⟨[], .wouldBlock⟩) : RunsOn s := by
  intro n
  induction n generalizing s with
  | zero => exact ⟨s, rfl, h.busy⟩
  | succ n ih =>
    have hwb : s.tx.draw.1 = .wouldBlock := by rw [htx]; rfl
    rw [run_succ_next h.busyStep.step]
    refine ih (h.retry hwb) ?_
    rw [attempt_wouldBlock hwb, htx]
    rfl

theorem attempt_answer (v : Byte) (s : State) : (s.attempt v).1 = s.tx.draw.1 := by
  rw [attempt_eq]
  rcases s.tx.draw with ⟨a, q⟩
  cases a <;> rfl

/-- R83's loop, by the answer to its next attempt. -/
theorem sendWithin_succ (n : Nat) (v : Byte) (s : State) :
    s.sendWithin (n + 1) v =
      match s.tx.draw.1 with
      | .ok => .ok (s.attempt v).2
      | .err e => .err e (s.attempt v).2
      | .wouldBlock => (s.attempt v).2.sendWithin n v := by
  rw [State.sendWithin, ← attempt_answer v s]
  rcases s.attempt v with ⟨a, t⟩
  cases a <;> rfl

/-- SEND is the visits to one `..._SEND` position. -/
theorem Attempts.realized {v : Byte} {s : State} (h : Attempts v s) : (s.sendByte v).Realized s := by
  rcases htx : s.tx with ⟨xs, a⟩
  unfold State.sendByte
  rw [htx]
  induction xs generalizing s with
  | nil =>
    rw [sendWithin_succ]
    cases hd : s.tx.draw.1 with
    | ok => exact .single h.busyStep
    | err e => exact .single h.busyStep
    | wouldBlock => exact h.runsOn (by rw [htx] at hd ⊢; exact congrArg _ hd)
  | cons x xs ih =>
    rw [sendWithin_succ]
    cases hd : s.tx.draw.1 with
    | ok => exact .single h.busyStep
    | err e => exact .single h.busyStep
    | wouldBlock =>
      refine (ih (h.retry hd) ?_).head h.busyStep
      rw [attempt_wouldBlock hd, htx]
      rfl

theorem attempts_flSend {s : State} {w : Which} {k : Fin 20} (hq : s.seq = .flSend w k)
    (hx : s.seq.existsIn s.cfg = true) (hh : s.host = []) : Attempts flushByte s where
  host := hh
  busy := by rw [hq]; nofun
  own _ _ := stepOwn_flSend hq hx

/-- The state after a send stands at the position of the drain where there is a receive side, so DRAIN is one step. -/
structure DrainReady (t : State) : Prop where
  host : t.host = []
  seq  : t.cfg.hasRx = true → (∃ w k, t.seq = .flDrain w k) ∨ ∃ c j, t.seq = .symDrain c j
  isPosition : t.cfg.hasRx = true → t.seq.existsIn t.cfg = true

theorem DrainReady.busySteps {t : State} (h : DrainReady t) : BusySteps t t.drain := by
  cases hr : t.cfg.hasRx with
  | false => rw [drain_noRx hr]
  | true =>
    rw [drain_rx hr]
    have hx := h.isPosition hr
    obtain ⟨w, k, hq⟩ | ⟨c, j, hq⟩ := h.seq hr
    · exact .single ⟨h.host, by rw [hq]; nofun, stepOwn_flDrain hq hx⟩
    · exact .single ⟨h.host, by rw [hq]; nofun, stepOwn_symDrain hq hx⟩

/-- A send answered `Ok` ends in the state it leaves, retries and all. -/
theorem sendByte_endsAs (v : Byte) (s : State) :
    (s.sendByte v).EndsAs (fun t => ∃ k q, t = sentState v s k q) (fun _ => True) := by
  rw [sendByte_eq]
  split
  · trivial
  · exact ⟨_, _, rfl⟩
  · trivial
  · trivial

/-- SEND and the DRAIN after it. -/
theorem Attempts.realized_drain {v : Byte} {s : State} (h : Attempts v s)
    (hd : ∀ k q, DrainReady (sentState v s k q)) :
    ((s.sendByte v).andThen fun t => .ok (if true then t.drain else t)).Realized s := by
  refine h.realized.andThen (sendByte_endsAs v s) ?_
  rintro t ⟨k, q, rfl⟩
  exact (hd k q).busySteps

/-! #### FLUSH, ENCODE and the pixels -/

@[simp] theorem sentState_cfg (v : Byte) (s : State) (n : Nat) (q : Script TxAnswer) :
    (sentState v s n q).cfg = s.cfg :=
  afterSend_cfg _

@[simp] theorem sentState_host (v : Byte) (s : State) (n : Nat) (q : Script TxAnswer) :
    (sentState v s n q).host = s.host :=
  afterSend_host _

theorem sentState_flSend {s : State} {w : Which} {k : Fin 20} (hq : s.seq = .flSend w k) (hr : s.cfg.hasRx = true)
    (v : Byte) (n : Nat) (q : Script TxAnswer) : (sentState v s n q).seq = .flDrain w k := by
  rw [sentState, afterSend_flSend _ w k (by exact hq), if_pos hr]

theorem sentState_symSend {s : State} {c : Fin 4} {j : Fin 3} (hq : s.seq = .symSend c j) (hr : s.cfg.hasRx = true)
    (hj : j.val < 2) (v : Byte) (n : Nat) (q : Script TxAnswer) :
    (sentState v s n q).seq = .symDrain c ⟨j.val, hj⟩ := by
  rw [sentState, afterSend_symSend _ c j (by exact hq), dif_pos ⟨hr, hj⟩]

/-- A zero byte of a flush and its drain are `FL_SEND(w,k)` and `FL_DRAIN(w,k)`. -/
theorem realized_send_flSend {s : State} {w : Which} {k : Fin 20} (hq : s.seq = .flSend w k)
    (hx : s.seq.existsIn s.cfg = true) (hh : s.host = []) :
    ((s.sendByte flushByte).andThen fun t => .ok (if true then t.drain else t)).Realized s := by
  refine (attempts_flSend hq hx hh).realized_drain fun n q => ⟨by simpa using hh, fun hr => ?_, fun hr => ?_⟩ <;>
    rw [sentState_cfg] at hr <;> rw [sentState_flSend hq hr]
  · exact .inl ⟨w, k, rfl⟩
  · rw [hq] at hx
    rw [sentState_cfg]
    cases w with
    | pre => exact Bool.and_eq_true_iff.2 ⟨hr, hx⟩
    | post => exact hr

theorem flushBytes_succ (n : Nat) (s : State) :
    s.flushBytes (n + 1) =
      ((s.sendByte flushByte).andThen fun t => .ok (if true then t.drain else t)).andThen fun t => t.flushBytes n := by
  simp [State.flushBytes, andThen_assoc]

/-- FLUSH from its zero byte `k` on is the `FL_` positions from there. -/
theorem realized_flushBytes (n : Nat) {s : State} {w : Which} {k : Fin 20} (hq : s.seq = .flSend w k)
    (hn : k.val + n + 1 = 20) (hx : s.seq.existsIn s.cfg = true) (hh : s.host = []) :
    (s.flushBytes (n + 1)).Realized s := by
  have hbyte := realized_send_flSend hq hx hh
  rw [flushBytes_succ]
  induction n generalizing s k with
  | zero => simpa only [State.flushBytes, andThen_ok_self] using hbyte
  | succ n ih =>
    refine hbyte.andThen (follows_send_flSend s w k ⟨k.val + 1, by omega⟩ hq rfl).endsAs fun t ⟨hc, ht⟩ => ?_
    have hxt : t.seq.existsIn t.cfg = true := by
      rw [ht.seq, hc.frame.cfg]
      rw [hq] at hx
      cases w <;> exact hx
    have hht := hc.frame.host.trans hh
    rw [flushBytes_succ]
    exact ih ht.seq (by simp only; omega) hxt hht (realized_send_flSend ht.seq hxt hht)

/-- FLUSH is the `FL_` positions of one `w`. -/
theorem realized_flush {s : State} {w : Which} (hq : s.seq = .flSend w 0) (hx : s.seq.existsIn s.cfg = true)
    (hh : s.host = []) : s.flush.Realized s :=
  realized_flushBytes 19 hq rfl hx hh

/-- At `SYM_SEND(c,j)` with `v` in `ACC`. -/
structure AtByte (v : Triplet) (c : Fin 4) (j : Fin 3) (s : State) : Prop where
  seq        : s.seq = .symSend c j
  isPosition : (Seq.symSend c j).existsIn s.cfg = true
  acc        : s.acc = .holds v
  host       : s.host = []

theorem AtByte.attempts {v : Triplet} {c : Fin 4} {j : Fin 3} {s : State} (h : AtByte v c j s) :
    Attempts (tripletByte v j) s where
  host := h.host
  busy := by rw [h.seq]; nofun
  own q tr := by
    have hread : ({ s with tx := q, trace := tr } : State).readAcc = v := readAcc_holds _ v h.acc
    rw [← hread]
    exact stepOwn_symSend h.seq (by rw [h.seq]; exact h.isPosition)

/-- Byte 0 or 1 and its drain are `SYM_SEND(c,j)` and `SYM_DRAIN(c,j)`. -/
theorem AtByte.realized_drain {v : Triplet} {c : Fin 4} {j : Fin 3} {s : State} (h : AtByte v c j s) (hj : j.val < 2) :
    ((s.sendByte (tripletByte v j)).andThen fun t => .ok (if true then t.drain else t)).Realized s := by
  refine h.attempts.realized_drain fun n q => ⟨by simpa using h.host, fun hr => ?_, fun hr => ?_⟩ <;>
    rw [sentState_cfg] at hr <;> rw [sentState_symSend h.seq hr hj]
  · exact .inr ⟨c, _, rfl⟩
  · rw [sentState_cfg]
    exact Bool.and_eq_true_iff.2 ⟨hr, h.isPosition⟩

/-- What is at one byte when the bytes before it are sent is at the next. -/
theorem AtByte.next {v : Triplet} {c : Fin 4} {j j' : Fin 3} {p : Plan} {s t : State} (h : AtByte v c j s)
    (hc : Carried p s t) (ht : Quietly s (.symSend c j') t) : AtByte v c j' t :=
  ⟨ht.seq, by rw [hc.frame.cfg]; exact h.isPosition, ht.acc.trans h.acc, hc.frame.host.trans h.host⟩

/-- ENCODE of the color's channel byte in place `c` is `ENC(c)` and the `SYM_` positions of channel `c`. -/
theorem realized_encodeByte {s : State} {c : Fin 4} {p : Color} {b : Byte} (hq : s.seq = .enc c) (hp : s.pix = .holds p)
    (hv : variantOf p = s.cfg.variant) (hb : (colorBytes p)[c.val]? = some b) (hh : s.host = []) :
    (s.encodeByte b).Realized s := by
  have hlt : c.val < chCount s.cfg.variant := by
    rw [← hv, ← colorBytes_length]
    exact (List.getElem?_eq_some_iff.1 hb).1
  have hstep : BusyStep s (s.loadAcc (tripletOf b)) :=
    ⟨hh, by rw [hq]; nofun, stepOwn_enc hq hp hv hb⟩
  have h0 : AtByte (tripletOf b) c 0 (s.loadAcc (tripletOf b)) := by
    rw [loadAcc_enc s _ c hq]
    exact ⟨rfl, decide_eq_true hlt, rfl, hh⟩
  rw [encodeByte_eq]
  refine .head hstep ((h0.realized_drain (by decide)).andThen (follows_send_symSend _ _ c 0 1 h0.seq rfl).endsAs
    fun t ⟨hc, ht⟩ => ?_)
  have h1 := h0.next hc ht
  refine (h1.realized_drain (by decide)).andThen (follows_send_symSend _ _ c 1 2 h1.seq rfl).endsAs
    fun u ⟨hcu, hu⟩ => ?_
  simpa using (h1.next hcu hu).attempts.realized

/-- A pixel from channel `k` on is the `ENC` and `SYM_` positions from there. -/
theorem realized_encodeAll (bs : List Byte) {s : State} {p : Color} {k : Nat} (hbs : (colorBytes p).drop k = bs)
    (hq : s.seq = encOrFetch s.cfg.variant k) (hp : s.pix = .holds p) (hv : variantOf p = s.cfg.variant)
    (hh : s.host = []) : (s.encodeAll bs).Realized s := by
  induction bs generalizing s k with
  | nil => exact .refl
  | cons b bs ih =>
    have hlen := colorBytes_length p
    have hk : k < (colorBytes p).length := by
      by_contra hge
      rw [List.drop_of_length_le (by omega)] at hbs
      cases hbs
    rw [List.drop_eq_getElem_cons hk] at hbs
    obtain ⟨hb, hrest⟩ := List.cons.inj hbs
    have h4 := chCount_le_four (variantOf p)
    rw [encOrFetch_of_lt (by rw [← hv]; omega) (by omega)] at hq
    refine (realized_encodeByte hq hp hv (by rw [← hb]; exact List.getElem?_eq_getElem hk) hh).andThen
      (follows_encode_enc b s _ hq).endsAs fun t ⟨hc, ht⟩ => ?_
    refine ih hrest ?_ (hc.frame.pix.trans hp) (by rw [hc.frame.cfg]; exact hv) (hc.frame.host.trans hh)
    rw [ht.seq, afterSym_last s _ rfl, hc.frame.cfg]

/-! #### WRITE -/

/-- Steps 2 and 3 of R112 and R113 are the loop through `FETCH`, and the final flush. -/
theorem realized_writeLoop (cs : List Color) {s : State} (hv : ∀ c ∈ cs, variantOf c = s.cfg.variant)
    (hcol : s.colors = ⟨cs, none⟩) (hq : s.seq = .fetch) (hh : s.host = []) :
    (s.writeLoop (cs.length + 1)).Realized s := by
  induction cs generalizing s with
  | nil =>
    have hown := stepOwn_fetch_none hq (by rw [hcol]; rfl)
    rw [nextColor_of_nil hcol] at hown
    rw [writeLoop_of_nil _ hcol]
    exact (realized_flush (s := (s.log .pullEnd).enterFinalFlush) rfl rfl hh).head ⟨hh, by rw [hq]; nofun, hown⟩
  | cons c cs ih =>
    obtain ⟨hc, hcs⟩ := List.forall_mem_cons.1 hv
    have hown := stepOwn_fetch_some hq (by rw [hcol]; rfl) hc
    rw [nextColor_of_cons hcol] at hown
    have hlen : (colorBytes c).length = chCount s.cfg.variant := by rw [colorBytes_length, hc]
    have hpixel := realized_encodeAll (colorBytes c) (s := s.pixelBegun c cs) (k := 0) rfl (encOrFetch_zero _).symm rfl
      hc hh
    have hends := (follows_encodeAll (colorBytes c) (s := s.pixelBegun c cs) (.inr rfl) hlen.le).endsAs
    rw [List.length_cons, writeLoop_of_cons _ hcol]
    refine .head ⟨hh, by rw [hq]; nofun, hown⟩ (hpixel.andThen hends fun t ⟨ht, hend⟩ => ?_)
    have hseq : t.seq = .fetch := by
      rw [hend.seq, hlen]
      exact inPixel_last rfl
    exact ih (by rw [ht.frame.cfg]; exact hcs) ht.frame.colors hseq (ht.frame.host.trans hh)

/-- R112 and R113 from an accepted `Start` are the steps from there. -/
theorem realized_writeAll (cs : List Color) {s : State} (hv : ∀ c ∈ cs, variantOf c = s.cfg.variant)
    (hcol : s.colors = ⟨cs, none⟩) (hq : s.seq = if s.cfg.idleHigh then .flSend .pre 0 else .fetch)
    (hh : s.host = []) : s.writeAll.Realized s := by
  unfold State.writeAll
  cases hi : s.cfg.idleHigh with
  | false =>
    rw [hi] at hq
    simpa [hcol] using realized_writeLoop cs hv hcol hq hh
  | true =>
    rw [hi, if_pos rfl] at hq
    rw [if_pos rfl]
    refine (realized_flush hq (by rw [hq]; exact hi) hh).andThen (follows_flush (.inr ⟨.pre, hq⟩)).endsAs
      fun t ⟨ht, hend⟩ => ?_
    have hcolt := ht.frame.colors.trans hcol
    have hloop := realized_writeLoop cs (by rw [ht.frame.cfg]; exact hv) hcolt (hend.pre hq).1 (ht.frame.host.trans hh)
    rwa [hcolt]

@[simp] theorem attempt_ret (v : Byte) (s : State) : (s.attempt v).2.ret = s.ret := by
  rw [attempt_eq]
  split <;> simp

/-- No step of the block writes the ghost `ret`. -/
theorem stepOwn_ret {s t : State} (h : s.stepOwn = .next t) : t.ret = s.ret := by
  obtain ⟨-, ⟨-, rfl⟩ | ⟨_, _, -, rfl⟩ | ⟨_, _, -, rfl⟩ | ⟨_, _, -, rfl⟩ | ⟨-, -, rfl⟩ | ⟨_, -, -, -, rfl⟩ |
    ⟨_, _, -, -, rfl⟩ | ⟨_, _, -, rfl⟩⟩ := stepOwn_next h <;> simp

theorem BusySteps.ret {s t : State} (h : BusySteps s t) : t.ret = s.ret := by
  induction h with
  | refl => rfl
  | tail _ hstep ih => exact (stepOwn_ret hstep.own).trans ih

/-- The state a flow ends in is reached by the steps, but for the ghost `ret`, which the operation writes. -/
theorem Flow.Realized.steps_of_answer {s t : State} {f : Flow} (hf : f.Realized s) (h : f.answer = .next t) :
    BusySteps s { t with ret := s.ret } := by
  cases f with
  | ok u =>
    cases h
    have hret : u.ret = s.ret := BusySteps.ret hf
    rw [← hret]
    exact hf
  | err e u =>
    cases h
    have hret : u.ret = s.ret := BusySteps.ret hf
    rw [← hret]
    exact hf
  | never => cases h

theorem Flow.Realized.runsOn_of_answer {s : State} {f : Flow} {r : Fault} (hf : f.Realized s)
    (h : f.answer = .fault r) : RunsOn s := by
  cases f with
  | ok u => cases h
  | err e u => cases h
  | never => exact hf

theorem answer_ne_refused (f : Flow) (r : Refusal) : f.answer ≠ .refused r := by
  cases f <;> nofun

/-- Settles O51: the first step takes the `Start`, and from there the steps carry out the functional form. -/
theorem functionalAndStepFormsAgree : Obligations.FunctionalAndStepFormsAgree := by
  intro i cs s hi hq hh
  have hstart : step { s with host := [.start ⟨cs, none⟩] } = .next (s.acceptStart ⟨cs, none⟩) := by
    have hs : { s with host := [] } = s := by rw [← hh]
    rw [step_start (takeMove_cons rfl), hs, stepStart_idle _ hq]
  have hf := realized_writeAll cs (s := s.acceptStart ⟨cs, none⟩) (variantOf_of_writesOf hi) rfl rfl hh
  have hexec : exec i s = (s.acceptStart ⟨cs, none⟩).writeAll.answer := by rw [exec_of_writesOf hi, write_idle cs hq]
  refine ⟨fun t ht => ?_, fun r hr => ?_, fun r hr => ?_⟩
  · obtain ⟨n, hrun, hbusy⟩ := (hf.steps_of_answer (hexec.symm.trans ht)).run
    refine ⟨n + 1, (run_succ_next hstart n).trans hrun, idle_of_exec_write hi hq ht, fun m hm hlt => ?_⟩
    obtain ⟨m, rfl⟩ := Nat.exists_eq_succ_of_ne_zero hm.ne'
    rw [run_succ_next hstart]
    exact hbusy m (by omega)
  · refine ⟨exec_fault hr, fun m hm => ?_⟩
    obtain ⟨m, rfl⟩ := Nat.exists_eq_succ_of_ne_zero hm.ne'
    rw [run_succ_next hstart]
    exact hf.runsOn_of_answer (hexec.symm.trans hr) m
  · exact answer_ne_refused _ r (hexec.symm.trans hr)

end Sys2Proof.Machine

/-! Exceptions (spec/60_exceptions.md): a failed send aborts within its own step, and nothing else makes `RES` an
error. -/

namespace Sys2Proof.Machine

/-- The own step of a position that offers a byte is the attempt to send it (R121, R127). -/
theorem stepOwn_of_offeredByte {s : State} {b : Byte} (hx : s.seq.existsIn s.cfg = true)
    (hb : s.offeredByte = some b) : s.stepOwn = .next (s.attempt b).2 := by
  cases hq : s.seq with
  | flSend w k =>
    obtain rfl : flushByte = b := by simpa [State.offeredByte, hq, flushByte, Config.flushByte] using hb
    exact stepOwn_flSend hq hx
  | symSend c j =>
    obtain rfl : tripletByte s.readAcc j = b :=
      tripletByte_of_getElem? (by simpa only [State.offeredByte, hq] using hb)
    exact stepOwn_symSend hq hx
  | _ => simp [State.offeredByte, hq] at hb

/-- R146: what the abort of a failed attempt writes. -/
theorem attempt_err {v : Byte} {s : State} {e : ErrTag} {q : Script TxAnswer} (h : s.tx.draw = (.err e, q)) :
    (s.attempt v).2 = { s with
      tx := q, res := .err e, seq := .idle, trace := s.trace ++ [.txerr v e, .done (.err e)] } := by
  rw [attempt_eq, h]
  simp [State.abort, State.deliver, State.log]

/-- Settles O24: the step is the failed attempt, and an idle block with no host move stays as it is. -/
theorem failedSendAborts : Obligations.FailedSendAborts := by
  intro s s1 b e q hm hx hb hdraw
  refine ⟨_, ?_, rfl, fun hh => run_idle (by exact hh) (by rfl)⟩
  rw [step_quiet hm, stepOwn_of_offeredByte hx hb, attempt_err hdraw]

/-- Settles O31: of the block's own writers of `RES` only the abort leaves an error, and `Start` and reset leave none. -/
theorem errorsComeFromSends : Obligations.ErrorsComeFromSends := by
  intro s t e hd hstep hres hne
  obtain ⟨-, hown⟩ | ⟨source, -, -, rfl⟩ | ⟨-, rfl⟩ := step_next_of_disciplined hd hstep
  · obtain (hkept | ⟨-, hok⟩) | ⟨e', hsend, hdraw, hidle, herr⟩ := stepOwn_res hown
    · rw [takeMove_res] at hkept
      exact absurd (hkept.symm.trans hres) hne
    · simp [hok] at hres
    · obtain rfl : e' = e := by simpa [herr] using hres
      obtain ⟨v, rfl⟩ := stepOwn_isSend hown hsend
      rw [takeMove_seq] at hsend
      rw [takeMove_tx] at hdraw
      exact ⟨hsend, hdraw, hidle, by simp, by simp⟩
  · simp at hres
  · simp at hres

end Sys2Proof.Machine

/-! Reset and hazards (spec/70_reset_and_hazards.md): hardware reset from any state, and the two ways of R172 in which
the block never comes back to `IDLE`: a byte answered `WouldBlock` for ever, and a color source without an end. -/

namespace Sys2Proof.Machine

/-! ### Hardware reset (R165, R32) -/

theorem step_reset {s s1 : State} (hm : s.takeMove = (.reset, s1)) : step s = .next s1.hwReset := by
  simp [step, hm]

/-- Settles O13: the step of a reset move is the reset, whatever the position. -/
theorem hardwareReset : Obligations.HardwareReset :=
  ⟨fun _ _ hm => step_reset hm, rfl, rfl, rfl, rfl, rfl⟩

/-! ### A byte answered `WouldBlock` for ever: the functional form (R172, R150) -/

theorem settle_eq_none_iff (q : Script TxAnswer) : settle q = none ↔ offer q 0 = .wouldBlock := by
  have hspec := settle_spec q
  cases hs : settle q with
  | none => simpa [hs] using hspec
  | some r =>
    obtain ⟨k, a, q'⟩ := r
    rw [hs] at hspec
    obtain ⟨ha, hoffer, -⟩ := hspec
    simp [hoffer, ha]

/-- A blocking send goes on for ever exactly when its byte is never settled. -/
theorem sendByte_eq_never_iff (v : Byte) (s : State) : s.sendByte v = .never ↔ settle s.tx = none := by
  have hspec := settle_spec s.tx
  rw [sendByte_eq]
  rcases hs : settle s.tx with _ | ⟨k, a, q⟩
  · simp
  · rw [hs] at hspec
    cases a with
    | ok => simp
    | wouldBlock => exact absurd rfl hspec.1
    | err e => simp

theorem answer_eq_neverEnds_iff (f : Flow) : f.answer = .fault .neverEnds ↔ f = .never := by
  cases f <;> simp

/-- What follows a plan has no result once one of the plan's bytes is never settled. -/
theorem Follows.answer_never {p : Plan} {s : State} {f : Flow} {post fail : State → Prop} (h : Follows p s f post fail)
    {n : Nat} (hn : n < p.length) (hok : okBefore s.tx n) (hwb : offer s.tx n = .wouldBlock) :
    f.answer = .fault .neverEnds :=
  (answer_eq_neverEnds_iff f).2 (h.never n hn hok hwb)

theorem exec_send_never_iff (v : Byte) (s : State) : exec (.send v) s = .fault .neverEnds ↔ settle s.tx = none :=
  (answer_eq_neverEnds_iff _).trans (sendByte_eq_never_iff v s)

/-- Channel bytes encoded in isolation have no result once one of their `3 * bs.length` sends is never settled. -/
theorem encodeAll_never {bs : List Byte} {s : State} {n : Nat} (hq : s.seq = .idle) (hn : n < 3 * bs.length)
    (hok : okBefore s.tx n) (hwb : offer s.tx n = .wouldBlock) : (s.encodeAll bs).answer = .fault .neverEnds :=
  (follows_encodeAll_idle bs hq).answer_never (by rwa [flatMap_encodePlan_length]) hok hwb

/-- Settles O45: every operation follows its plan of bytes, and the byte of a SEND is offer 0. -/
theorem operationsThatNeverReturn : Obligations.OperationsThatNeverReturn := by
  refine ⟨fun s v => (exec_send_never_iff v s).symm, fun s n hq hok hwb => ⟨fun hn v => ?_, fun hn b => ?_, fun hn => ?_,
    fun hn hv r g b => ?_, fun hn hv r g b w => ?_⟩⟩
  · obtain rfl : n = 0 := by omega
    exact (exec_send_never_iff v s).2 ((settle_eq_none_iff s.tx).2 hwb)
  · exact (follows_encode b (.inl hq)).answer_never hn hok hwb
  · exact (follows_flush (.inl hq)).answer_never hn hok hwb
  · exact (if_pos hv).trans (encodeAll_never (bs := pixelBytes3 r g b) hq hn hok hwb)
  · exact (if_pos hv).trans (encodeAll_never (bs := pixelBytes4 r g b w) hq hn hok hwb)

/-! ### A byte answered `WouldBlock` for ever: the step form (R172) -/

/-- A position of the block that offers a byte attempts it, after every retry again. -/
theorem attempts_of_offeredByte {s : State} {b : Byte} (hh : s.host = []) (hx : s.seq.existsIn s.cfg = true)
    (hb : s.offeredByte = some b) : Attempts b s where
  host := hh
  busy hq := by simp [State.offeredByte, hq] at hb
  own q tr := stepOwn_of_offeredByte (s := { s with tx := q, trace := tr }) hx hb

/-- The run of a position whose every attempt is answered `WouldBlock`: one recorded retry a step. -/
theorem Attempts.run_retries {v : Byte} {s : State} (h : Attempts v s) (htx : s.tx = ⟨[], .wouldBlock⟩) (n : Nat) :
    Host.Core.run Sys2Proof.core n s = .next { s with trace := s.trace ++ List.replicate n (.txwb v) } := by
  induction n generalizing s with
  | zero => simp [Host.Core.run]
  | succ n ih =>
    have hwb : s.tx.draw.1 = .wouldBlock := by rw [htx]; rfl
    have hretry : (s.attempt v).2 = { s with trace := s.trace ++ [.txwb v] } := by
      rw [attempt_wouldBlock hwb, htx, draw_nil, ← htx]
    have hnext := h.retry hwb
    rw [hretry] at hnext
    rw [run_succ_next h.busyStep.step, hretry, ih hnext htx, List.append_assoc, List.replicate_succ,
      List.singleton_append]

/-! ### A color source without an end (R172, R131)

The block then goes round `FETCH`, `ENC`, `SYM_SEND` and `SYM_DRAIN`: the way out of these positions is an exhausted
source or a failed send. -/

/-- The positions of a pixel, between two pulls. -/
def Seq.InPixels : Seq → Prop
  | .idle => False
  | .flSend _ _ => False
  | .flDrain _ _ => False
  | .fetch => True
  | .enc _ => True
  | .symSend _ _ => True
  | .symDrain _ _ => True

/-- No attempt to send is ever answered `Err(e)`. -/
def NeverFails (q : Script TxAnswer) : Prop := ∀ e : ErrTag, q.after ≠ .err e ∧ TxAnswer.err e ∉ q.answers

theorem neverFails_draw {q : Script TxAnswer} (h : NeverFails q) : (∀ e, q.draw.1 ≠ .err e) ∧ NeverFails q.draw.2 := by
  rcases q with ⟨_ | ⟨x, xs⟩, a⟩
  · exact ⟨fun e => (h e).1, h⟩
  · refine ⟨fun e hx => ?_, fun e => ⟨(h e).1, fun hmem => (h e).2 (List.mem_cons_of_mem x hmem)⟩⟩
    obtain rfl : x = .err e := hx
    exact (h e).2 List.mem_cons_self

@[simp] theorem draw_endless (q : ColorSource) : q.draw.2.endless = q.endless := by
  rcases q with ⟨_ | ⟨p, ps⟩, a⟩ <;> rfl

theorem draw_isSome_of_endless {q : ColorSource} (h : q.endless.isSome = true) : q.draw.1.isSome = true := by
  rcases q with ⟨_ | ⟨p, ps⟩, a⟩
  · exact h
  · rfl

@[simp] theorem attempt_host (v : Byte) (s : State) : (s.attempt v).2.host = s.host := by
  rw [attempt_eq]
  split <;> simp

@[simp] theorem attempt_colors (v : Byte) (s : State) : (s.attempt v).2.colors = s.colors := by
  rw [attempt_eq]
  split <;> simp

@[simp] theorem attempt_tx (v : Byte) (s : State) : (s.attempt v).2.tx = s.tx.draw.2 := by
  rw [attempt_eq]
  split <;> simp [*]

/-- What the own step does to the environment: it takes no host move, leaves an endless source endless, and draws at
most one answer of the peripheral. -/
theorem stepOwn_environment {s t : State} (h : s.stepOwn = .next t) :
    t.host = s.host ∧ t.colors.endless = s.colors.endless ∧ (t.tx = s.tx ∨ t.tx = s.tx.draw.2) := by
  obtain ⟨-, ⟨-, rfl⟩ | ⟨_, _, -, rfl⟩ | ⟨_, _, -, rfl⟩ | ⟨_, _, -, rfl⟩ | ⟨-, -, rfl⟩ | ⟨_, -, -, -, rfl⟩ |
    ⟨_, _, -, -, rfl⟩ | ⟨_, _, -, rfl⟩⟩ := stepOwn_next h <;> simp

theorem afterSym_inPixels (s : State) (c : Fin 4) (j : Fin 3) : (s.afterSym c j).seq.InPixels := by
  obtain ⟨_, -, h⟩ | ⟨_, -, -, h⟩ | h := afterSym_cases s c j <;> rw [h] <;> trivial

/-- At `SYM_SEND(c,j)`: a retry, or on to the drain or past the byte, where the send does not fail. -/
theorem attempt_inPixels (v : Byte) {s : State} {c : Fin 4} {j : Fin 3} (hq : s.seq = .symSend c j)
    (herr : ∀ e, s.tx.draw.1 ≠ .err e) : (s.attempt v).2.seq.InPixels := by
  rw [attempt_eq]
  rcases hd : s.tx.draw with ⟨a, q⟩
  cases a with
  | ok =>
    dsimp only
    rw [afterSend_symSend _ c j (by exact hq)]
    split
    · trivial
    · exact afterSym_inPixels _ c j
  | wouldBlock => simp only [hq, Seq.InPixels]
  | err e => exact absurd (by rw [hd]) (herr e)

/-- Where the source has a color and no send fails, the own step stays among the positions of the pixels. -/
theorem stepOwn_inPixels {s t : State} (h : s.stepOwn = .next t) (hq : s.seq.InPixels)
    (hcolor : s.colors.draw.1.isSome = true) (herr : ∀ e, s.tx.draw.1 ≠ .err e) : t.seq.InPixels := by
  obtain ⟨-, ⟨hseq, -⟩ | ⟨w, k, hseq, -⟩ | ⟨w, k, hseq, -⟩ | ⟨c, j, hseq, rfl⟩ | ⟨-, hnone, -⟩ | ⟨_, -, -, -, rfl⟩ |
    ⟨c, b, hseq, -, rfl⟩ | ⟨c, j, hseq, rfl⟩⟩ := stepOwn_next h
  · rw [hseq] at hq; cases hq
  · rw [hseq] at hq; cases hq
  · rw [hseq] at hq; cases hq
  · rw [afterDrain_symDrain s.tryRecv c j hseq]; exact afterSym_inPixels _ c _
  · simp [hnone] at hcolor
  · trivial
  · rw [loadAcc_enc s _ c hseq]; trivial
  · exact attempt_inPixels _ hseq herr

/-- A WRITE among its pixels that has no way to end: no host move to come, an endless source, no send that fails. -/
structure Unending (s : State) : Prop where
  inv      : s.inv = true
  host     : s.host = []
  inPixels : s.seq.InPixels
  endless  : s.colors.endless.isSome = true
  sends    : NeverFails s.tx

theorem Unending.busy {s : State} (h : Unending s) : s.seq ≠ .idle := fun hq => by
  have hpixels := h.inPixels
  rw [hq] at hpixels
  exact hpixels

/-- Every step of an unending WRITE leaves it unending. -/
theorem Unending.stepOwn {s t : State} (h : Unending s) (hs : s.stepOwn = .next t) : Unending t := by
  obtain ⟨hhost, hendless, htx⟩ := stepOwn_environment hs
  obtain ⟨herr, hdrawn⟩ := neverFails_draw h.sends
  refine ⟨stepOwn_inv h.inv hs, hhost.trans h.host,
    stepOwn_inPixels hs h.inPixels (draw_isSome_of_endless h.endless) herr, by rw [hendless]; exact h.endless, ?_⟩
  obtain htx | htx := htx <;> rw [htx]
  · exact h.sends
  · exact hdrawn

/-- A step of an unending WRITE delivers nothing, for the block stays busy (R134). -/
theorem Unending.delivers_nothing {s t : State} (h : Unending s) (hs : s.stepOwn = .next t) :
    deliveredOf t.trace = deliveredOf s.trace := by
  obtain ⟨-, hnone⟩ | ⟨_, hidle, -⟩ := stepOwn_goesOnOrDelivers hs h.busy
  · exact hnone
  · exact absurd hidle (h.stepOwn hs).busy

/-- An unending WRITE is as unending after any number of steps. -/
theorem Unending.run {s : State} (h : Unending s) (n : Nat) :
    ∃ t, Host.Core.run Sys2Proof.core n s = .next t ∧ Unending t ∧ deliveredOf t.trace = deliveredOf s.trace := by
  induction n generalizing s with
  | zero => exact ⟨s, rfl, h, rfl⟩
  | succ n ih =>
    obtain ⟨t, hs⟩ := stepOwn_isNext h.inv
    obtain ⟨u, hrun, hu, hdel⟩ := ih (h.stepOwn hs)
    refine ⟨u, ?_, hu, hdel.trans (h.delivers_nothing hs)⟩
    rw [run_succ_next ((step_of_host_nil h.host).trans hs), hrun]

/-- Settles O54: retries of one byte for ever, and the round of the pixels for ever. -/
theorem aWriteNeedNotEnd : Obligations.AWriteNeedNotEnd := by
  refine ⟨fun s b n hh hx hb htx => (attempts_of_offeredByte hh hx hb).run_retries htx n,
    fun s n c hh hinv hq hc hsends => ?_⟩
  have h : Unending s := ⟨hinv, hh, by rw [hq]; trivial, by rw [hc]; rfl, hsends⟩
  obtain ⟨t, hrun, ht, hdel⟩ := h.run n
  exact ⟨t, hrun, ht.busy, hdel⟩

end Sys2Proof.Machine
